-- ==== Sys2Proof/Word.lean ====
section
/-! DEFINITION. The machine's words: 32-bit values, bytes, register indices (spec 00_scope R8, R9; 10_state R20). -/

namespace Sys2Proof

/-- A register value, address, pc value or instruction word: a 32-bit pattern (R9). -/
abbrev Word := BitVec 32

/-- One byte of memory (R27). -/
abbrev Byte := BitVec 8

/-- The index of a general register: the 5-bit field of an instruction (R20). -/
abbrev RegIdx := BitVec 5

/-- The amount of a shift-immediate, 0 to 31 (R68). -/
abbrev Shamt := BitVec 5

end Sys2Proof
end

