-- ==== Sys2Proof/Machine/Flags.lean ====
section
/-! DEFINITION. The core has no flags (R29): a comparison is a truth value that a branch uses, or a 0 or 1 that SLT and
its kin write to a register. -/

namespace Sys2Proof.Machine

/-- `signed(a) < signed(b)` (R104, R183). -/
def signedLess (a b : Word) : Bool := decide (a.toInt < b.toInt)

/-- `unsigned(a) < unsigned(b)` (R105, R185). -/
def unsignedLess (a b : Word) : Bool := decide (a.toNat < b.toNat)

/-- `(c) ? 1 : 0` (R104). -/
def truthWord (c : Bool) : Word := if c then 1#32 else 0#32

end Sys2Proof.Machine
end

