-- ==== Sys2Proof/Syntax.lean ====
section
/-! DEFINITION. The 47 instructions of spec/opcode_table.json, one constructor a row (R2, R80). -/

namespace Sys2Proof

/-- An instruction: its mnemonic is the constructor, its fields are the ones its format uses; the whole record of R80 is
`DecodedInstr`, and `DecodedInstr.instr` reads the instruction from it.
An immediate `imm` is the 32-bit value the decoder produces, sign-extended (I, S, B, J) or already
shifted (U); no meaning extends it again (R69). -/
inductive Instr where
  -- register-register (R101 to R110)
  | add (rd rs1 rs2 : RegIdx)
  | sub (rd rs1 rs2 : RegIdx)
  | sll (rd rs1 rs2 : RegIdx)
  | slt (rd rs1 rs2 : RegIdx)
  | sltu (rd rs1 rs2 : RegIdx)
  | xor (rd rs1 rs2 : RegIdx)
  | srl (rd rs1 rs2 : RegIdx)
  | sra (rd rs1 rs2 : RegIdx)
  | or (rd rs1 rs2 : RegIdx)
  | and (rd rs1 rs2 : RegIdx)
  -- multiply and divide (R121 to R128)
  | mul (rd rs1 rs2 : RegIdx)
  | mulh (rd rs1 rs2 : RegIdx)
  | mulhsu (rd rs1 rs2 : RegIdx)
  | mulhu (rd rs1 rs2 : RegIdx)
  | div (rd rs1 rs2 : RegIdx)
  | divu (rd rs1 rs2 : RegIdx)
  | rem (rd rs1 rs2 : RegIdx)
  | remu (rd rs1 rs2 : RegIdx)
  -- register-immediate (R141 to R149)
  | addi (rd rs1 : RegIdx) (imm : Word)
  | slti (rd rs1 : RegIdx) (imm : Word)
  | sltiu (rd rs1 : RegIdx) (imm : Word)
  | xori (rd rs1 : RegIdx) (imm : Word)
  | ori (rd rs1 : RegIdx) (imm : Word)
  | andi (rd rs1 : RegIdx) (imm : Word)
  | slli (rd rs1 : RegIdx) (shamt : Shamt)
  | srli (rd rs1 : RegIdx) (shamt : Shamt)
  | srai (rd rs1 : RegIdx) (shamt : Shamt)
  -- loads (R161 to R165)
  | lb (rd rs1 : RegIdx) (imm : Word)
  | lh (rd rs1 : RegIdx) (imm : Word)
  | lw (rd rs1 : RegIdx) (imm : Word)
  | lbu (rd rs1 : RegIdx) (imm : Word)
  | lhu (rd rs1 : RegIdx) (imm : Word)
  -- stores (R171 to R173)
  | sb (rs2 rs1 : RegIdx) (imm : Word)
  | sh (rs2 rs1 : RegIdx) (imm : Word)
  | sw (rs2 rs1 : RegIdx) (imm : Word)
  -- branches (R181 to R186)
  | beq (rs1 rs2 : RegIdx) (imm : Word)
  | bne (rs1 rs2 : RegIdx) (imm : Word)
  | blt (rs1 rs2 : RegIdx) (imm : Word)
  | bge (rs1 rs2 : RegIdx) (imm : Word)
  | bltu (rs1 rs2 : RegIdx) (imm : Word)
  | bgeu (rs1 rs2 : RegIdx) (imm : Word)
  -- upper immediate (R190, R191)
  | lui (rd : RegIdx) (imm : Word)
  | auipc (rd : RegIdx) (imm : Word)
  -- jumps (R195, R196)
  | jal (rd : RegIdx) (imm : Word)
  | jalr (rd rs1 : RegIdx) (imm : Word)
  -- system (R200, R201)
  | ecall
  | ebreak
  deriving DecidableEq, Repr

/-- The opcode class of a decoded instruction (R80). -/
inductive InstrClass where
  | r | iArith | iLoad | s | b | u | j | system
  deriving DecidableEq, Repr

end Sys2Proof
end

