-- ==== Sys2Proof/WellFormed.lean ====
section
/-! DEFINITION. Which immediates an encoding can hold (R63 to R69): the check on an instruction as a term. -/

namespace Sys2Proof

/-- A value the 12-bit I and S immediates can hold: -2048 to 2047 (R63, R64). -/
def fitsI (imm : Word) : Bool := decide (-2048 ≤ imm.toInt ∧ imm.toInt ≤ 2047)

/-- A value the B immediate can hold: even, -4096 to 4094 (R65). -/
def fitsB (imm : Word) : Bool :=
  decide (-4096 ≤ imm.toInt ∧ imm.toInt ≤ 4094 ∧ imm.toNat % 2 = 0)

/-- A value the U immediate can hold: the low 12 bits are zero (R66). -/
def fitsU (imm : Word) : Bool := decide (imm.toNat % 4096 = 0)

/-- A value the J immediate can hold: even, -1048576 to 1048574 (R67). -/
def fitsJ (imm : Word) : Bool :=
  decide (-1048576 ≤ imm.toInt ∧ imm.toInt ≤ 1048574 ∧ imm.toNat % 2 = 0)

/-- An instruction that some 32-bit word encodes: its immediate is in its format's range (R69). -/
def Instr.wellFormed : Instr → Bool
  | .add _ _ _ | .sub _ _ _ | .sll _ _ _ | .slt _ _ _ | .sltu _ _ _ => true
  | .xor _ _ _ | .srl _ _ _ | .sra _ _ _ | .or _ _ _ | .and _ _ _ => true
  | .mul _ _ _ | .mulh _ _ _ | .mulhsu _ _ _ | .mulhu _ _ _ => true
  | .div _ _ _ | .divu _ _ _ | .rem _ _ _ | .remu _ _ _ => true
  | .slli _ _ _ | .srli _ _ _ | .srai _ _ _ => true
  | .addi _ _ imm | .slti _ _ imm | .sltiu _ _ imm => fitsI imm
  | .xori _ _ imm | .ori _ _ imm | .andi _ _ imm => fitsI imm
  | .lb _ _ imm | .lh _ _ imm | .lw _ _ imm | .lbu _ _ imm | .lhu _ _ imm => fitsI imm
  | .sb _ _ imm | .sh _ _ imm | .sw _ _ imm => fitsI imm
  | .beq _ _ imm | .bne _ _ imm | .blt _ _ imm => fitsB imm
  | .bge _ _ imm | .bltu _ _ imm | .bgeu _ _ imm => fitsB imm
  | .lui _ imm | .auipc _ imm => fitsU imm
  | .jal _ imm => fitsJ imm
  | .jalr _ _ imm => fitsI imm
  | .ecall | .ebreak => true

end Sys2Proof
end

