-- ==== Sys2Proof/Decode.lean ====
section
/-! DEFINITION. Decoding and encoding (spec 30_encoding): fields R61, immediates R63 to R68, the decode function R79,
the opcode table's rows, an encoder written from the same formats (R62), and the decoded record (R80). -/

namespace Sys2Proof

/-! ### Fields (R61) -/

/-- opcode = inst[6:0]. -/
def opcodeOf (w : Word) : BitVec 7 := w.extractLsb' 0 7
/-- rd = inst[11:7]. -/
def rdOf (w : Word) : RegIdx := w.extractLsb' 7 5
/-- funct3 = inst[14:12]. -/
def funct3Of (w : Word) : BitVec 3 := w.extractLsb' 12 3
/-- rs1 = inst[19:15]. -/
def rs1Of (w : Word) : RegIdx := w.extractLsb' 15 5
/-- rs2 = inst[24:20]. -/
def rs2Of (w : Word) : RegIdx := w.extractLsb' 20 5
/-- funct7 = inst[31:25]. -/
def funct7Of (w : Word) : BitVec 7 := w.extractLsb' 25 7

/-! ### Immediates (R63 to R68) -/

/-- immI = sext_12(inst[31:20]) (R63). -/
def immI (w : Word) : Word := (w.extractLsb' 20 12).signExtend 32

/-- immS = sext_12 of inst[31:25], inst[11:7] (R64). -/
def immS (w : Word) : Word :=
  (w.extractLsb' 25 7 ++ w.extractLsb' 7 5 : BitVec 12).signExtend 32

/-- immB = sext_13 of inst[31], inst[7], inst[30:25], inst[11:8], 0 (R65). -/
def immB (w : Word) : Word :=
  (w.extractLsb' 31 1 ++ w.extractLsb' 7 1 ++ w.extractLsb' 25 6 ++ w.extractLsb' 8 4 ++ 0#1
    : BitVec 13).signExtend 32

/-- immU = inst[31:12] above twelve zero bits (R66). -/
def immU (w : Word) : Word := (w.extractLsb' 12 20 ++ 0#12 : BitVec 32)

/-- immJ = sext_21 of inst[31], inst[19:12], inst[20], inst[30:21], 0 (R67). -/
def immJ (w : Word) : Word :=
  (w.extractLsb' 31 1 ++ w.extractLsb' 12 8 ++ w.extractLsb' 20 1 ++ w.extractLsb' 21 10 ++ 0#1
    : BitVec 21).signExtend 32

/-- shamt = immI[4:0] = inst[24:20] (R68). -/
def shamtOf (w : Word) : Shamt := w.extractLsb' 20 5

/-! ### Decoding (R70 to R83) -/

/-- Why a word is no instruction. Every one of these halts the core with IllegalInstruction (R221); the finer names
are the model's own (DESIGN CHOICE, log 22). -/
inductive DecodeError where
  /-- the opcode is not one of the ten (R82) -/
  | unknownOpcode
  /-- opcode 0x33 with a (funct7, funct3) pair outside R71 -/
  | unknownArith
  /-- opcode 0x13, a shift, with inst[31:25] outside R72 -/
  | badShiftImmediate
  /-- opcode 0x03 with funct3 outside R73 -/
  | unknownLoad
  /-- opcode 0x23 with funct3 outside R74 -/
  | unknownStore
  /-- opcode 0x63 with funct3 outside R75 -/
  | unknownBranch
  /-- opcode 0x67 with funct3 other than 000 (R77) -/
  | badJalr
  /-- opcode 0x73 and neither ECALL's nor EBREAK's word (R81) -/
  | unknownSystem
  /-- fewer than the four bytes of an instruction (R60) -/
  | truncated
  deriving DecidableEq, Repr

/-- Opcode 0x33 by (funct7, funct3) (R71; the values are the spec's general knowledge, D27: UNVERIFIED, unsafe, log 10). -/
def decodeArith (f7 : BitVec 7) (f3 : BitVec 3) (rd rs1 rs2 : RegIdx) : Except DecodeError Instr :=
  if f7 = 0x00#7 then
    if f3 = 0#3 then .ok (.add rd rs1 rs2)
    else if f3 = 1#3 then .ok (.sll rd rs1 rs2)
    else if f3 = 2#3 then .ok (.slt rd rs1 rs2)
    else if f3 = 3#3 then .ok (.sltu rd rs1 rs2)
    else if f3 = 4#3 then .ok (.xor rd rs1 rs2)
    else if f3 = 5#3 then .ok (.srl rd rs1 rs2)
    else if f3 = 6#3 then .ok (.or rd rs1 rs2)
    else .ok (.and rd rs1 rs2)
  else if f7 = 0x01#7 then
    if f3 = 0#3 then .ok (.mul rd rs1 rs2)
    else if f3 = 1#3 then .ok (.mulh rd rs1 rs2)
    else if f3 = 2#3 then .ok (.mulhsu rd rs1 rs2)
    else if f3 = 3#3 then .ok (.mulhu rd rs1 rs2)
    else if f3 = 4#3 then .ok (.div rd rs1 rs2)
    else if f3 = 5#3 then .ok (.divu rd rs1 rs2)
    else if f3 = 6#3 then .ok (.rem rd rs1 rs2)
    else .ok (.remu rd rs1 rs2)
  else if f7 = 0x20#7 then
    if f3 = 0#3 then .ok (.sub rd rs1 rs2)
    else if f3 = 5#3 then .ok (.sra rd rs1 rs2)
    else .error .unknownArith
  else .error .unknownArith

/-- Opcode 0x13 by funct3, and for the shifts by the whole of inst[31:25] (R72, strict by D8: log 14). -/
def decodeImm (f7 : BitVec 7) (f3 : BitVec 3) (rd rs1 : RegIdx) (imm : Word) (shamt : Shamt) :
    Except DecodeError Instr :=
  if f3 = 0#3 then .ok (.addi rd rs1 imm)
  else if f3 = 1#3 then
    if f7 = 0x00#7 then .ok (.slli rd rs1 shamt) else .error .badShiftImmediate
  else if f3 = 2#3 then .ok (.slti rd rs1 imm)
  else if f3 = 3#3 then .ok (.sltiu rd rs1 imm)
  else if f3 = 4#3 then .ok (.xori rd rs1 imm)
  else if f3 = 5#3 then
    if f7 = 0x00#7 then .ok (.srli rd rs1 shamt)
    else if f7 = 0x20#7 then .ok (.srai rd rs1 shamt)
    else .error .badShiftImmediate
  else if f3 = 6#3 then .ok (.ori rd rs1 imm)
  else .ok (.andi rd rs1 imm)

/-- Opcode 0x03 by funct3 (R73). -/
def decodeLoad (f3 : BitVec 3) (rd rs1 : RegIdx) (imm : Word) : Except DecodeError Instr :=
  if f3 = 0#3 then .ok (.lb rd rs1 imm)
  else if f3 = 1#3 then .ok (.lh rd rs1 imm)
  else if f3 = 2#3 then .ok (.lw rd rs1 imm)
  else if f3 = 4#3 then .ok (.lbu rd rs1 imm)
  else if f3 = 5#3 then .ok (.lhu rd rs1 imm)
  else .error .unknownLoad

/-- Opcode 0x23 by funct3 (R74). -/
def decodeStore (f3 : BitVec 3) (rs2 rs1 : RegIdx) (imm : Word) : Except DecodeError Instr :=
  if f3 = 0#3 then .ok (.sb rs2 rs1 imm)
  else if f3 = 1#3 then .ok (.sh rs2 rs1 imm)
  else if f3 = 2#3 then .ok (.sw rs2 rs1 imm)
  else .error .unknownStore

/-- Opcode 0x63 by funct3 (R75). -/
def decodeBranch (f3 : BitVec 3) (rs1 rs2 : RegIdx) (imm : Word) : Except DecodeError Instr :=
  if f3 = 0#3 then .ok (.beq rs1 rs2 imm)
  else if f3 = 1#3 then .ok (.bne rs1 rs2 imm)
  else if f3 = 4#3 then .ok (.blt rs1 rs2 imm)
  else if f3 = 5#3 then .ok (.bge rs1 rs2 imm)
  else if f3 = 6#3 then .ok (.bltu rs1 rs2 imm)
  else if f3 = 7#3 then .ok (.bgeu rs1 rs2 imm)
  else .error .unknownBranch

/-- The decode function, total on every 32-bit word (R79). JALR and SYSTEM are strict by D9 and D10, and no other opcode
decodes, FENCE's included, by D11 (log 14). -/
def decode (w : Word) : Except DecodeError Instr :=
  if opcodeOf w = 0x33#7 then decodeArith (funct7Of w) (funct3Of w) (rdOf w) (rs1Of w) (rs2Of w)
  else if opcodeOf w = 0x13#7 then
    decodeImm (funct7Of w) (funct3Of w) (rdOf w) (rs1Of w) (immI w) (shamtOf w)
  else if opcodeOf w = 0x03#7 then decodeLoad (funct3Of w) (rdOf w) (rs1Of w) (immI w)
  else if opcodeOf w = 0x23#7 then decodeStore (funct3Of w) (rs2Of w) (rs1Of w) (immS w)
  else if opcodeOf w = 0x63#7 then decodeBranch (funct3Of w) (rs1Of w) (rs2Of w) (immB w)
  else if opcodeOf w = 0x37#7 then .ok (.lui (rdOf w) (immU w))
  else if opcodeOf w = 0x17#7 then .ok (.auipc (rdOf w) (immU w))
  else if opcodeOf w = 0x6F#7 then .ok (.jal (rdOf w) (immJ w))
  else if opcodeOf w = 0x67#7 then
    if funct3Of w = 0#3 then .ok (.jalr (rdOf w) (rs1Of w) (immI w)) else .error .badJalr
  else if opcodeOf w = 0x73#7 then
    if w = 0x00000073#32 then .ok .ecall
    else if w = 0x00100073#32 then .ok .ebreak
    else .error .unknownSystem
  else .error .unknownOpcode

/-! ### Byte order (R42, R43, R46) -/

/-- The little-endian sum of a byte string: byte k counts 256^k (R42). -/
def leNat : List Byte → Nat
  | [] => 0
  | b :: bs => b.toNat + 256 * leNat bs

/-- The 32-bit value of a little-endian byte string, zero above it (R42). -/
def leWord (bs : List Byte) : Word := BitVec.ofNat 32 (leNat bs)

/-- The low `n` bytes of a value, least significant first: byte k is v[8k+7:8k] (R43). -/
def leBytes (n : Nat) (v : Word) : List Byte := (List.range n).map fun k => v.extractLsb' (8 * k) 8

/-- Decoding the bytes at an address: one little-endian word, and what is left (R45, R60). -/
def decodeBytes : List Byte → Except DecodeError (Instr × List Byte)
  | b0 :: b1 :: b2 :: b3 :: rest =>
    match decode (leWord [b0, b1, b2, b3]) with
    | .ok i => .ok (i, rest)
    | .error e => .error e
  | _ => .error .truncated

/-- The instruction whose bits are `w` as spec/opcode_table.json numbers them, read by `decodeBytes`; bits from
`nbits` up are zero. -/
def decodeTableWord (nbits w : Nat) : Option Instr :=
  match decodeBytes (leBytes 4 (BitVec.ofNat 32 (w % 2 ^ nbits))) with
  | .ok (i, _) => some i
  | .error _ => none

/-! ### Encoding (R62) -/

/-- R-type, and the I-type shift-immediate with `shamt` in rs2's place. -/
def encodeR (f7 : BitVec 7) (rs2 rs1 : RegIdx) (f3 : BitVec 3) (rd : RegIdx) (op : BitVec 7) : Word :=
  (f7 ++ rs2 ++ rs1 ++ f3 ++ rd ++ op : BitVec 32)

/-- I-type: the low twelve bits of the immediate in inst[31:20]. -/
def encodeI (imm : Word) (rs1 : RegIdx) (f3 : BitVec 3) (rd : RegIdx) (op : BitVec 7) : Word :=
  (imm.extractLsb' 0 12 ++ rs1 ++ f3 ++ rd ++ op : BitVec 32)

/-- S-type: imm[11:5] in inst[31:25], imm[4:0] in inst[11:7]. -/
def encodeS (imm : Word) (rs2 rs1 : RegIdx) (f3 : BitVec 3) (op : BitVec 7) : Word :=
  (imm.extractLsb' 5 7 ++ rs2 ++ rs1 ++ f3 ++ imm.extractLsb' 0 5 ++ op : BitVec 32)

/-- B-type: imm[12], imm[10:5] above rs2; imm[4:1], imm[11] in rd's place. -/
def encodeB (imm : Word) (rs2 rs1 : RegIdx) (f3 : BitVec 3) (op : BitVec 7) : Word :=
  (imm.extractLsb' 12 1 ++ imm.extractLsb' 5 6 ++ rs2 ++ rs1 ++ f3 ++ imm.extractLsb' 1 4
    ++ imm.extractLsb' 11 1 ++ op : BitVec 32)

/-- U-type: imm[31:12] in inst[31:12]. -/
def encodeU (imm : Word) (rd : RegIdx) (op : BitVec 7) : Word :=
  (imm.extractLsb' 12 20 ++ rd ++ op : BitVec 32)

/-- J-type: imm[20], imm[10:1], imm[11], imm[19:12]. -/
def encodeJ (imm : Word) (rd : RegIdx) (op : BitVec 7) : Word :=
  (imm.extractLsb' 20 1 ++ imm.extractLsb' 1 10 ++ imm.extractLsb' 11 1 ++ imm.extractLsb' 12 8
    ++ rd ++ op : BitVec 32)

/-- The word of an instruction (of a well-formed one: another has no encoding, and its immediate is cut). -/
def encode : Instr → Word
  | .add rd rs1 rs2 => encodeR 0x00#7 rs2 rs1 0#3 rd 0x33#7
  | .sub rd rs1 rs2 => encodeR 0x20#7 rs2 rs1 0#3 rd 0x33#7
  | .sll rd rs1 rs2 => encodeR 0x00#7 rs2 rs1 1#3 rd 0x33#7
  | .slt rd rs1 rs2 => encodeR 0x00#7 rs2 rs1 2#3 rd 0x33#7
  | .sltu rd rs1 rs2 => encodeR 0x00#7 rs2 rs1 3#3 rd 0x33#7
  | .xor rd rs1 rs2 => encodeR 0x00#7 rs2 rs1 4#3 rd 0x33#7
  | .srl rd rs1 rs2 => encodeR 0x00#7 rs2 rs1 5#3 rd 0x33#7
  | .sra rd rs1 rs2 => encodeR 0x20#7 rs2 rs1 5#3 rd 0x33#7
  | .or rd rs1 rs2 => encodeR 0x00#7 rs2 rs1 6#3 rd 0x33#7
  | .and rd rs1 rs2 => encodeR 0x00#7 rs2 rs1 7#3 rd 0x33#7
  | .mul rd rs1 rs2 => encodeR 0x01#7 rs2 rs1 0#3 rd 0x33#7
  | .mulh rd rs1 rs2 => encodeR 0x01#7 rs2 rs1 1#3 rd 0x33#7
  | .mulhsu rd rs1 rs2 => encodeR 0x01#7 rs2 rs1 2#3 rd 0x33#7
  | .mulhu rd rs1 rs2 => encodeR 0x01#7 rs2 rs1 3#3 rd 0x33#7
  | .div rd rs1 rs2 => encodeR 0x01#7 rs2 rs1 4#3 rd 0x33#7
  | .divu rd rs1 rs2 => encodeR 0x01#7 rs2 rs1 5#3 rd 0x33#7
  | .rem rd rs1 rs2 => encodeR 0x01#7 rs2 rs1 6#3 rd 0x33#7
  | .remu rd rs1 rs2 => encodeR 0x01#7 rs2 rs1 7#3 rd 0x33#7
  | .addi rd rs1 imm => encodeI imm rs1 0#3 rd 0x13#7
  | .slti rd rs1 imm => encodeI imm rs1 2#3 rd 0x13#7
  | .sltiu rd rs1 imm => encodeI imm rs1 3#3 rd 0x13#7
  | .xori rd rs1 imm => encodeI imm rs1 4#3 rd 0x13#7
  | .ori rd rs1 imm => encodeI imm rs1 6#3 rd 0x13#7
  | .andi rd rs1 imm => encodeI imm rs1 7#3 rd 0x13#7
  | .slli rd rs1 shamt => encodeR 0x00#7 shamt rs1 1#3 rd 0x13#7
  | .srli rd rs1 shamt => encodeR 0x00#7 shamt rs1 5#3 rd 0x13#7
  | .srai rd rs1 shamt => encodeR 0x20#7 shamt rs1 5#3 rd 0x13#7
  | .lb rd rs1 imm => encodeI imm rs1 0#3 rd 0x03#7
  | .lh rd rs1 imm => encodeI imm rs1 1#3 rd 0x03#7
  | .lw rd rs1 imm => encodeI imm rs1 2#3 rd 0x03#7
  | .lbu rd rs1 imm => encodeI imm rs1 4#3 rd 0x03#7
  | .lhu rd rs1 imm => encodeI imm rs1 5#3 rd 0x03#7
  | .sb rs2 rs1 imm => encodeS imm rs2 rs1 0#3 0x23#7
  | .sh rs2 rs1 imm => encodeS imm rs2 rs1 1#3 0x23#7
  | .sw rs2 rs1 imm => encodeS imm rs2 rs1 2#3 0x23#7
  | .beq rs1 rs2 imm => encodeB imm rs2 rs1 0#3 0x63#7
  | .bne rs1 rs2 imm => encodeB imm rs2 rs1 1#3 0x63#7
  | .blt rs1 rs2 imm => encodeB imm rs2 rs1 4#3 0x63#7
  | .bge rs1 rs2 imm => encodeB imm rs2 rs1 5#3 0x63#7
  | .bltu rs1 rs2 imm => encodeB imm rs2 rs1 6#3 0x63#7
  | .bgeu rs1 rs2 imm => encodeB imm rs2 rs1 7#3 0x63#7
  | .lui rd imm => encodeU imm rd 0x37#7
  | .auipc rd imm => encodeU imm rd 0x17#7
  | .jal rd imm => encodeJ imm rd 0x6F#7
  | .jalr rd rs1 imm => encodeI imm rs1 0#3 rd 0x67#7
  | .ecall => 0x00000073#32
  | .ebreak => 0x00100073#32

/-! ### The opcode table (spec/opcode_table.json) -/

/-- A row of the opcode table: the bits that are fixed, and what they are. -/
structure OpcodeRow where
  /-- which bits the row fixes -/
  mask : Word
  /-- the fixed bits' values -/
  pattern : Word
  deriving DecidableEq, Repr

/-- A word belongs to a row when the row's fixed bits are in it. -/
def OpcodeRow.covers (r : OpcodeRow) (w : Word) : Bool := w &&& r.mask == r.pattern

/-- The row of an instruction. -/
def Instr.row : Instr → OpcodeRow
  | .add _ _ _ => ⟨0xFE00707F#32, 0x00000033#32⟩
  | .sub _ _ _ => ⟨0xFE00707F#32, 0x40000033#32⟩
  | .sll _ _ _ => ⟨0xFE00707F#32, 0x00001033#32⟩
  | .slt _ _ _ => ⟨0xFE00707F#32, 0x00002033#32⟩
  | .sltu _ _ _ => ⟨0xFE00707F#32, 0x00003033#32⟩
  | .xor _ _ _ => ⟨0xFE00707F#32, 0x00004033#32⟩
  | .srl _ _ _ => ⟨0xFE00707F#32, 0x00005033#32⟩
  | .sra _ _ _ => ⟨0xFE00707F#32, 0x40005033#32⟩
  | .or _ _ _ => ⟨0xFE00707F#32, 0x00006033#32⟩
  | .and _ _ _ => ⟨0xFE00707F#32, 0x00007033#32⟩
  | .mul _ _ _ => ⟨0xFE00707F#32, 0x02000033#32⟩
  | .mulh _ _ _ => ⟨0xFE00707F#32, 0x02001033#32⟩
  | .mulhsu _ _ _ => ⟨0xFE00707F#32, 0x02002033#32⟩
  | .mulhu _ _ _ => ⟨0xFE00707F#32, 0x02003033#32⟩
  | .div _ _ _ => ⟨0xFE00707F#32, 0x02004033#32⟩
  | .divu _ _ _ => ⟨0xFE00707F#32, 0x02005033#32⟩
  | .rem _ _ _ => ⟨0xFE00707F#32, 0x02006033#32⟩
  | .remu _ _ _ => ⟨0xFE00707F#32, 0x02007033#32⟩
  | .addi _ _ _ => ⟨0x0000707F#32, 0x00000013#32⟩
  | .slti _ _ _ => ⟨0x0000707F#32, 0x00002013#32⟩
  | .sltiu _ _ _ => ⟨0x0000707F#32, 0x00003013#32⟩
  | .xori _ _ _ => ⟨0x0000707F#32, 0x00004013#32⟩
  | .ori _ _ _ => ⟨0x0000707F#32, 0x00006013#32⟩
  | .andi _ _ _ => ⟨0x0000707F#32, 0x00007013#32⟩
  | .slli _ _ _ => ⟨0xFE00707F#32, 0x00001013#32⟩
  | .srli _ _ _ => ⟨0xFE00707F#32, 0x00005013#32⟩
  | .srai _ _ _ => ⟨0xFE00707F#32, 0x40005013#32⟩
  | .lb _ _ _ => ⟨0x0000707F#32, 0x00000003#32⟩
  | .lh _ _ _ => ⟨0x0000707F#32, 0x00001003#32⟩
  | .lw _ _ _ => ⟨0x0000707F#32, 0x00002003#32⟩
  | .lbu _ _ _ => ⟨0x0000707F#32, 0x00004003#32⟩
  | .lhu _ _ _ => ⟨0x0000707F#32, 0x00005003#32⟩
  | .sb _ _ _ => ⟨0x0000707F#32, 0x00000023#32⟩
  | .sh _ _ _ => ⟨0x0000707F#32, 0x00001023#32⟩
  | .sw _ _ _ => ⟨0x0000707F#32, 0x00002023#32⟩
  | .beq _ _ _ => ⟨0x0000707F#32, 0x00000063#32⟩
  | .bne _ _ _ => ⟨0x0000707F#32, 0x00001063#32⟩
  | .blt _ _ _ => ⟨0x0000707F#32, 0x00004063#32⟩
  | .bge _ _ _ => ⟨0x0000707F#32, 0x00005063#32⟩
  | .bltu _ _ _ => ⟨0x0000707F#32, 0x00006063#32⟩
  | .bgeu _ _ _ => ⟨0x0000707F#32, 0x00007063#32⟩
  | .lui _ _ => ⟨0x0000007F#32, 0x00000037#32⟩
  | .auipc _ _ => ⟨0x0000007F#32, 0x00000017#32⟩
  | .jal _ _ => ⟨0x0000007F#32, 0x0000006F#32⟩
  | .jalr _ _ _ => ⟨0x0000707F#32, 0x00000067#32⟩
  | .ecall => ⟨0xFFFFFFFF#32, 0x00000073#32⟩
  | .ebreak => ⟨0xFFFFFFFF#32, 0x00100073#32⟩

/-- The rows of R101 to R110. -/
def opcodeRowsArith : List OpcodeRow :=
  [⟨0xFE00707F#32, 0x00000033#32⟩,
   ⟨0xFE00707F#32, 0x40000033#32⟩,
   ⟨0xFE00707F#32, 0x00001033#32⟩,
   ⟨0xFE00707F#32, 0x00002033#32⟩,
   ⟨0xFE00707F#32, 0x00003033#32⟩,
   ⟨0xFE00707F#32, 0x00004033#32⟩,
   ⟨0xFE00707F#32, 0x00005033#32⟩,
   ⟨0xFE00707F#32, 0x40005033#32⟩,
   ⟨0xFE00707F#32, 0x00006033#32⟩,
   ⟨0xFE00707F#32, 0x00007033#32⟩]

/-- The rows of R121 to R128. -/
def opcodeRowsMulDiv : List OpcodeRow :=
  [⟨0xFE00707F#32, 0x02000033#32⟩,
   ⟨0xFE00707F#32, 0x02001033#32⟩,
   ⟨0xFE00707F#32, 0x02002033#32⟩,
   ⟨0xFE00707F#32, 0x02003033#32⟩,
   ⟨0xFE00707F#32, 0x02004033#32⟩,
   ⟨0xFE00707F#32, 0x02005033#32⟩,
   ⟨0xFE00707F#32, 0x02006033#32⟩,
   ⟨0xFE00707F#32, 0x02007033#32⟩]

/-- The rows of R141 to R149. -/
def opcodeRowsImm : List OpcodeRow :=
  [⟨0x0000707F#32, 0x00000013#32⟩,
   ⟨0x0000707F#32, 0x00002013#32⟩,
   ⟨0x0000707F#32, 0x00003013#32⟩,
   ⟨0x0000707F#32, 0x00004013#32⟩,
   ⟨0x0000707F#32, 0x00006013#32⟩,
   ⟨0x0000707F#32, 0x00007013#32⟩,
   ⟨0xFE00707F#32, 0x00001013#32⟩,
   ⟨0xFE00707F#32, 0x00005013#32⟩,
   ⟨0xFE00707F#32, 0x40005013#32⟩]

/-- The rows of R161 to R173. -/
def opcodeRowsMem : List OpcodeRow :=
  [⟨0x0000707F#32, 0x00000003#32⟩,
   ⟨0x0000707F#32, 0x00001003#32⟩,
   ⟨0x0000707F#32, 0x00002003#32⟩,
   ⟨0x0000707F#32, 0x00004003#32⟩,
   ⟨0x0000707F#32, 0x00005003#32⟩,
   ⟨0x0000707F#32, 0x00000023#32⟩,
   ⟨0x0000707F#32, 0x00001023#32⟩,
   ⟨0x0000707F#32, 0x00002023#32⟩]

/-- The rows of R181 to R201. -/
def opcodeRowsControl : List OpcodeRow :=
  [⟨0x0000707F#32, 0x00000063#32⟩,
   ⟨0x0000707F#32, 0x00001063#32⟩,
   ⟨0x0000707F#32, 0x00004063#32⟩,
   ⟨0x0000707F#32, 0x00005063#32⟩,
   ⟨0x0000707F#32, 0x00006063#32⟩,
   ⟨0x0000707F#32, 0x00007063#32⟩,
   ⟨0x0000007F#32, 0x00000037#32⟩,
   ⟨0x0000007F#32, 0x00000017#32⟩,
   ⟨0x0000007F#32, 0x0000006F#32⟩,
   ⟨0x0000707F#32, 0x00000067#32⟩,
   ⟨0xFFFFFFFF#32, 0x00000073#32⟩,
   ⟨0xFFFFFFFF#32, 0x00100073#32⟩]

/-- All 47 rows, in the table's order. -/
def opcodeRows : List OpcodeRow :=
  opcodeRowsArith ++ opcodeRowsMulDiv ++ opcodeRowsImm ++ opcodeRowsMem ++ opcodeRowsControl

/-! ### Classes (R70, R80) -/

/-- The opcode class of an instruction (R70, R80); JALR is in class I (R80), here with the I-arith instructions, whose format it shares. -/
def Instr.cls : Instr → InstrClass
  | .add _ _ _ => .r
  | .sub _ _ _ => .r
  | .sll _ _ _ => .r
  | .slt _ _ _ => .r
  | .sltu _ _ _ => .r
  | .xor _ _ _ => .r
  | .srl _ _ _ => .r
  | .sra _ _ _ => .r
  | .or _ _ _ => .r
  | .and _ _ _ => .r
  | .mul _ _ _ => .r
  | .mulh _ _ _ => .r
  | .mulhsu _ _ _ => .r
  | .mulhu _ _ _ => .r
  | .div _ _ _ => .r
  | .divu _ _ _ => .r
  | .rem _ _ _ => .r
  | .remu _ _ _ => .r
  | .addi _ _ _ => .iArith
  | .slti _ _ _ => .iArith
  | .sltiu _ _ _ => .iArith
  | .xori _ _ _ => .iArith
  | .ori _ _ _ => .iArith
  | .andi _ _ _ => .iArith
  | .slli _ _ _ => .iArith
  | .srli _ _ _ => .iArith
  | .srai _ _ _ => .iArith
  | .lb _ _ _ => .iLoad
  | .lh _ _ _ => .iLoad
  | .lw _ _ _ => .iLoad
  | .lbu _ _ _ => .iLoad
  | .lhu _ _ _ => .iLoad
  | .sb _ _ _ => .s
  | .sh _ _ _ => .s
  | .sw _ _ _ => .s
  | .beq _ _ _ => .b
  | .bne _ _ _ => .b
  | .blt _ _ _ => .b
  | .bge _ _ _ => .b
  | .bltu _ _ _ => .b
  | .bgeu _ _ _ => .b
  | .lui _ _ => .u
  | .auipc _ _ => .u
  | .jal _ _ => .j
  | .jalr _ _ _ => .iArith
  | .ecall => .system
  | .ebreak => .system

/-! ### The decoded record (R80) -/

/-- The mnemonics of the 47 instructions (R2). -/
inductive Mnemonic where
  | add | sub | sll | slt | sltu | xor | srl | sra | or | and
  | mul | mulh | mulhsu | mulhu | div | divu | rem | remu
  | addi | slti | sltiu | xori | ori | andi | slli | srli | srai
  | lb | lh | lw | lbu | lhu | sb | sh | sw
  | beq | bne | blt | bge | bltu | bgeu
  | lui | auipc | jal | jalr | ecall | ebreak
  deriving DecidableEq, Repr

/-- The mnemonic of an instruction (R80). -/
def Instr.mnemonic : Instr → Mnemonic
  | .add _ _ _ => .add
  | .sub _ _ _ => .sub
  | .sll _ _ _ => .sll
  | .slt _ _ _ => .slt
  | .sltu _ _ _ => .sltu
  | .xor _ _ _ => .xor
  | .srl _ _ _ => .srl
  | .sra _ _ _ => .sra
  | .or _ _ _ => .or
  | .and _ _ _ => .and
  | .mul _ _ _ => .mul
  | .mulh _ _ _ => .mulh
  | .mulhsu _ _ _ => .mulhsu
  | .mulhu _ _ _ => .mulhu
  | .div _ _ _ => .div
  | .divu _ _ _ => .divu
  | .rem _ _ _ => .rem
  | .remu _ _ _ => .remu
  | .addi _ _ _ => .addi
  | .slti _ _ _ => .slti
  | .sltiu _ _ _ => .sltiu
  | .xori _ _ _ => .xori
  | .ori _ _ _ => .ori
  | .andi _ _ _ => .andi
  | .slli _ _ _ => .slli
  | .srli _ _ _ => .srli
  | .srai _ _ _ => .srai
  | .lb _ _ _ => .lb
  | .lh _ _ _ => .lh
  | .lw _ _ _ => .lw
  | .lbu _ _ _ => .lbu
  | .lhu _ _ _ => .lhu
  | .sb _ _ _ => .sb
  | .sh _ _ _ => .sh
  | .sw _ _ _ => .sw
  | .beq _ _ _ => .beq
  | .bne _ _ _ => .bne
  | .blt _ _ _ => .blt
  | .bge _ _ _ => .bge
  | .bltu _ _ _ => .bltu
  | .bgeu _ _ _ => .bgeu
  | .lui _ _ => .lui
  | .auipc _ _ => .auipc
  | .jal _ _ => .jal
  | .jalr _ _ _ => .jalr
  | .ecall => .ecall
  | .ebreak => .ebreak

/-- The decoded instruction as the record of R80: every field is there whatever the format, and a field the format does not
have is unused. -/
structure DecodedInstr where
  /-- the opcode class -/
  cls : InstrClass
  mnemonic : Mnemonic
  funct3 : BitVec 3
  funct7 : BitVec 7
  rd : RegIdx
  rs1 : RegIdx
  rs2 : RegIdx
  /-- the 32-bit immediate of R63 to R67; for a shift-immediate too, whose shamt is its low five bits (R68) -/
  imm : Word
  deriving DecidableEq, Repr

/-- The immediate the decode function gives a word of a class (R63 to R67, R79): 0 and unused for R. -/
def immOfClass (w : Word) : InstrClass → Word
  | .r => 0#32
  | .iArith => immI w
  | .iLoad => immI w
  | .s => immS w
  | .b => immB w
  | .u => immU w
  | .j => immJ w
  | .system => immI w

/-- The decode function, answering the record (R79, R80): the fields are the word's at the places of R61, used or not. -/
def decodeRecord (w : Word) : Except DecodeError DecodedInstr :=
  match decode w with
  | .ok i =>
    .ok { cls := i.cls, mnemonic := i.mnemonic, funct3 := funct3Of w, funct7 := funct7Of w, rd := rdOf w, rs1 := rs1Of w,
          rs2 := rs2Of w, imm := immOfClass w i.cls }
  | .error e => .error e

/-- The instruction a record stands for: its mnemonic with the fields its format uses (R62); what `exec` runs. -/
def DecodedInstr.instr (d : DecodedInstr) : Instr :=
  match d.mnemonic with
  | .add => .add d.rd d.rs1 d.rs2
  | .sub => .sub d.rd d.rs1 d.rs2
  | .sll => .sll d.rd d.rs1 d.rs2
  | .slt => .slt d.rd d.rs1 d.rs2
  | .sltu => .sltu d.rd d.rs1 d.rs2
  | .xor => .xor d.rd d.rs1 d.rs2
  | .srl => .srl d.rd d.rs1 d.rs2
  | .sra => .sra d.rd d.rs1 d.rs2
  | .or => .or d.rd d.rs1 d.rs2
  | .and => .and d.rd d.rs1 d.rs2
  | .mul => .mul d.rd d.rs1 d.rs2
  | .mulh => .mulh d.rd d.rs1 d.rs2
  | .mulhsu => .mulhsu d.rd d.rs1 d.rs2
  | .mulhu => .mulhu d.rd d.rs1 d.rs2
  | .div => .div d.rd d.rs1 d.rs2
  | .divu => .divu d.rd d.rs1 d.rs2
  | .rem => .rem d.rd d.rs1 d.rs2
  | .remu => .remu d.rd d.rs1 d.rs2
  | .addi => .addi d.rd d.rs1 d.imm
  | .slti => .slti d.rd d.rs1 d.imm
  | .sltiu => .sltiu d.rd d.rs1 d.imm
  | .xori => .xori d.rd d.rs1 d.imm
  | .ori => .ori d.rd d.rs1 d.imm
  | .andi => .andi d.rd d.rs1 d.imm
  | .slli => .slli d.rd d.rs1 (d.imm.extractLsb' 0 5)
  | .srli => .srli d.rd d.rs1 (d.imm.extractLsb' 0 5)
  | .srai => .srai d.rd d.rs1 (d.imm.extractLsb' 0 5)
  | .lb => .lb d.rd d.rs1 d.imm
  | .lh => .lh d.rd d.rs1 d.imm
  | .lw => .lw d.rd d.rs1 d.imm
  | .lbu => .lbu d.rd d.rs1 d.imm
  | .lhu => .lhu d.rd d.rs1 d.imm
  | .sb => .sb d.rs2 d.rs1 d.imm
  | .sh => .sh d.rs2 d.rs1 d.imm
  | .sw => .sw d.rs2 d.rs1 d.imm
  | .beq => .beq d.rs1 d.rs2 d.imm
  | .bne => .bne d.rs1 d.rs2 d.imm
  | .blt => .blt d.rs1 d.rs2 d.imm
  | .bge => .bge d.rs1 d.rs2 d.imm
  | .bltu => .bltu d.rs1 d.rs2 d.imm
  | .bgeu => .bgeu d.rs1 d.rs2 d.imm
  | .lui => .lui d.rd d.imm
  | .auipc => .auipc d.rd d.imm
  | .jal => .jal d.rd d.imm
  | .jalr => .jalr d.rd d.rs1 d.imm
  | .ecall => .ecall
  | .ebreak => .ebreak

end Sys2Proof
end

