-- ==== Sys2Proof/Config.lean ====
section
/-! DEFINITION. What is fixed for a launch (R7, R34), what crosses the host-call interface (R6, R238, R246), and the
one free value of the spec: the host's response to a call (R238). -/

namespace Sys2Proof

/-- The parameters of R7 that a step reads: fixed for a launch and written by no instruction (R34). -/
structure Params where
  /-- bytes of backing memory: the addresses are `[0, memSize)` (R7, R27) -/
  memSize : Nat
  /-- where the slice DRAW publishes begins (R7, R242) -/
  vramBase : Word
  /-- how long that slice is (R7, R242) -/
  vramLen : Word
  /-- where the host's descriptors start (R7, R244, R248); the host's setting, read only by its duty -/
  descriptorStart : Word
  deriving DecidableEq, Repr

/-- The defaults the spec gives (R7). -/
def Params.default : Params := { memSize := 3872, vramBase := 3072, vramLen := 800, descriptorStart := 3 }

/-- The range of `mem_size` (R7). -/
def Params.wf (p : Params) : Bool := decide (4 ≤ p.memSize ∧ p.memSize ≤ 2 ^ 32)

/-- A request to the environment: what the core hands over, copied out before the call (R243, R246, R249). -/
inductive HostRequest where
  /-- RESET, a7 = 0x00 -/
  | reset
  /-- OPEN, a7 = 0x0A: the path bytes of R240 and a2 -/
  | openFile (path : List Byte) (flags : Word)
  /-- CLOSE, a7 = 0x0B -/
  | close (fd : Word)
  /-- SEEK, a7 = 0x0C -/
  | seek (fd offset whence : Word)
  /-- READ, a7 = 0x0D: the buffer pointer stays in the core -/
  | read (fd count : Word)
  /-- WRITE, a7 = 0x0E: a copy of the bytes -/
  | write (fd : Word) (bytes : List Byte)
  /-- SOCKET, a7 = 0x0F: the address bytes of R240 -/
  | socket (address : List Byte)
  deriving DecidableEq, Repr

/-- A response of the environment: a 32-bit status and payload bytes (R238). -/
structure HostReply where
  status : Word
  payload : List Byte
  deriving DecidableEq, Repr, Inhabited

/-- A host call that has been made: what the core handed over and what came back (R238, R249). -/
structure HostCall where
  request : HostRequest
  reply : HostReply
  deriving DecidableEq, Repr

/-- FREE VALUE (DESIGN CHOICE, safe, log 6): what the environment answers to the n-th host call of a launch, given
the request. It has no body: a claim about it holds for every environment (R238, D17). -/
opaque Config.hostReply : Nat → HostRequest → HostReply

end Sys2Proof
end

