-- ==== Sys2Proof/Machine/State.lean ====
section
/-! DEFINITION. The machine's state (spec 10_state), its halts (R220, R221), and the state after reset (R33). -/

namespace Sys2Proof.Machine

/-- The five halt reasons (R220). -/
inductive HaltReason where
  | fetchFault | illegalInstruction | loadFault | storeFault | breakpoint
  deriving DecidableEq, Repr

/-- A halt: its reason and the information recorded beside it (R221). `pc` is the address of the instruction that
halted. `breakpoint` is the spec's Break. -/
inductive Halt where
  /-- raised by the fetch of any step: pc misaligned or out of range (R45) -/
  | fetchFault (pc : Word)
  /-- raised by decode: the word is no instruction (R79) -/
  | illegalInstruction (pc word : Word)
  /-- raised by a load, or by an ECALL range that is read (R160, R239) -/
  | loadFault (pc addr : Word)
  /-- raised by a store, or by ECALL READ's buffer (R170, R239) -/
  | storeFault (pc addr : Word)
  /-- raised by EBREAK (R201) -/
  | breakpoint (pc : Word)
  deriving DecidableEq, Repr

/-- The core status (R26). -/
inductive Status where
  | running
  | halted (h : Halt)
  deriving DecidableEq, Repr

/-- Memory as plain data: the listed (address, byte) pairs; an address not listed reads as `Memory.unlisted`. -/
abbrev Memory := List Host.Cell

/-- The state of the core (R20 to R28) with the launch's parameters (R34, log 3) and the record of the host-call
interface (R6, log 6, log 7, log 9). -/
structure State where
  /-- x0 to x31 (R20); slot 0 is x0's and never written (R22) -/
  regs : Vector Word 32
  /-- the address of the instruction being executed (R24) -/
  pc : Word
  /-- the bytes of `[0, memSize)` (R27) -/
  mem : Memory
  /-- running, or halted with a reason (R26) -/
  status : Status
  /-- one record per PRINT, oldest first (R28) -/
  console : List (List Byte)
  /-- one slice per DRAW, oldest first (R28) -/
  frames : List (List Byte)
  /-- the model's own: the host calls made, each with its answer, oldest first (R6, log 9) -/
  hostCalls : List HostCall
  /-- the model's own: responses the environment has settled for coming calls, oldest first (log 7) -/
  hostReplies : List HostReply
  /-- the model's own: how many host calls have been answered, the counter of the free value (log 6) -/
  hostDraws : Nat
  /-- the launch's parameters, which no instruction writes (R34, log 3) -/
  params : Params
  deriving DecidableEq, Repr

/-- Faults that stop the model without a next state: there are none. Every fault of this hardware halts the core, and
a halt is a state, `Status.halted` (R26, R222, R261; log 4). Safe: a step always answers the state the spec gives. -/
inductive Fault
  deriving DecidableEq, Repr

/-- Refusals: an instruction the model gives no meaning. -/
inductive Refusal where
  /-- raised by an arm of `exec` whose instruction has no meaning yet. Safe: the model stops. No arm does. -/
  | notModelled (mnemonic : String)
  deriving DecidableEq, Repr

/-- The machine right after reset: a launch of the spec's default parameters with no image (R33, R266). pc, x0, status,
console and frames are the spec's; x1 to x31 and the bytes of memory are launch inputs of the spec, taken as 0 here
(DESIGN CHOICE, unsafe: log 1, log 2). -/
def State.reset : State :=
  { regs := Vector.replicate 32 0
    pc := 0
    mem := []
    status := .running
    console := []
    frames := []
    hostCalls := []
    hostReplies := []
    hostDraws := 0
    params := Params.default }

end Sys2Proof.Machine
end

