-- ==== Sys2Proof/Machine/Ops.lean ====
section
/-! DEFINITION. The named operations on memory, registers, pc, logs and status: the primitives of spec 00_scope R11,
20_memory R41 to R44 and 60_exceptions R222. -/

namespace Sys2Proof.Machine

/-! ### Memory as data -/

/-- What an address that memory does not list reads as. The spec makes the bytes outside the image a launch input
(R33, D13); 0 is the model's choice (DESIGN CHOICE, unsafe: log 2). -/
def Memory.unlisted : Byte := 0#8

/-- The byte at an address. -/
def Memory.read : Memory → Nat → Byte
  | [], _ => Memory.unlisted
  | (x, c) :: m, a => if a = x then c else Memory.read m a

/-- Memory with one byte changed, in canonical form: rising addresses, nothing listed that reads as unlisted. -/
def Memory.write : Memory → Nat → Byte → Memory
  | [], a, b => if b = Memory.unlisted then [] else [(a, b)]
  | (x, c) :: m, a, b =>
    if a < x then
      if b = Memory.unlisted then (x, c) :: m else (a, b) :: (x, c) :: m
    else if a = x then
      if b = Memory.unlisted then m else (a, b) :: m
    else (x, c) :: Memory.write m a b

/-- The `n` bytes from an address up. -/
def Memory.readBytes (m : Memory) (a : Nat) : Nat → List Byte
  | 0 => []
  | n + 1 => m.read a :: Memory.readBytes m (a + 1) n

/-- Memory with a byte string written from an address up. -/
def Memory.writeBytes (m : Memory) (a : Nat) : List Byte → Memory
  | [] => m
  | b :: bs => Memory.writeBytes (m.write a b) (a + 1) bs

/-- The canonical form: addresses strictly rising, no entry equal to what an unlisted address reads as. -/
def Memory.wf : Memory → Bool
  | [] => true
  | (a, b) :: m => b != Memory.unlisted && m.all (fun c => decide (a < c.1)) && Memory.wf m

/-- Every listed address is below `n`: only `[0, n)` has bytes (R27). -/
def Memory.within (n : Nat) (m : Memory) : Bool := m.all fun c => decide (c.1 < n)

/-- The bytes from `a` up to, not including, the first 0x00, looking at `fuel` bytes at most (R240). -/
def Memory.scanNul (m : Memory) (a : Nat) : Nat → Option (List Byte)
  | 0 => none
  | fuel + 1 =>
    if m.read a = 0#8 then some []
    else (Memory.scanNul m (a + 1) fuel).map fun bs => m.read a :: bs

/-! ### Registers and pc (R22 to R25) -/

/-- `x[r]`: 0 for x0, else the register's value (R22, R23). -/
def State.getReg (s : State) (r : RegIdx) : Word := if r = 0#5 then 0#32 else s.regs[r.toNat]

/-- `x[r] <- v`: nothing for x0 (R22, R23). -/
def State.setReg (s : State) (r : RegIdx) (v : Word) : State :=
  if r = 0#5 then s else { s with regs := s.regs.set r.toNat v }

/-- `pc <- v`, with no check (R24). -/
def State.setPc (s : State) (v : Word) : State := { s with pc := v }

/-- `pc <- pc + 4` modulo 2^32 (R25, D5). -/
def State.advance (s : State) : State := s.setPc (s.pc + 4#32)

/-! ### Memory accesses (R41 to R44) -/

/-- `n` bytes at `a` are in bounds: `a + n ≤ mem_size` in ℤ, with no wrap (R41, D6); no bytes are in bounds anywhere (R44). -/
def State.inBounds (s : State) (a n : Nat) : Bool := n == 0 || decide (a + n ≤ s.params.memSize)

/-- The state with another memory. -/
def State.setMem (s : State) (m : Memory) : State := { s with mem := m }

/-- MemRead(a, n): the little-endian value of `n` bytes, or nothing when out of bounds (R42). -/
def State.memRead (s : State) (a : Word) (n : Nat) : Option Word :=
  if s.inBounds a.toNat n then some (leWord (s.mem.readBytes a.toNat n)) else none

/-- MemWrite(a, n, v): the low `n` bytes of `v`, or nothing, with no byte written, when out of bounds (R43). -/
def State.memWrite (s : State) (a : Word) (n : Nat) (v : Word) : Option State :=
  if s.inBounds a.toNat n then some (s.setMem (s.mem.writeBytes a.toNat (leBytes n v))) else none

/-- ReadRange(a, len) (R44). -/
def State.readRange (s : State) (a : Word) (len : Nat) : Option (List Byte) :=
  if s.inBounds a.toNat len then some (s.mem.readBytes a.toNat len) else none

/-- WriteRange(a, bytes) (R44). -/
def State.writeRange (s : State) (a : Word) (bs : List Byte) : Option State :=
  if s.inBounds a.toNat bs.length then some (s.setMem (s.mem.writeBytes a.toNat bs)) else none

/-- The NUL-terminated string at `a`, or nothing when the scan reaches `mem_size` (R240). -/
def State.readString (s : State) (a : Word) : Option (List Byte) :=
  s.mem.scanNul a.toNat (s.params.memSize - a.toNat)

/-! ### Output logs (R28) -/

/-- `console <- console ++ [bytes]`: one record (R241, D22). -/
def State.print (s : State) (bs : List Byte) : State := { s with console := s.console ++ [bs] }

/-- `frames <- frames ++ [frame]` (R242). -/
def State.publish (s : State) (frame : List Byte) : State := { s with frames := s.frames ++ [frame] }

/-! ### Halts: taking an exception (R220 to R225) -/

/-- The halt reason, without its information (R26). -/
def Halt.reason : Halt → HaltReason
  | .fetchFault _ => .fetchFault
  | .illegalInstruction _ _ => .illegalInstruction
  | .loadFault _ _ => .loadFault
  | .storeFault _ _ => .storeFault
  | .breakpoint _ => .breakpoint

/-- The pc recorded with a halt (R221). -/
def Halt.pc : Halt → Word
  | .fetchFault pc => pc
  | .illegalInstruction pc _ => pc
  | .loadFault pc _ => pc
  | .storeFault pc _ => pc
  | .breakpoint pc => pc

/-- The spec's own numbers of the halt reasons, which no program can observe (R220). -/
def HaltReason.code : HaltReason → Nat
  | .fetchFault => 0
  | .illegalInstruction => 1
  | .loadFault => 2
  | .storeFault => 3
  | .breakpoint => 4

/-- `status := Halted(H)` and nothing else: registers, memory, logs and pc stay (R222, R261). Nothing is saved and control
goes nowhere (R224). There is no return from it beside it: no instruction returns from a halt (R225). -/
def State.halt (s : State) (h : Halt) : State := { s with status := .halted h }

/-- `raise H(info)`: the step ends with the halt taken (R11, R222). A halt is a next state (DESIGN CHOICE, safe: log 4). -/
def raise (h : Halt) (s : State) : Host.Outcome State Fault Refusal := .next (s.halt h)

/-! ### Completing an instruction (R261, R263) -/

/-- Writeback of a result, then `pc <- pc + 4`: what an instruction with a destination and no control transfer ends with. -/
def retireReg (rd : RegIdx) (v : Word) (s : State) : Host.Outcome State Fault Refusal :=
  .next (s.setReg rd v).advance

end Sys2Proof.Machine
end

