-- ==== Sys2Proof/Machine/Operands.lean ====
section
/-! DEFINITION. Operand forms: extensions (R10), shift amounts (R68, R100), effective addresses (R160, R170) and control
transfer targets (R25). All sums are modulo 2^32 (D5, log 13). -/

namespace Sys2Proof.Machine

/-- `sext_n(v)`: the low `n` bits, bit n-1 copied above (R10). -/
def sextLow (n : Nat) (v : Word) : Word := (v.setWidth n).signExtend 32

/-- `zext_n(v)`: the low `n` bits, zero above (R10). -/
def zextLow (n : Nat) (v : Word) : Word := (v.setWidth n).setWidth 32

/-- The amount of a register shift: `x[rs2][4:0]` (R100). -/
def shiftAmount (v : Word) : Shamt := v.extractLsb' 0 5

/-- The effective address of a load or store: base plus displacement (R160, R170). -/
def State.effAddr (s : State) (rs1 : RegIdx) (imm : Word) : Word := s.getReg rs1 + imm

/-- The pc-relative target of a branch or JAL, from the instruction's own address (R180, R195). -/
def State.pcTarget (s : State) (imm : Word) : Word := s.pc + imm

/-- JALR's target: the sum with bit 0 cleared (R196). -/
def State.regTarget (s : State) (rs1 : RegIdx) (imm : Word) : Word := (s.getReg rs1 + imm) &&& 0xFFFFFFFE#32

/-- The link value of JAL and JALR: `pc + 4` (R195, R196). -/
def State.linkValue (s : State) : Word := s.pc + 4#32

end Sys2Proof.Machine
end

