-- ==== Sys2Proof/Machine/Branches.lean ====
section
/-! DEFINITION. Conditional branches (spec 45_branches, R180 to R186): no register is written, there is no delay slot. -/

namespace Sys2Proof.Machine

/-- What every branch does (R180): `pc <- pc + immB` if taken, else `pc <- pc + 4`; the target is not checked here (R197). -/
def branchIf (taken : Bool) (imm : Word) (s : State) : Host.Outcome State Fault Refusal :=
  .next (if taken then s.setPc (s.pcTarget imm) else s.advance)

/-- BEQ: taken if equal (R181). -/
def execBeq (rs1 rs2 : RegIdx) (imm : Word) (s : State) : Host.Outcome State Fault Refusal :=
  branchIf (s.getReg rs1 == s.getReg rs2) imm s

/-- BNE: taken if not equal (R182). -/
def execBne (rs1 rs2 : RegIdx) (imm : Word) (s : State) : Host.Outcome State Fault Refusal :=
  branchIf (s.getReg rs1 != s.getReg rs2) imm s

/-- BLT: taken if signed less (R183). -/
def execBlt (rs1 rs2 : RegIdx) (imm : Word) (s : State) : Host.Outcome State Fault Refusal :=
  branchIf (signedLess (s.getReg rs1) (s.getReg rs2)) imm s

/-- BGE: taken if signed greater or equal (R184). -/
def execBge (rs1 rs2 : RegIdx) (imm : Word) (s : State) : Host.Outcome State Fault Refusal :=
  branchIf (!signedLess (s.getReg rs1) (s.getReg rs2)) imm s

/-- BLTU: taken if unsigned less (R185). -/
def execBltu (rs1 rs2 : RegIdx) (imm : Word) (s : State) : Host.Outcome State Fault Refusal :=
  branchIf (unsignedLess (s.getReg rs1) (s.getReg rs2)) imm s

/-- BGEU: taken if unsigned greater or equal (R186). -/
def execBgeu (rs1 rs2 : RegIdx) (imm : Word) (s : State) : Host.Outcome State Fault Refusal :=
  branchIf (!unsignedLess (s.getReg rs1) (s.getReg rs2)) imm s

end Sys2Proof.Machine
end

