-- ==== Sys2Proof/Machine/Alu.lean ====
section
/-! DEFINITION. The arithmetic a result is computed with where it is more than one operator: shifts by a 5-bit amount
(R103, R107, R108), products in ℤ cut to 32 bits (R121 to R124), division and remainder (R125 to R130). -/

namespace Sys2Proof.Machine

/-- `a << n`: zero fill, low 32 bits kept (R10, R103). -/
def shiftLeft (a : Word) (n : Shamt) : Word := a <<< n.toNat

/-- `a >>u n`: zero fill (R10, R107). -/
def shiftRightLogical (a : Word) (n : Shamt) : Word := a >>> n.toNat

/-- `a >>s n`: copies of bit 31 fill (R10, R108). -/
def shiftRightArith (a : Word) (n : Shamt) : Word := a.sshiftRight n.toNat

/-- `p[31:0]` of an exact product (R121). -/
def productLow (p : Int) : Word := BitVec.ofInt 32 p

/-- `p[63:32]` of an exact product, as a 64-bit two's-complement value (R122 to R124). -/
def productHigh (p : Int) : Word := (BitVec.ofInt 64 p).extractLsb' 32 32

/-- DIV's result (R125): the zero divisor first, then the overflow, else the quotient rounded toward zero, which is the
spec's general knowledge (R130, D26: UNVERIFIED, unsafe, log 11). -/
def divSigned (a b : Word) : Word :=
  if b = 0#32 then 0xFFFFFFFF#32
  else if a = 0x80000000#32 ∧ b = 0xFFFFFFFF#32 then 0x80000000#32
  else BitVec.ofInt 32 (a.toInt.tdiv b.toInt)

/-- DIVU's result (R126). -/
def divUnsigned (a b : Word) : Word :=
  if b = 0#32 then 0xFFFFFFFF#32 else BitVec.ofNat 32 (a.toNat / b.toNat)

/-- REM's result (R127): the dividend less quotient times divisor (R130). -/
def remSigned (a b : Word) : Word :=
  if b = 0#32 then a
  else if a = 0x80000000#32 ∧ b = 0xFFFFFFFF#32 then 0#32
  else BitVec.ofInt 32 (a.toInt - a.toInt.tdiv b.toInt * b.toInt)

/-- REMU's result (R128). -/
def remUnsigned (a b : Word) : Word :=
  if b = 0#32 then a else BitVec.ofNat 32 (a.toNat % b.toNat)

end Sys2Proof.Machine
end

