-- ==== Sys2Proof/Machine/ImmArith.lean ====
section
/-! DEFINITION. Register-immediate integer arithmetic (spec 42_immediate_arith, R140 to R149): the immediate is the decoded 32-bit value. -/

namespace Sys2Proof.Machine

/-- ADDI: `x[rs1] + immI` modulo 2^32 (R141). -/
def execAddi (rd rs1 : RegIdx) (imm : Word) (s : State) : Host.Outcome State Fault Refusal :=
  retireReg rd (s.getReg rs1 + imm) s

/-- SLTI: signed comparison with the immediate (R142). -/
def execSlti (rd rs1 : RegIdx) (imm : Word) (s : State) : Host.Outcome State Fault Refusal :=
  retireReg rd (truthWord (signedLess (s.getReg rs1) imm)) s

/-- SLTIU: unsigned comparison with the sign-extended immediate (R143). -/
def execSltiu (rd rs1 : RegIdx) (imm : Word) (s : State) : Host.Outcome State Fault Refusal :=
  retireReg rd (truthWord (unsignedLess (s.getReg rs1) imm)) s

/-- XORI: bitwise exclusive or (R144). -/
def execXori (rd rs1 : RegIdx) (imm : Word) (s : State) : Host.Outcome State Fault Refusal :=
  retireReg rd (s.getReg rs1 ^^^ imm) s

/-- ORI: bitwise or (R145). -/
def execOri (rd rs1 : RegIdx) (imm : Word) (s : State) : Host.Outcome State Fault Refusal :=
  retireReg rd (s.getReg rs1 ||| imm) s

/-- ANDI: bitwise and (R146). -/
def execAndi (rd rs1 : RegIdx) (imm : Word) (s : State) : Host.Outcome State Fault Refusal :=
  retireReg rd (s.getReg rs1 &&& imm) s

/-- SLLI: shift left (R147). -/
def execSlli (rd rs1 : RegIdx) (shamt : Shamt) (s : State) : Host.Outcome State Fault Refusal :=
  retireReg rd (shiftLeft (s.getReg rs1) shamt) s

/-- SRLI: logical shift right (R148). -/
def execSrli (rd rs1 : RegIdx) (shamt : Shamt) (s : State) : Host.Outcome State Fault Refusal :=
  retireReg rd (shiftRightLogical (s.getReg rs1) shamt) s

/-- SRAI: arithmetic shift right (R149). -/
def execSrai (rd rs1 : RegIdx) (shamt : Shamt) (s : State) : Host.Outcome State Fault Refusal :=
  retireReg rd (shiftRightArith (s.getReg rs1) shamt) s

end Sys2Proof.Machine
end

