-- ==== Sys2Proof/Machine/Jumps.lean ====
section
/-! DEFINITION. Unconditional jumps (spec 47_jumps, R195 to R197): they always complete; a misaligned or out-of-range target halts
the next step's fetch. -/

namespace Sys2Proof.Machine

/-- What both jumps do: link `pc + 4` to rd, then set the pc to a target computed from the state before (R195, R196). -/
def jumpTo (rd : RegIdx) (target : Word) (s : State) : Host.Outcome State Fault Refusal :=
  .next ((s.setReg rd s.linkValue).setPc target)

/-- JAL: to `pc + immJ` (R195). -/
def execJal (rd : RegIdx) (imm : Word) (s : State) : Host.Outcome State Fault Refusal :=
  jumpTo rd (s.pcTarget imm) s

/-- JALR: to `(x[rs1] + immI) & ~1`, from the old x[rs1] (R196). -/
def execJalr (rd rs1 : RegIdx) (imm : Word) (s : State) : Host.Outcome State Fault Refusal :=
  jumpTo rd (s.regTarget rs1 imm) s

end Sys2Proof.Machine
end

