-- ==== Sys2Proof/Machine/Loads.lean ====
section
/-! DEFINITION. Loads (spec 43_loads, R160 to R165): no alignment requirement (R48). -/

namespace Sys2Proof.Machine

/-- What every load does (R160): `n` bytes at the effective address, extended, to rd; LoadFault with the effective address
when they are out of bounds, whatever rd is. -/
def loadTo (rd rs1 : RegIdx) (imm : Word) (n : Nat) (extend : Word → Word) (s : State) : Host.Outcome State Fault Refusal :=
  match s.memRead (s.effAddr rs1 imm) n with
  | some v => retireReg rd (extend v) s
  | none => raise (.loadFault s.pc (s.effAddr rs1 imm)) s

/-- LB: a sign-extended byte (R161). -/
def execLb (rd rs1 : RegIdx) (imm : Word) (s : State) : Host.Outcome State Fault Refusal :=
  loadTo rd rs1 imm 1 (sextLow 8) s

/-- LH: a sign-extended halfword (R162). -/
def execLh (rd rs1 : RegIdx) (imm : Word) (s : State) : Host.Outcome State Fault Refusal :=
  loadTo rd rs1 imm 2 (sextLow 16) s

/-- LW: a word (R163). -/
def execLw (rd rs1 : RegIdx) (imm : Word) (s : State) : Host.Outcome State Fault Refusal :=
  loadTo rd rs1 imm 4 id s

/-- LBU: a zero-extended byte (R164). -/
def execLbu (rd rs1 : RegIdx) (imm : Word) (s : State) : Host.Outcome State Fault Refusal :=
  loadTo rd rs1 imm 1 (zextLow 8) s

/-- LHU: a zero-extended halfword (R165). -/
def execLhu (rd rs1 : RegIdx) (imm : Word) (s : State) : Host.Outcome State Fault Refusal :=
  loadTo rd rs1 imm 2 (zextLow 16) s

end Sys2Proof.Machine
end

