-- ==== Sys2Proof/Machine/MulDiv.lean ====
section
/-! DEFINITION. Multiply and divide (spec 41_mul_div, R120 to R130): no trap, whatever the operands. -/

namespace Sys2Proof.Machine

/-- MUL: the low word of signed times signed (R121). -/
def execMul (rd rs1 rs2 : RegIdx) (s : State) : Host.Outcome State Fault Refusal :=
  retireReg rd (productLow ((s.getReg rs1).toInt * (s.getReg rs2).toInt)) s

/-- MULH: the high word of signed times signed (R122). -/
def execMulh (rd rs1 rs2 : RegIdx) (s : State) : Host.Outcome State Fault Refusal :=
  retireReg rd (productHigh ((s.getReg rs1).toInt * (s.getReg rs2).toInt)) s

/-- MULHSU: the high word of signed times unsigned (R123; rs1 is the signed operand by the spec's general knowledge: UNVERIFIED, unsafe, log 12). -/
def execMulhsu (rd rs1 rs2 : RegIdx) (s : State) : Host.Outcome State Fault Refusal :=
  retireReg rd (productHigh ((s.getReg rs1).toInt * ((s.getReg rs2).toNat : Int))) s

/-- MULHU: the high word of unsigned times unsigned (R124). -/
def execMulhu (rd rs1 rs2 : RegIdx) (s : State) : Host.Outcome State Fault Refusal :=
  retireReg rd (productHigh (((s.getReg rs1).toNat : Int) * ((s.getReg rs2).toNat : Int))) s

/-- DIV: the signed quotient (R125). -/
def execDiv (rd rs1 rs2 : RegIdx) (s : State) : Host.Outcome State Fault Refusal :=
  retireReg rd (divSigned (s.getReg rs1) (s.getReg rs2)) s

/-- DIVU: the unsigned quotient (R126). -/
def execDivu (rd rs1 rs2 : RegIdx) (s : State) : Host.Outcome State Fault Refusal :=
  retireReg rd (divUnsigned (s.getReg rs1) (s.getReg rs2)) s

/-- REM: the signed remainder (R127). -/
def execRem (rd rs1 rs2 : RegIdx) (s : State) : Host.Outcome State Fault Refusal :=
  retireReg rd (remSigned (s.getReg rs1) (s.getReg rs2)) s

/-- REMU: the unsigned remainder (R128). -/
def execRemu (rd rs1 rs2 : RegIdx) (s : State) : Host.Outcome State Fault Refusal :=
  retireReg rd (remUnsigned (s.getReg rs1) (s.getReg rs2)) s

end Sys2Proof.Machine
end

