-- ==== Sys2Proof/Machine/RegArith.lean ====
section
/-! DEFINITION. Register-register integer arithmetic (spec 40_register_arith, R100 to R110): both operands are read from the state
before anything is written, the result goes to rd, pc + 4. -/

namespace Sys2Proof.Machine

/-- ADD: `x[rs1] + x[rs2]` modulo 2^32 (R101). -/
def execAdd (rd rs1 rs2 : RegIdx) (s : State) : Host.Outcome State Fault Refusal :=
  retireReg rd (s.getReg rs1 + s.getReg rs2) s

/-- SUB: `x[rs1] - x[rs2]` modulo 2^32 (R102). -/
def execSub (rd rs1 rs2 : RegIdx) (s : State) : Host.Outcome State Fault Refusal :=
  retireReg rd (s.getReg rs1 - s.getReg rs2) s

/-- SLL: shift left by `x[rs2][4:0]` (R103). -/
def execSll (rd rs1 rs2 : RegIdx) (s : State) : Host.Outcome State Fault Refusal :=
  retireReg rd (shiftLeft (s.getReg rs1) (shiftAmount (s.getReg rs2))) s

/-- SLT: signed comparison to 0 or 1 (R104). -/
def execSlt (rd rs1 rs2 : RegIdx) (s : State) : Host.Outcome State Fault Refusal :=
  retireReg rd (truthWord (signedLess (s.getReg rs1) (s.getReg rs2))) s

/-- SLTU: unsigned comparison to 0 or 1 (R105). -/
def execSltu (rd rs1 rs2 : RegIdx) (s : State) : Host.Outcome State Fault Refusal :=
  retireReg rd (truthWord (unsignedLess (s.getReg rs1) (s.getReg rs2))) s

/-- XOR: bitwise exclusive or (R106). -/
def execXor (rd rs1 rs2 : RegIdx) (s : State) : Host.Outcome State Fault Refusal :=
  retireReg rd (s.getReg rs1 ^^^ s.getReg rs2) s

/-- SRL: logical shift right by `x[rs2][4:0]` (R107). -/
def execSrl (rd rs1 rs2 : RegIdx) (s : State) : Host.Outcome State Fault Refusal :=
  retireReg rd (shiftRightLogical (s.getReg rs1) (shiftAmount (s.getReg rs2))) s

/-- SRA: arithmetic shift right by `x[rs2][4:0]` (R108). -/
def execSra (rd rs1 rs2 : RegIdx) (s : State) : Host.Outcome State Fault Refusal :=
  retireReg rd (shiftRightArith (s.getReg rs1) (shiftAmount (s.getReg rs2))) s

/-- OR: bitwise or (R109). -/
def execOr (rd rs1 rs2 : RegIdx) (s : State) : Host.Outcome State Fault Refusal :=
  retireReg rd (s.getReg rs1 ||| s.getReg rs2) s

/-- AND: bitwise and (R110). -/
def execAnd (rd rs1 rs2 : RegIdx) (s : State) : Host.Outcome State Fault Refusal :=
  retireReg rd (s.getReg rs1 &&& s.getReg rs2) s

end Sys2Proof.Machine
end

