-- ==== Sys2Proof/Machine/Stores.lean ====
section
/-! DEFINITION. Stores (spec 44_stores, R170 to R173): no alignment requirement (R48). -/

namespace Sys2Proof.Machine

/-- What every store does (R170): the low `n` bytes of x[rs2] at the effective address; StoreFault, with no byte written,
when they are out of bounds. -/
def storeFrom (rs2 rs1 : RegIdx) (imm : Word) (n : Nat) (s : State) : Host.Outcome State Fault Refusal :=
  match s.memWrite (s.effAddr rs1 imm) n (s.getReg rs2) with
  | some t => .next t.advance
  | none => raise (.storeFault s.pc (s.effAddr rs1 imm)) s

/-- SB: the low byte (R171). -/
def execSb (rs2 rs1 : RegIdx) (imm : Word) (s : State) : Host.Outcome State Fault Refusal :=
  storeFrom rs2 rs1 imm 1 s

/-- SH: the low halfword (R172). -/
def execSh (rs2 rs1 : RegIdx) (imm : Word) (s : State) : Host.Outcome State Fault Refusal :=
  storeFrom rs2 rs1 imm 2 s

/-- SW: the word (R173). -/
def execSw (rs2 rs1 : RegIdx) (imm : Word) (s : State) : Host.Outcome State Fault Refusal :=
  storeFrom rs2 rs1 imm 4 s

end Sys2Proof.Machine
end

