-- ==== Sys2Proof/Machine/HostCall.lean ====
section
/-! DEFINITION. The host call (R238, R243): the request's wire form (R246), the response a call receives,
and the host's duties (R244, R249), which are premises of claims and no checks of the core. -/

namespace Sys2Proof.Machine

/-- The bytes of a request: `u32 syscall_no | payload`, every field little-endian (R246). -/
def hostRequestWire : HostRequest → List Byte
  | .reset => leBytes 4 0x00#32
  | .openFile path flags => leBytes 4 0x0A#32 ++ path ++ [0#8] ++ leBytes 4 flags
  | .close fd => leBytes 4 0x0B#32 ++ leBytes 4 fd
  | .seek fd offset whence => leBytes 4 0x0C#32 ++ leBytes 4 fd ++ leBytes 4 offset ++ leBytes 4 whence
  | .read fd count => leBytes 4 0x0D#32 ++ leBytes 4 fd ++ leBytes 4 count
  | .write fd bytes => leBytes 4 0x0E#32 ++ leBytes 4 fd ++ bytes
  | .socket address => leBytes 4 0x0F#32 ++ address ++ [0#8]

/-- The status -1 of a failed call: transport error, timeout, or the service's own failure (R244). -/
def hostFailed : Word := 0xFFFFFFFF#32

/-- The status -64 of a pipe READ with no packet, EAGAIN (R226, R244). -/
def hostAgain : Word := 0xFFFFFFC0#32

/-- The descriptors the host has given out, newest first, since the last RESET request, which may have set its counter back
(R236, R248). A CLOSE takes none back: new descriptors come from a counter that only grows (R248). -/
def descriptorsGiven : List HostCall → List Word :=
  List.foldl (fun given c =>
    match c.request with
    | .reset => []
    | .openFile _ _ | .socket _ => if 0 ≤ c.reply.status.toInt then c.reply.status :: given else given
    | _ => given) []

/-- A new descriptor (R244): from descriptor_start up, above fd 0, which the host holds from the start, and none given out
before (R248: one counter serves OPEN and SOCKET; DEDUCED, log 8). -/
def isNewDescriptor (p : Params) (before : List HostCall) (fd : Word) : Bool :=
  decide (0 < fd.toInt) && decide (p.descriptorStart.toInt ≤ fd.toInt) && !(descriptorsGiven before).contains fd

/-- Whether `fd` may be an open pipe after the call `c`, if `may` says so of the calls `before` it. A pipe is what SOCKET gives
(R236, R249); OPEN gives a file; a CLOSE or RESET that answers 0 has closed it (R248). A SOCKET that answers -1 may have lost
the answer to a timeout, its pipe given out, so any descriptor not given out before may be one (DEDUCED, log 8). -/
def pipeAfter (fd : Word) (before : List HostCall) (may : Bool) (c : HostCall) : Bool :=
  match c.request with
  | .socket _ =>
    may || c.reply.status == fd || (c.reply.status == hostFailed && !(descriptorsGiven before).contains fd)
  | .openFile _ _ => may && c.reply.status != fd
  | .close closed => may && !(closed == fd && c.reply.status == 0#32)
  | .reset => may && c.reply.status != 0#32
  | _ => may

/-- `pipeAfter` along the calls `calls`, made after the calls `before`. -/
def pipeAfterCalls (fd : Word) (before : List HostCall) (may : Bool) : List HostCall → Bool
  | [] => may
  | c :: calls => pipeAfterCalls fd (before ++ [c]) (pipeAfter fd before may c) calls

/-- A descriptor that may be an open pipe after the calls `before` of a launch (R244, R248): none is at launch, fd 0 never is,
and none lies below descriptor_start. -/
def mayBePipe (p : Params) (before : List HostCall) (fd : Word) : Bool :=
  decide (0 < fd.toInt) && decide (p.descriptorStart.toInt ≤ fd.toInt) && pipeAfterCalls fd [] false before

/-- The statuses a service may answer beside -1, after the calls `before` (R244). A status is an i32 (R246), so a descriptor,
a position and a count are read signed (DEDUCED, log 8); EAGAIN is for pipes only; R244 sets no bound to WRITE's count and
admits any negative error of WRITE and SOCKET. -/
def hostStatusAllowed (p : Params) (before : List HostCall) (status : Word) : HostRequest → Bool
  | .reset => status == 0#32
  | .openFile _ _ => isNewDescriptor p before status
  | .close _ => status == 0#32
  | .seek _ _ _ => decide (0 ≤ status.toInt)
  | .read fd count =>
    decide (0 ≤ status.toInt ∧ status.toNat ≤ count.toNat) || (status == hostAgain && mayBePipe p before fd)
  | .write _ _ => true
  | .socket _ => decide (status.toInt < 0) || isNewDescriptor p before status

/-- How long the payload of a response is: a READ's status when it is not negative, else nothing (R243, R244). -/
def hostPayloadLength (status : Word) : HostRequest → Nat
  | .read _ _ => if 0 ≤ status.toInt then status.toNat else 0
  | _ => 0

/-- The host's duty for one call after the calls `before`: an allowed status and a payload of the stated length (R244, R249).
No step reads it: it is the premise of claims. -/
def hostMeetsDuty (p : Params) (before : List HostCall) (req : HostRequest) (r : HostReply) : Bool :=
  (r.status == hostFailed || hostStatusAllowed p before r.status req)
    && r.payload.length == hostPayloadLength r.status req

/-- HostCall(req)'s response: the next settled one, or else a free value (R238, D17, log 6, log 7). It reaches the core as it
is: the core checks no duty (R244, N26). -/
def State.hostResponse (s : State) (req : HostRequest) : HostReply :=
  s.hostReplies.headD (Config.hostReply s.hostDraws req)

/-- PREMISE, on the oracle in one state: its answer to `req` keeps the host's duty (R238, R244, assumption A2; log 8). -/
def State.HostKeepsDuty (s : State) (req : HostRequest) : Prop :=
  hostMeetsDuty s.params s.hostCalls req (s.hostResponse req) = true

/-- Every call of `calls`, made after the calls `before`, kept its duty given the calls made before it (R244). -/
def callsMeetDuty (p : Params) (before : List HostCall) : List HostCall → Bool
  | [] => true
  | c :: calls => hostMeetsDuty p before c.request c.reply && callsMeetDuty p (before ++ [c]) calls

/-- PREMISE, on the oracle over a run: every call it has answered since launch kept its duty (R244, assumption A2; log 8). -/
def State.HostKeptDuties (s : State) : Prop := callsMeetDuty s.params [] s.hostCalls = true

/-- The state with the call made: the request recorded with its response, which is used up (R6, log 9). -/
def State.afterHostCall (s : State) (req : HostRequest) : State :=
  { s with
    hostCalls := s.hostCalls ++ [{ request := req, reply := s.hostResponse req }]
    hostReplies := s.hostReplies.tail
    hostDraws := s.hostDraws + 1 }

end Sys2Proof.Machine
end

