-- ==== Sys2Proof/Machine/System.lean ====
section
/-! DEFINITION. System instructions (spec 48_system, R200 to R202) and the ECALL services (spec 60_exceptions, R236 to R245). -/

namespace Sys2Proof.Machine

/-- The services an ECALL selects (R236). -/
inductive Service where
  | print | draw | hostReset | hostOpen | hostClose | hostSeek | hostRead | hostWrite | hostSocket | unknown
  deriving DecidableEq, Repr

/-- The service of a number: all 32 bits of a7 select, and 0xDEAD is unknown (R236, R245, D19). -/
def serviceOf (n : Word) : Service :=
  if n = 0x00#32 then .hostReset
  else if n = 0x01#32 then .print
  else if n = 0x02#32 then .draw
  else if n = 0x0A#32 then .hostOpen
  else if n = 0x0B#32 then .hostClose
  else if n = 0x0C#32 then .hostSeek
  else if n = 0x0D#32 then .hostRead
  else if n = 0x0E#32 then .hostWrite
  else if n = 0x0F#32 then .hostSocket
  else .unknown

/-- The service number, a7 = x17 (R237). -/
def State.serviceNumber (s : State) : Word := s.getReg 17#5

/-- The first argument, a0 = x10, where the result goes too (R237). -/
def State.arg0 (s : State) : Word := s.getReg 10#5
/-- a1 = x11 (R237). -/
def State.arg1 (s : State) : Word := s.getReg 11#5
/-- a2 = x12 (R237). -/
def State.arg2 (s : State) : Word := s.getReg 12#5

/-- An ECALL's end: the result to a0, then `pc <- pc + 4` (R200, R237). -/
def ecallReturn (result : Word) (s : State) : Host.Outcome State Fault Refusal := retireReg 10#5 result s

/-- PRINT (R241): the bytes to the console as one record. -/
def servicePrint (s : State) : Host.Outcome State Fault Refusal :=
  match s.readRange s.arg0 s.arg1.toNat with
  | some bytes => ecallReturn 0#32 (s.print bytes)
  | none => raise (.loadFault s.pc s.arg0) s

/-- DRAW (R242): the VRAM slice as it stands, published as one frame. -/
def serviceDraw (s : State) : Host.Outcome State Fault Refusal :=
  match s.readRange s.params.vramBase s.params.vramLen.toNat with
  | some frame => ecallReturn 0#32 (s.publish frame)
  | none => raise (.loadFault s.pc s.params.vramBase) s

/-- A host service that only returns a status (R243): the payload is ignored and memory is not written. -/
def serviceStatus (req : HostRequest) (s : State) : Host.Outcome State Fault Refusal :=
  ecallReturn (s.hostResponse req).status (s.afterHostCall req)

/-- OPEN's path (R240, D16): a1 bytes when a1 is not 0, else up to the first 0x00. -/
def State.openPath (s : State) : Option (List Byte) :=
  if s.arg1 = 0#32 then s.readString s.arg0 else s.readRange s.arg0 s.arg1.toNat

/-- OPEN (R243). -/
def serviceOpen (s : State) : Host.Outcome State Fault Refusal :=
  match s.openPath with
  | some path => serviceStatus (.openFile path s.arg2) s
  | none => raise (.loadFault s.pc s.arg0) s

/-- READ's buffer after the response: WriteRange of the payload at a1 when the status is not negative (R243). Under the host's
duty the payload is no longer than the range already checked, so WriteRange cannot fail (R44, R239, R244); for an answer
outside the duty, which R249 rules out, a WriteRange that fails touches no byte (R44; DEDUCED, unsafe: log 25). -/
def State.storePayload (s : State) (buf : Word) (r : HostReply) : State :=
  if 0 ≤ r.status.toInt then (s.writeRange buf r.payload).getD s else s

/-- READ (R243): the whole buffer is checked before the call (R239). -/
def serviceRead (s : State) : Host.Outcome State Fault Refusal :=
  if s.inBounds s.arg1.toNat s.arg2.toNat then
    ecallReturn (s.hostResponse (.read s.arg0 s.arg2)).status
      ((s.afterHostCall (.read s.arg0 s.arg2)).storePayload s.arg1 (s.hostResponse (.read s.arg0 s.arg2)))
  else raise (.storeFault s.pc s.arg1) s

/-- WRITE (R243): the bytes are copied out before the call. -/
def serviceWrite (s : State) : Host.Outcome State Fault Refusal :=
  match s.readRange s.arg1 s.arg2.toNat with
  | some bytes => serviceStatus (.write s.arg0 bytes) s
  | none => raise (.loadFault s.pc s.arg1) s

/-- SOCKET (R243): the address is always the NUL-terminated string at a0 (R240). -/
def serviceSocket (s : State) : Host.Outcome State Fault Refusal :=
  match s.readString s.arg0 with
  | some address => serviceStatus (.socket address) s
  | none => raise (.loadFault s.pc s.arg0) s

/-- ECALL (R200): dispatch on a7; the range checks come before any output or host call (R239, D15, log 15). -/
def execEcall (s : State) : Host.Outcome State Fault Refusal :=
  match serviceOf s.serviceNumber with
  | .print => servicePrint s
  | .draw => serviceDraw s
  | .hostReset => serviceStatus .reset s
  | .hostOpen => serviceOpen s
  | .hostClose => serviceStatus (.close s.arg0) s
  | .hostSeek => serviceStatus (.seek s.arg0 s.arg1 s.arg2) s
  | .hostRead => serviceRead s
  | .hostWrite => serviceWrite s
  | .hostSocket => serviceSocket s
  | .unknown => ecallReturn hostFailed s

/-- EBREAK: halts with Break, the pc kept (R201). -/
def execEbreak (s : State) : Host.Outcome State Fault Refusal := raise (.breakpoint s.pc) s

end Sys2Proof.Machine
end

