-- ==== Sys2Proof/Machine/UpperImm.lean ====
section
/-! DEFINITION. Upper-immediate instructions (spec 46_upper_immediate, R190, R191). -/

namespace Sys2Proof.Machine

/-- LUI: the immediate, already shifted (R190). -/
def execLui (rd : RegIdx) (imm : Word) (s : State) : Host.Outcome State Fault Refusal :=
  retireReg rd imm s

/-- AUIPC: the instruction's own address plus the immediate, modulo 2^32 (R191). -/
def execAuipc (rd : RegIdx) (imm : Word) (s : State) : Host.Outcome State Fault Refusal :=
  retireReg rd (s.pcTarget imm) s

end Sys2Proof.Machine
end

