-- ==== Sys2Proof/Machine/Fetch.lean ====
section
/-! DEFINITION. The first two stages of a step: fetch (R45) and decode (R79), each of which can halt it (R223). -/

namespace Sys2Proof.Machine

/-- A pc the fetch accepts: a multiple of 4 with four bytes in bounds (R45, D7). -/
def State.fetchable (s : State) : Bool :=
  decide (s.pc.toNat % 4 = 0) && decide (s.pc.toNat + 4 ≤ s.params.memSize)

/-- The four bytes at the pc. -/
def State.fetchBytes (s : State) : List Byte := s.mem.readBytes s.pc.toNat 4

/-- Fetch, then decode: the instruction at the pc, or the halt the step ends with (R45, R79, R223). Memory is read anew, so
a store is seen by every later fetch (R53). -/
def State.fetchInstr (s : State) : Except Halt Instr :=
  if s.fetchable then
    match decodeBytes s.fetchBytes with
    | .ok (i, _) => .ok i
    | .error _ => .error (.illegalInstruction s.pc (leWord s.fetchBytes))
  else .error (.fetchFault s.pc)

end Sys2Proof.Machine
end

