-- ==== Sys2Proof/Machine/Step.lean ====
section
/-! DEFINITION. The step (R261), and an instruction placed where the next step fetches. -/

namespace Sys2Proof.Machine

/-- One step request (R261). A halted core does nothing (R264: the identity, of the two readings the spec allows; DESIGN
CHOICE, safe: log 5). A running one fetches, decodes and executes, and the first stage that fails gives the halt (R223). -/
def step (s : State) : Host.Outcome State Fault Refusal :=
  match s.status with
  | .halted _ => .next s
  | .running =>
    match s.fetchInstr with
    | .error h => raise h s
    | .ok i => exec i s

/-- `s` with the instruction whose bits are `w` (those from `nbits` up are zero) in memory at the pc, little-endian, as a
loader leaves it (log 20). A fetch needs a running core and a pc it accepts: the status becomes running, and a pc that no
fetch accepts becomes 0; nothing else changes. -/
def State.withFetchWord (s : State) (nbits w : Nat) : State :=
  let pc := if s.fetchable then s.pc else 0#32
  { s with
    status := .running
    pc := pc
    mem := s.mem.writeBytes pc.toNat (leBytes 4 (BitVec.ofNat 32 (w % 2 ^ nbits))) }

end Sys2Proof.Machine
end

