-- ==== Sys2Proof/Machine/Assembly.lean ====
section
/-! DEFINITION. Software's names and shorthands: ABI register names (R21), operand syntax (R86), pseudo-instructions (R87).
The hardware knows none of them. All but the source's own examples are the spec's general knowledge (PRESUMED, log 16). -/

namespace Sys2Proof.Machine

/-- The ABI names of x0 to x31, in order (R21). -/
def abiNames : List String :=
  ["zero", "ra", "sp", "gp", "tp", "t0", "t1", "t2", "s0", "s1"] ++
  ["a0", "a1", "a2", "a3", "a4", "a5", "a6", "a7"] ++
  ["s2", "s3", "s4", "s5", "s6", "s7", "s8", "s9", "s10", "s11", "t3", "t4", "t5", "t6"]

/-- The ABI name of a register (R21). -/
def abiName (r : RegIdx) : String := abiNames.getD r.toNat ""

/-- `mnemonic rd, rs1, rs2`. -/
def asmR (m : String) (a b c : RegIdx) : String := m ++ " " ++ abiName a ++ ", " ++ abiName b ++ ", " ++ abiName c

/-- `mnemonic r, r, value`: immediates, shift amounts and branch offsets. -/
def asmI (m : String) (a b : RegIdx) (v : Int) : String :=
  m ++ " " ++ abiName a ++ ", " ++ abiName b ++ ", " ++ toString v

/-- `mnemonic r, imm(base)`: loads, stores, JALR. -/
def asmMem (m : String) (a base : RegIdx) (v : Int) : String :=
  m ++ " " ++ abiName a ++ ", " ++ toString v ++ "(" ++ abiName base ++ ")"

/-- `mnemonic r, value`: LUI and AUIPC with imm20, JAL with its offset. -/
def asmU (m : String) (a : RegIdx) (v : Int) : String := m ++ " " ++ abiName a ++ ", " ++ toString v

/-- imm20 of a U-type instruction: inst[31:12] (R86). -/
def imm20 (imm : Word) : Int := imm.toNat / 4096

/-- An instruction in assembler syntax; a branch's or JAL's operand is its byte offset (R86, D20). -/
def asmInstr : Instr → String
  | .add d a b => asmR "add" d a b
  | .sub d a b => asmR "sub" d a b
  | .sll d a b => asmR "sll" d a b
  | .slt d a b => asmR "slt" d a b
  | .sltu d a b => asmR "sltu" d a b
  | .xor d a b => asmR "xor" d a b
  | .srl d a b => asmR "srl" d a b
  | .sra d a b => asmR "sra" d a b
  | .or d a b => asmR "or" d a b
  | .and d a b => asmR "and" d a b
  | .mul d a b => asmR "mul" d a b
  | .mulh d a b => asmR "mulh" d a b
  | .mulhsu d a b => asmR "mulhsu" d a b
  | .mulhu d a b => asmR "mulhu" d a b
  | .div d a b => asmR "div" d a b
  | .divu d a b => asmR "divu" d a b
  | .rem d a b => asmR "rem" d a b
  | .remu d a b => asmR "remu" d a b
  | .addi d a v => asmI "addi" d a v.toInt
  | .slti d a v => asmI "slti" d a v.toInt
  | .sltiu d a v => asmI "sltiu" d a v.toInt
  | .xori d a v => asmI "xori" d a v.toInt
  | .ori d a v => asmI "ori" d a v.toInt
  | .andi d a v => asmI "andi" d a v.toInt
  | .slli d a n => asmI "slli" d a n.toNat
  | .srli d a n => asmI "srli" d a n.toNat
  | .srai d a n => asmI "srai" d a n.toNat
  | .lb d a v => asmMem "lb" d a v.toInt
  | .lh d a v => asmMem "lh" d a v.toInt
  | .lw d a v => asmMem "lw" d a v.toInt
  | .lbu d a v => asmMem "lbu" d a v.toInt
  | .lhu d a v => asmMem "lhu" d a v.toInt
  | .sb b a v => asmMem "sb" b a v.toInt
  | .sh b a v => asmMem "sh" b a v.toInt
  | .sw b a v => asmMem "sw" b a v.toInt
  | .beq a b v => asmI "beq" a b v.toInt
  | .bne a b v => asmI "bne" a b v.toInt
  | .blt a b v => asmI "blt" a b v.toInt
  | .bge a b v => asmI "bge" a b v.toInt
  | .bltu a b v => asmI "bltu" a b v.toInt
  | .bgeu a b v => asmI "bgeu" a b v.toInt
  | .lui d v => asmU "lui" d (imm20 v)
  | .auipc d v => asmU "auipc" d (imm20 v)
  | .jal d v => asmU "jal" d v.toInt
  | .jalr d a v => asmMem "jalr" d a v.toInt
  | .ecall => "ecall"
  | .ebreak => "ebreak"

/-- The pseudo-instructions of R87; an offset or symbol operand is the byte distance from the first expanded instruction. -/
inductive Pseudo where
  | nop
  | mv (rd rs : RegIdx)
  | not (rd rs : RegIdx)
  | neg (rd rs : RegIdx)
  | seqz (rd rs : RegIdx)
  | snez (rd rs : RegIdx)
  | sltz (rd rs : RegIdx)
  | sgtz (rd rs : RegIdx)
  | li (rd : RegIdx) (imm : Word)
  | la (rd : RegIdx) (off : Word)
  | beqz (rs : RegIdx) (off : Word)
  | bnez (rs : RegIdx) (off : Word)
  | blez (rs : RegIdx) (off : Word)
  | bgez (rs : RegIdx) (off : Word)
  | bltz (rs : RegIdx) (off : Word)
  | bgtz (rs : RegIdx) (off : Word)
  | bgt (rs rt : RegIdx) (off : Word)
  | ble (rs rt : RegIdx) (off : Word)
  | bgtu (rs rt : RegIdx) (off : Word)
  | bleu (rs rt : RegIdx) (off : Word)
  | j (off : Word)
  | jalRa (off : Word)
  | jr (rs : RegIdx)
  | jalrRa (rs : RegIdx)
  | ret
  | call (off : Word)
  | tail (off : Word)
  deriving DecidableEq, Repr

/-- `(imm + 0x800) >> 12`, in place as a U immediate (R87). -/
def hiPart (imm : Word) : Word := (imm + 0x800#32) &&& 0xFFFFF000#32

/-- `sext_12(imm[11:0])` (R87). -/
def loPart (imm : Word) : Word := (imm.setWidth 12).signExtend 32

/-- The real instructions of a pseudo-instruction (R87). -/
def Pseudo.expand : Pseudo → List Instr
  | .nop => [.addi 0 0 0]
  | .mv rd rs => [.addi rd rs 0]
  | .not rd rs => [.xori rd rs 0xFFFFFFFF#32]
  | .neg rd rs => [.sub rd 0 rs]
  | .seqz rd rs => [.sltiu rd rs 1]
  | .snez rd rs => [.sltu rd 0 rs]
  | .sltz rd rs => [.slt rd rs 0]
  | .sgtz rd rs => [.slt rd 0 rs]
  | .li rd imm => if fitsI imm then [.addi rd 0 imm] else [.lui rd (hiPart imm), .addi rd rd (loPart imm)]
  | .la rd off => [.auipc rd (hiPart off), .addi rd rd (loPart off)]
  | .beqz rs off => [.beq rs 0 off]
  | .bnez rs off => [.bne rs 0 off]
  | .blez rs off => [.bge 0 rs off]
  | .bgez rs off => [.bge rs 0 off]
  | .bltz rs off => [.blt rs 0 off]
  | .bgtz rs off => [.blt 0 rs off]
  | .bgt rs rt off => [.blt rt rs off]
  | .ble rs rt off => [.bge rt rs off]
  | .bgtu rs rt off => [.bltu rt rs off]
  | .bleu rs rt off => [.bgeu rt rs off]
  | .j off => [.jal 0 off]
  | .jalRa off => [.jal 1 off]
  | .jr rs => [.jalr 0 rs 0]
  | .jalrRa rs => [.jalr 1 rs 0]
  | .ret => [.jalr 0 1 0]
  | .call off => [.auipc 1 (hiPart off), .jalr 1 1 (loPart off)]
  | .tail off => [.auipc 6 (hiPart off), .jalr 0 6 (loPart off)]

end Sys2Proof.Machine
end

