-- ==== Sys2Proof/Machine/Launch.lean ====
section
/-! DEFINITION. The launch, the only reset (R266 to R270), and the loader's effect (R270). -/

namespace Sys2Proof.Machine

/-- The inputs of a launch (R266): the parameters of R7, the program image, the initial register values and the initial
bytes of memory outside the image, and the responses the environment has settled (log 7). -/
structure LaunchInputs where
  params : Params
  initialPc : Word
  loadBase : Word
  image : List Byte
  /-- initial x1 to x31; slot 0 is not used, x0 being 0 (R22) -/
  regs : Vector Word 32
  /-- initial bytes, later pairs over earlier ones; an address not listed starts as `Memory.unlisted` (log 2) -/
  mem : List Host.Cell
  hostReplies : List HostReply
  deriving DecidableEq, Repr

/-- The spec's defaults (R7), with the values this model chooses for what the spec leaves open (log 1, log 2). -/
def LaunchInputs.default : LaunchInputs :=
  { params := Params.default
    initialPc := 0
    loadBase := 0
    image := []
    regs := Vector.replicate 32 0
    mem := []
    hostReplies := [] }

/-- Memory holding the given bytes, those at or above `n` left out: such an address has no byte (R27). -/
def Memory.ofCells (n : Nat) (cells : List Host.Cell) : Memory :=
  cells.foldl (fun m c => if c.1 < n then m.write c.1 c.2 else m) []

/-- The initial byte of an address outside the image: the last one given for it. -/
def initialByte (cells : List Host.Cell) (a : Nat) : Byte :=
  cells.foldl (fun b c => if c.1 = a then c.2 else b) Memory.unlisted

/-- The image fits below `mem_size` (R270, D24). -/
def LaunchInputs.fits (l : LaunchInputs) : Bool :=
  decide (l.loadBase.toNat + l.image.length ≤ l.params.memSize)

/-- The launch (R266): nothing when it is refused, because the image does not fit (R270) or `mem_size` is outside its range
(R7; DESIGN CHOICE, safe: log 21). `initialPc` is not checked (R267). -/
def launch (l : LaunchInputs) : Option State :=
  if l.params.wf && l.fits then
    some
      { regs := l.regs.set 0 0
        pc := l.initialPc
        mem := (Memory.ofCells l.params.memSize l.mem).writeBytes l.loadBase.toNat l.image
        status := .running
        console := []
        frames := []
        hostCalls := []
        hostReplies := l.hostReplies
        hostDraws := 0
        params := l.params }
  else none

/-! ### The loader's hex text (R270) -/

/-- The value of a hexadecimal digit. -/
def hexDigit (c : Char) : Option Nat :=
  if '0' ≤ c ∧ c ≤ '9' then some (c.toNat - '0'.toNat)
  else if 'a' ≤ c ∧ c ≤ 'f' then some (c.toNat - 'a'.toNat + 10)
  else if 'A' ≤ c ∧ c ≤ 'F' then some (c.toNat - 'A'.toNat + 10)
  else none

/-- ASCII white space: space, and the controls from tab to carriage return. -/
def asciiSpace (c : Char) : Bool := c.toNat == 32 || decide (9 ≤ c.toNat ∧ c.toNat ≤ 13)

/-- Each pair of digits as one byte; nothing on an odd length or another character. -/
def hexPairs : List Char → Option (List Byte)
  | [] => some []
  | [_] => none
  | c :: d :: rest =>
    match hexDigit c, hexDigit d, hexPairs rest with
    | some hi, some lo, some bytes => some (BitVec.ofNat 8 (16 * hi + lo) :: bytes)
    | _, _, _ => none

/-- `load_hex`: strip white space, then pairs; nothing is LoadError (R226, R270). -/
def loadHex (text : List Char) : Option (List Byte) := hexPairs (text.filter fun c => !asciiSpace c)

/-- A launch from hex text: refused when the text is bad (R270). -/
def launchHex (text : List Char) (l : LaunchInputs) : Option State :=
  match loadHex text with
  | some image => launch { l with image := image }
  | none => none

end Sys2Proof.Machine
end

