-- ==== Sys2Proof/Safety.lean ====
section
/-! DEFINITION. The terms claims are made in: the invariant of the state, what a completed instruction may have changed
(its frame), and how a run ends (R274). -/

namespace Sys2Proof.Machine

/-- What holds in every state of a run (reset has it and every step keeps it): mem_size in its range (R7), x0's slot zero
(R22), memory in its canonical form with nothing listed outside `[0, mem_size)` (R27), every frame one VRAM slice long
(R28), and a halt's recorded pc the pc itself (R221). -/
structure State.Inv (s : State) : Prop where
  params_wf : s.params.wf = true
  x0_slot : s.regs[0] = 0#32
  mem_wf : s.mem.wf = true
  mem_within : s.mem.within s.params.memSize = true
  frames_length : ∀ f ∈ s.frames, f.length = s.params.vramLen.toNat
  halt_pc : ∀ h, s.status = .halted h → h.pc = s.pc

/-- `t` has the environment side of `s`: no output, no host call, the same parameters and status. -/
structure SameOutputs (s t : State) : Prop where
  status : t.status = s.status
  console : t.console = s.console
  frames : t.frames = s.frames
  hostCalls : t.hostCalls = s.hostCalls
  hostReplies : t.hostReplies = s.hostReplies
  hostDraws : t.hostDraws = s.hostDraws
  params : t.params = s.params

/-- Every byte of memory reads as before. -/
def SameBytes (s t : State) : Prop := ∀ a, t.mem.read a = s.mem.read a

/-- Every register reads as before. -/
def SameRegs (s t : State) : Prop := ∀ r, t.getReg r = s.getReg r

/-- Every register but `rd` reads as before, and `rd` reads `v`, unless it is x0, which reads 0 (R22, R23). -/
def OnlyReg (s t : State) (rd : RegIdx) (v : Word) : Prop :=
  ∀ r, t.getReg r = if r = 0#5 then 0#32 else if r = rd then v else s.getReg r

/-- `t` is `s` after an instruction that writes `v` to `rd` and sets the pc: nothing else changed. -/
structure WroteReg (s t : State) (rd : RegIdx) (v pc : Word) : Prop where
  regs : OnlyReg s t rd v
  pc : t.pc = pc
  bytes : SameBytes s t
  outputs : SameOutputs s t

/-- `t` is `s` after an instruction that only sets the pc. -/
structure WentTo (s t : State) (pc : Word) : Prop where
  regs : SameRegs s t
  pc : t.pc = pc
  bytes : SameBytes s t
  outputs : SameOutputs s t

/-- `t` is `s` halted with `h`: nothing but the status changed (R222). -/
structure HaltedWith (s t : State) (h : Halt) : Prop where
  status : t.status = .halted h
  regs : t.regs = s.regs
  pc : t.pc = s.pc
  mem : t.mem = s.mem
  console : t.console = s.console
  frames : t.frames = s.frames
  hostCalls : t.hostCalls = s.hostCalls
  hostReplies : t.hostReplies = s.hostReplies
  hostDraws : t.hostDraws = s.hostDraws
  params : t.params = s.params

/-- `t` is `s` after a store of the low `n` bytes of `v` from address `a` up, and `pc + 4`: those bytes and no others changed. -/
structure Stored (s t : State) (a n : Nat) (v : Word) : Prop where
  written : ∀ k, k < n → t.mem.read (a + k) = v.extractLsb' (8 * k) 8
  others : ∀ x, x < a ∨ a + n ≤ x → t.mem.read x = s.mem.read x
  regs : SameRegs s t
  pc : t.pc = s.pc + 4#32
  outputs : SameOutputs s t

/-- `t` is `s` after an ECALL that made one host call, with the answer `status` in a0: apart from memory, nothing else changed
(R237, R243). -/
structure CalledHost (s t : State) (req : HostRequest) (status : Word) : Prop where
  regs : OnlyReg s t 10#5 status
  pc : t.pc = s.pc + 4#32
  running : t.status = s.status
  console : t.console = s.console
  frames : t.frames = s.frames
  hostCalls : t.hostCalls = s.hostCalls ++ [{ request := req, reply := s.hostResponse req }]
  hostReplies : t.hostReplies = s.hostReplies.tail
  hostDraws : t.hostDraws = s.hostDraws + 1
  params : t.params = s.params

/-- `bytes` are the bytes of memory from `a` up. -/
def BytesAt (s : State) (a : Nat) (bytes : List Byte) : Prop :=
  ∀ k (h : k < bytes.length), bytes[k] = s.mem.read (a + k)

/-- `bytes` is the NUL-terminated string at `a`: no 0x00 in it, one after it, all below mem_size (R240). -/
structure NulString (s : State) (a : Nat) (bytes : List Byte) : Prop where
  content : BytesAt s a bytes
  nonzero : ∀ b ∈ bytes, b ≠ 0#8
  ends : s.mem.read (a + bytes.length) = 0#8
  below : a + bytes.length < s.params.memSize

/-- No 0x00 from `a` up to mem_size (R240). -/
def NoNul (s : State) (a : Nat) : Prop := ∀ x, a ≤ x → x < s.params.memSize → s.mem.read x ≠ 0#8

/-- `v[hi:lo]` as a number (R8), for `w = hi - lo + 1`. -/
def bitField (v : Word) (lo w : Nat) : Int := ((v.toNat / 2 ^ lo) % 2 ^ w : Nat)

/-- The words of `i` have the opcode table's fixed bits: `pattern` under `mask`. -/
def Encoded (i : Instr) (mask pattern : Word) : Prop := encode i &&& mask = pattern

/-- The register an instruction writes (R23, R237): none for stores, branches and EBREAK. -/
def destOf : Instr → Option RegIdx
  | .add rd _ _ | .sub rd _ _ | .sll rd _ _ | .slt rd _ _ | .sltu rd _ _ => some rd
  | .xor rd _ _ | .srl rd _ _ | .sra rd _ _ | .or rd _ _ | .and rd _ _ => some rd
  | .mul rd _ _ | .mulh rd _ _ | .mulhsu rd _ _ | .mulhu rd _ _ => some rd
  | .div rd _ _ | .divu rd _ _ | .rem rd _ _ | .remu rd _ _ => some rd
  | .addi rd _ _ | .slti rd _ _ | .sltiu rd _ _ | .xori rd _ _ | .ori rd _ _ | .andi rd _ _ => some rd
  | .slli rd _ _ | .srli rd _ _ | .srai rd _ _ => some rd
  | .lb rd _ _ | .lh rd _ _ | .lw rd _ _ | .lbu rd _ _ | .lhu rd _ _ => some rd
  | .lui rd _ | .auipc rd _ | .jal rd _ | .jalr rd _ _ => some rd
  | .ecall => some 10#5
  | .sb _ _ _ | .sh _ _ _ | .sw _ _ _ | .ebreak => none
  | .beq _ _ _ | .bne _ _ _ | .blt _ _ _ | .bge _ _ _ | .bltu _ _ _ | .bgeu _ _ _ => none

/-- SB, SH and SW. -/
def isStore : Instr → Bool
  | .sb _ _ _ | .sh _ _ _ | .sw _ _ _ => true
  | _ => false

/-- The control transfers: branches, JAL and JALR (R25). -/
def isTransfer : Instr → Bool
  | .beq _ _ _ | .bne _ _ _ | .blt _ _ _ | .bge _ _ _ | .bltu _ _ _ | .bgeu _ _ _ => true
  | .jal _ _ | .jalr _ _ _ => true
  | _ => false

/-- Where a step that does not halt may leave the pc (R25, R263). -/
def MayGoTo (s : State) (i : Instr) (pc : Word) : Prop :=
  match i with
  | .beq _ _ imm | .bne _ _ imm | .blt _ _ imm => pc = s.pc + imm ∨ pc = s.pc + 4#32
  | .bge _ _ imm | .bltu _ _ imm | .bgeu _ _ imm => pc = s.pc + imm ∨ pc = s.pc + 4#32
  | .jal _ imm => pc = s.pc + imm
  | .jalr _ rs1 imm => pc = (s.getReg rs1 + imm) &&& ~~~1#32
  | _ => pc = s.pc + 4#32

/-- Executing a list of instructions one after another, as an expanded pseudo-instruction runs (R87). -/
def execAll : List Instr → State → Host.Outcome State Fault Refusal
  | [], s => .next s
  | i :: is, s =>
    match exec i s with
    | .next t => execAll is t
    | .fault f => .fault f
    | .refused r => .refused r

/-- The run ended normally: halted with Break (R274). -/
def State.endedNormally (s : State) : Bool :=
  match s.status with
  | .halted (.breakpoint _) => true
  | _ => false

/-- The run ended faulted: halted with another reason (R274, D28). -/
def State.endedFaulted (s : State) : Bool :=
  match s.status with
  | .running => false
  | .halted (.breakpoint _) => false
  | .halted _ => true

end Sys2Proof.Machine
end

