-- ==== Sys2Proof/Certificates/Slice0/Obligations.lean ====
section
/-! DEFINITION. The statements for the provers, each with the rules of the spec it is read from. -/

open Sys2Proof Sys2Proof.Machine

/-- For every well-formed instruction of all 47, at every operand value its format admits, decode (encode i) is i: no
bit of an encoding is dropped. [derived: 30_encoding.md R62, R63, R64, R65, R66, R67, R79] -/
def Obligations.DecodeOfEncode : Prop :=
  ∀ i : Instr, i.wellFormed = true → decode (encode i) = .ok i

/-- For every 32-bit word w, if decode w is the instruction i, then i is well-formed and encode i is w: each word has
one meaning and every bit of it is accounted for. [derived: 30_encoding.md R61, R62, R79, R83] -/
def Obligations.EncodeOfDecode : Prop :=
  ∀ (w : Word) (i : Instr), decode w = .ok i → i.wellFormed = true ∧ encode i = w

/-- Every instruction has a row of the opcode table, and a word has a row's fixed bits if and only if the decode
function (R79) reads from it an instruction of that row. So a word with no row is illegal. [derived:
opcode_table.json, 30_encoding.md R70, R71, R72, R73, R74, R75, R77, R78, R79] -/
def Obligations.DecodeMatchesOpcodeTable : Prop :=
  (∀ i : Instr, i.row ∈ opcodeRows) ∧
  ∀ w : Word, ∀ r ∈ opcodeRows, r.covers w = true ↔ ∃ i, decode w = .ok i ∧ i.row = r

/-- For every 32-bit word, two rows of the opcode table whose fixed bits it has are the same row. [derived:
opcode_table.json, 30_encoding.md R79] -/
def Obligations.OpcodeRowsNeverOverlap : Prop :=
  ∀ w : Word, ∀ r ∈ opcodeRows, ∀ r' ∈ opcodeRows, r.covers w = true → r'.covers w = true → r = r'

/-- The seven scenario words and words with every immediate format's extreme bits decode as the spec's tables say (a
sanity statement). [derived: 95_test_vectors.md L1.1, L2.1, 30_encoding.md R79] -/
def Obligations.WordsOfTheSpecDecode : Prop :=
  decode 0x006283B3#32 = .ok (.add 7#5 5#5 6#5) ∧ decode 0x406283B3#32 = .ok (.sub 7#5 5#5 6#5) ∧
  decode 0x100002EF#32 = .ok (.jal 5#5 0x100#32) ∧ decode 0x02628063#32 = .ok (.beq 5#5 6#5 0x20#32) ∧
  decode 0x00000073#32 = .ok .ecall ∧ decode 0x4062D3B3#32 = .ok (.sra 7#5 5#5 6#5) ∧
  decode 0x0262C063#32 = .ok (.blt 5#5 6#5 0x20#32) ∧ decode 0x00100073#32 = .ok .ebreak ∧
  decode 0xFE20AE23#32 = .ok (.sw 2#5 1#5 0xFFFFFFFC#32) ∧ decode 0x000000E3#32 = .ok (.beq 0#5 0#5 0x800#32) ∧
  decode 0x0010006F#32 = .ok (.jal 0#5 0x800#32) ∧ decode 0xFFFFF0B7#32 = .ok (.lui 1#5 0xFFFFF000#32) ∧
  decode 0x41F15093#32 = .ok (.srai 1#5 2#5 31#5) ∧ decode 0xFFF28067#32 = .ok (.jalr 0#5 5#5 0xFFFFFFFF#32)

/-- For every word: immI, immS, immB, immJ, read signed, are the sums of their fields with the top bit negative (so they
lie in the stated ranges and immB, immJ are even), and immU is 4096 times inst[31:12]. [derived: 30_encoding.md R63,
R64, R65, R66, R67, R69] -/
def Obligations.ImmediatesReadTheirBits : Prop :=
  ∀ w : Word,
  (immI w).toInt = -2048 * bitField w 31 1 + bitField w 20 11 ∧
  (immS w).toInt = -2048 * bitField w 31 1 + 32 * bitField w 25 6 + bitField w 7 5 ∧
  (immB w).toInt = -4096 * bitField w 31 1 + 2048 * bitField w 7 1 + 32 * bitField w 25 6 + 2 * bitField w 8 4 ∧
  ((immU w).toNat : Int) = 4096 * bitField w 12 20 ∧
  (immJ w).toInt =
    -1048576 * bitField w 31 1 + 4096 * bitField w 12 8 + 2048 * bitField w 20 1 + 2 * bitField w 21 10

/-- When a word decodes, its opcode is 0x33 exactly for class R, 0x13 or 0x67 for I-arith (JALR is in class I), 0x03 for
I-load, 0x23 for S, 0x63 for B, 0x37 or 0x17 for U, 0x6F for J, 0x73 for SYSTEM. Its decoded record has that class, the
instruction's mnemonic, the word's funct3, funct7, rd, rs1 and rs2, used or not, and the immediate of its class (immI
for I-arith, the shift-immediates, JALR, I-load and SYSTEM); and the record alone gives the instruction back. A word
that does not decode has no record. [derived: 30_encoding.md R70, R79, R80] -/
def Obligations.ClassFollowsOpcode : Prop :=
  (∀ (w : Word) (e : DecodeError), decode w = .error e → decodeRecord w = .error e) ∧
  ∀ (w : Word) (i : Instr), decode w = .ok i →
  (i.cls = .r ↔ opcodeOf w = 0x33#7) ∧ (i.cls = .iArith ↔ opcodeOf w = 0x13#7 ∨ opcodeOf w = 0x67#7) ∧
  (i.cls = .iLoad ↔ opcodeOf w = 0x03#7) ∧ (i.cls = .s ↔ opcodeOf w = 0x23#7) ∧
  (i.cls = .b ↔ opcodeOf w = 0x63#7) ∧ (i.cls = .u ↔ opcodeOf w = 0x37#7 ∨ opcodeOf w = 0x17#7) ∧
  (i.cls = .j ↔ opcodeOf w = 0x6F#7) ∧ (i.cls = .system ↔ opcodeOf w = 0x73#7) ∧
  ∃ d, decodeRecord w = .ok d ∧ d.cls = i.cls ∧ d.mnemonic = i.mnemonic ∧ d.funct3 = funct3Of w ∧ d.funct7 = funct7Of w ∧
    d.rd = rdOf w ∧ d.rs1 = rs1Of w ∧ d.rs2 = rs2Of w ∧ (d.cls = .r → d.imm = 0#32) ∧
    (d.cls = .iArith ∨ d.cls = .iLoad ∨ d.cls = .system → d.imm = immI w) ∧ (d.cls = .s → d.imm = immS w) ∧
    (d.cls = .b → d.imm = immB w) ∧ (d.cls = .u → d.imm = immU w) ∧ (d.cls = .j → d.imm = immJ w) ∧ d.instr = i

/-- For every running state whose pc is aligned and in range: if the word there has an opcode outside the ten, or opcode
0x73 without being ECALL's or EBREAK's word, the step answers the state halted with IllegalInstruction, recording pc
and word, and nothing else changes. [stated: R81, R82] -/
def Obligations.UnlistedOpcodesHalt : Prop :=
  ∀ (s : State) (w : Word), s.status = .running → s.pc.toNat % 4 = 0 → s.memRead s.pc 4 = some w →
  opcodeOf w ∉ [0x33#7, 0x13#7, 0x03#7, 0x23#7, 0x63#7, 0x37#7, 0x17#7, 0x6F#7, 0x67#7, 0x73#7] ∨
    (opcodeOf w = 0x73#7 ∧ w ≠ 0x00000073#32 ∧ w ≠ 0x00100073#32) →
  ∃ t, step s = .next t ∧ HaltedWith s t (.illegalInstruction s.pc w)

/-- For every running state whose pc is aligned and in range: a word of opcode 0x33, 0x13, 0x03, 0x23, 0x63 or 0x67
whose funct3 or funct7 (inst[31:25] for the shift-immediates) is not in the table of its class halts the step with
IllegalInstruction, and nothing else changes. [derived: 30_encoding.md R71, R72, R73, R74, R75, R77,
60_exceptions.md R221] -/
def Obligations.UnlistedFunctionCodesHalt : Prop :=
  ∀ (s : State) (w : Word), s.status = .running → s.pc.toNat % 4 = 0 → s.memRead s.pc 4 = some w →
  (opcodeOf w = 0x33#7 ∧ (funct7Of w ∉ [0x00#7, 0x01#7, 0x20#7] ∨
      (funct7Of w = 0x20#7 ∧ funct3Of w ∉ [0#3, 5#3]))) ∨
    (opcodeOf w = 0x13#7 ∧ funct3Of w = 1#3 ∧ funct7Of w ≠ 0x00#7) ∨
    (opcodeOf w = 0x13#7 ∧ funct3Of w = 5#3 ∧ funct7Of w ∉ [0x00#7, 0x20#7]) ∨
    (opcodeOf w = 0x03#7 ∧ funct3Of w ∈ [3#3, 6#3, 7#3]) ∨
    (opcodeOf w = 0x23#7 ∧ funct3Of w ∉ [0#3, 1#3, 2#3]) ∨
    (opcodeOf w = 0x63#7 ∧ funct3Of w ∈ [2#3, 3#3]) ∨
    (opcodeOf w = 0x67#7 ∧ funct3Of w ≠ 0#3) →
  ∃ t, step s = .next t ∧ HaltedWith s t (.illegalInstruction s.pc w)

/-- For every running state: if pc mod 4 is not 0 or pc + 4 exceeds mem_size (in the integers), the step answers the
state halted with FetchFault(pc) and nothing else changed; otherwise MemRead(pc, 4) succeeds with a word, and the
step is the execution of what the word decodes to, or the halt with IllegalInstruction. [stated: R45] -/
def Obligations.FetchFollowsItsRule : Prop :=
  ∀ s : State, s.status = .running →
  (s.pc.toNat % 4 ≠ 0 ∨ s.params.memSize < s.pc.toNat + 4 →
    ∃ t, step s = .next t ∧ HaltedWith s t (.fetchFault s.pc)) ∧
  (s.pc.toNat % 4 = 0 → s.pc.toNat + 4 ≤ s.params.memSize →
    ∃ w, s.memRead s.pc 4 = some w ∧
      (∀ i, decode w = .ok i → step s = exec i s) ∧
      (∀ e, decode w = .error e → ∃ t, step s = .next t ∧ HaltedWith s t (.illegalInstruction s.pc w)))

/-- For every running state with an aligned pc: if the word at the pc decodes to the instruction i, which is then well-
formed, the step is exec i on that state; the step adds nothing around exec on this hardware (the instruction's
meaning sets the pc). [derived: 70_reset_and_hazards.md R261, 20_memory.md R45] -/
def Obligations.StepRunsDecodedInstruction : Prop :=
  ∀ (s : State) (w : Word) (i : Instr), s.status = .running → s.pc.toNat % 4 = 0 → s.memRead s.pc 4 = some w →
  decode w = .ok i → i.wellFormed = true ∧ step s = exec i s

/-- For every instruction, well-formed or not, and every state, exec answers a next state; and so does step. Every fault
of this hardware is a halt, and a halt is a state. [derived: 70_reset_and_hazards.md R260, R261, 60_exceptions.md
R222] -/
def Obligations.EveryStepAnswersNext : Prop :=
  (∀ (i : Instr) (s : State), ∃ t, exec i s = .next t) ∧ ∀ s : State, ∃ t, step s = .next t

/-- For every state whose status is Halted, whatever the reason, step answers that same state (of the two readings the
rule allows, the model takes the identity: log 5). [stated: R264] -/
def Obligations.HaltedStepChangesNothing : Prop :=
  ∀ (s : State) (h : Halt), s.status = .halted h → step s = .next s

/-- For every running state and every instruction it may hold: if the step answers a halted state, then registers,
memory, pc, console, frames, host calls and parameters are as before, and the halt records that pc. [stated: R222] -/
def Obligations.HaltsArePrecise : Prop :=
  ∀ (s t : State) (h : Halt), s.status = .running → step s = .next t → t.status = .halted h →
  HaltedWith s t h ∧ h.pc = s.pc

/-- For every state with the invariant (mem_size in its range; x0's slot zero; memory in canonical form with no byte
listed outside [0, mem_size); every frame one VRAM slice long; a halt's recorded pc the pc), whatever instruction
and host answer: if step answers a next state, that state has the invariant. [derived: 00_scope.md R7, 10_state.md
R22, R27, R28, 60_exceptions.md R221, 70_reset_and_hazards.md R265] -/
def Obligations.StepKeepsInvariant : Prop :=
  ∀ s t : State, s.Inv → step s = .next t → t.Inv

/-- State.reset has the invariant that every step keeps. [derived: 10_state.md R33, 00_scope.md R7] -/
def Obligations.ResetMeetsInvariant : Prop :=
  State.reset.Inv

/-- State.reset is the launch with the spec's default parameters, no image, and zeros for the registers and memory bytes
the spec leaves to the launch (the model's choice: log 1, log 2); its pc is 0, its status Running, x0 reads 0,
console and frames are empty. [derived: 10_state.md R33, 70_reset_and_hazards.md R266, R267] -/
def Obligations.ResetIsTheDefaultLaunch : Prop :=
  launch LaunchInputs.default = some State.reset ∧ State.reset.pc = 0#32 ∧ State.reset.status = .running ∧
  State.reset.getReg 0#5 = 0#32 ∧ State.reset.console = [] ∧ State.reset.frames = [] ∧
  State.reset.params.memSize = 3872 ∧ State.reset.params.vramBase = 3072#32 ∧ State.reset.params.vramLen = 800#32

/-- A launch is refused exactly when mem_size is outside its range or load_base plus the image's length exceeds
mem_size; otherwise pc is initial_pc, x0 reads 0 and x1..x31 the given values, the image stands at load_base, every
other byte below mem_size is the given one, the status is Running and console and frames are empty. (Refusing a
mem_size outside its range is the model's choice: log 21.) [derived: 70_reset_and_hazards.md R266, R270, 10_state.md
R33, 00_scope.md R7] -/
def Obligations.LaunchFollowsItsRule : Prop :=
  ∀ l : LaunchInputs,
  (launch l = none ↔ ¬(4 ≤ l.params.memSize ∧ l.params.memSize ≤ 2 ^ 32) ∨
    l.params.memSize < l.loadBase.toNat + l.image.length) ∧
  ∀ t, launch l = some t →
    t.pc = l.initialPc ∧ (∀ r : RegIdx, t.getReg r = if r = 0#5 then 0#32 else l.regs[r.toNat]) ∧
    (∀ k (h : k < l.image.length), t.mem.read (l.loadBase.toNat + k) = l.image[k]) ∧
    (∀ x, x < l.params.memSize → x < l.loadBase.toNat ∨ l.loadBase.toNat + l.image.length ≤ x →
      t.mem.read x = initialByte l.mem x) ∧
    t.status = .running ∧ t.console = [] ∧ t.frames = [] ∧ t.params = l.params

/-- For every launch input: if launch yields a state, that state has the invariant that every step keeps, so every state
of every run has it. [derived: 70_reset_and_hazards.md R266, 10_state.md R33] -/
def Obligations.LaunchMeetsInvariant : Prop :=
  ∀ (l : LaunchInputs) (t : State), launch l = some t → t.Inv

/-- For every state with an even pc, if step answers a next state its pc is even: every advance is by 4, every decoded
branch and JAL offset is even, and JALR clears bit 0. [derived: 10_state.md R25, 30_encoding.md R69, 47_jumps.md
R196, 70_reset_and_hazards.md R263] -/
def Obligations.PcStaysEven : Prop :=
  ∀ s t : State, s.pc.toNat % 2 = 0 → step s = .next t → t.pc.toNat % 2 = 0

/-- In every state x0 reads 0, a write of any value to index 0 gives the same state, x0 reads 0 after every step, and an
instruction whose destination is x0 leaves every register as it was. [stated: R22] -/
def Obligations.ZeroRegisterIsHardWired : Prop :=
  (∀ (s : State) (v : Word), s.getReg 0#5 = 0#32 ∧ s.setReg 0#5 v = s) ∧
  (∀ s t : State, step s = .next t → t.getReg 0#5 = 0#32) ∧
  ∀ (i : Instr) (s t : State), destOf i = some 0#5 → exec i s = .next t → t.regs = s.regs

/-- For every state and step: a register that reads differently afterwards is the destination of the instruction at the
pc (rd, or a0 for ECALL); stores, branches, EBREAK and halts change none. [derived: 10_state.md R23,
70_reset_and_hazards.md R262, 60_exceptions.md R237] -/
def Obligations.StepWritesOnlyItsDestination : Prop :=
  ∀ (s t : State) (r : RegIdx), step s = .next t → t.getReg r ≠ s.getReg r →
  ∃ i, s.fetchInstr = .ok i ∧ destOf i = some r

/-- For every state and step: if some byte of memory reads differently afterwards, the instruction at the pc is a store,
or it is ECALL with a7 = 0x0D (READ). [derived: 10_state.md R27, 20_memory.md R52] -/
def Obligations.OnlyStoresAndReadWriteMemory : Prop :=
  ∀ (s t : State) (x : Nat), step s = .next t → t.mem.read x ≠ s.mem.read x →
  ∃ i, s.fetchInstr = .ok i ∧ (isStore i = true ∨ (i = .ecall ∧ s.getReg 17#5 = 0x0D#32))

/-- For every step: console, frames and the record of host calls are extended, never cut or altered; a console that
changed means ECALL with a7 = 1 at the pc, and frames that changed ECALL with a7 = 2. [derived: 10_state.md R28,
60_exceptions.md R241, R242] -/
def Obligations.OutputLogsOnlyGrow : Prop :=
  ∀ s t : State, step s = .next t →
  (∃ c, t.console = s.console ++ c) ∧ (∃ f, t.frames = s.frames ++ f) ∧ (∃ q, t.hostCalls = s.hostCalls ++ q) ∧
  (t.console ≠ s.console → s.fetchInstr = .ok .ecall ∧ s.getReg 17#5 = 0x01#32) ∧
  (t.frames ≠ s.frames → s.fetchInstr = .ok .ecall ∧ s.getReg 17#5 = 0x02#32)

/-- For every step, mem_size, vram_base, vram_len and the host's descriptor_start are afterwards what they were.
[derived: 10_state.md R34] -/
def Obligations.ParametersNeverChange : Prop :=
  ∀ s t : State, step s = .next t → t.params = s.params

/-- For every running state: if the step answers a running state, the instruction at the pc is some i, and the new pc is
pc + 4 unless i is a branch (pc + imm or pc + 4), JAL (pc + imm) or JALR ((x[rs1] + imm) with bit 0 cleared).
[derived: 10_state.md R25, 70_reset_and_hazards.md R263] -/
def Obligations.PcAdvancesOrGoesToItsTarget : Prop :=
  ∀ s t : State, s.status = .running → step s = .next t → t.status = .running →
  ∃ i, s.fetchInstr = .ok i ∧ MayGoTo s i t.pc

/-- For every state and address: MemRead(a, n) for n = 1, 2, 4 answers nothing when a + n exceeds mem_size in the
integers, and otherwise the value whose unsigned reading is the sum of M[a+k] times 256^k, zero above. It answers no
state: a read changes none. [stated: R42] -/
def Obligations.MemReadFollowsItsRule : Prop :=
  ∀ (s : State) (a : Word),
  (∀ n, n = 1 ∨ n = 2 ∨ n = 4 → s.params.memSize < a.toNat + n → s.memRead a n = none) ∧
  (a.toNat + 1 ≤ s.params.memSize → ∃ v, s.memRead a 1 = some v ∧ v.toNat = (s.mem.read a.toNat).toNat) ∧
  (a.toNat + 2 ≤ s.params.memSize → ∃ v, s.memRead a 2 = some v ∧
    v.toNat = (s.mem.read a.toNat).toNat + (s.mem.read (a.toNat + 1)).toNat * 2 ^ 8) ∧
  (a.toNat + 4 ≤ s.params.memSize → ∃ v, s.memRead a 4 = some v ∧
    v.toNat = (s.mem.read a.toNat).toNat + (s.mem.read (a.toNat + 1)).toNat * 2 ^ 8 +
      (s.mem.read (a.toNat + 2)).toNat * 2 ^ 16 + (s.mem.read (a.toNat + 3)).toNat * 2 ^ 24)

/-- For every state with canonical memory, address and value: MemWrite(a, n, v) for n = 1, 2, 4 answers nothing when a +
n exceeds mem_size in the integers; otherwise byte a + k becomes v[8k+7:8k] for k below n, and every other byte, the
registers, pc, status, logs and parameters are as before. [stated: R43] -/
def Obligations.MemWriteFollowsItsRule : Prop :=
  ∀ (s : State) (a v : Word) (n : Nat), s.mem.wf = true → n = 1 ∨ n = 2 ∨ n = 4 →
  (s.params.memSize < a.toNat + n → s.memWrite a n v = none) ∧
  (a.toNat + n ≤ s.params.memSize → ∃ t, s.memWrite a n v = some t ∧
    (∀ k, k < n → t.mem.read (a.toNat + k) = v.extractLsb' (8 * k) 8) ∧
    (∀ x, x < a.toNat ∨ a.toNat + n ≤ x → t.mem.read x = s.mem.read x) ∧
    t.regs = s.regs ∧ t.pc = s.pc ∧ SameOutputs s t)

/-- For every state with canonical memory: ReadRange(a, len) and WriteRange(a, bytes) answer nothing when the length is
positive and a + len exceeds mem_size in the integers; otherwise, and whatever a is when the length is 0, the read
answers the len bytes from a up and the write sets exactly those bytes. [stated: R44] -/
def Obligations.RangesFollowTheirRule : Prop :=
  ∀ (s : State) (a : Word) (len : Nat) (bytes : List Byte), s.mem.wf = true →
  (0 < len → s.params.memSize < a.toNat + len → s.readRange a len = none) ∧
  (len = 0 ∨ a.toNat + len ≤ s.params.memSize →
    ∃ got, s.readRange a len = some got ∧ got.length = len ∧ BytesAt s a.toNat got) ∧
  (0 < bytes.length → s.params.memSize < a.toNat + bytes.length → s.writeRange a bytes = none) ∧
  (bytes.length = 0 ∨ a.toNat + bytes.length ≤ s.params.memSize →
    ∃ t, s.writeRange a bytes = some t ∧ BytesAt t a.toNat bytes ∧
      (∀ x, x < a.toNat ∨ a.toNat + bytes.length ≤ x → t.mem.read x = s.mem.read x) ∧
      t.regs = s.regs ∧ t.pc = s.pc ∧ SameOutputs s t)

/-- For every state with canonical memory and mem_size at most 2^32, and a + 4 in bounds: after MemWrite(a, 4, v),
MemRead at a and a + 1 of one byte, and at a and a + 2 of two, give v[7:0], v[15:8], v[15:0], v[31:16]; after
MemWrite(a + 1, 1, b), the word at a is the old word with bits 15:8 replaced by b's low byte; and a byte written at
an address in bounds reads back. [stated: R47] -/
def Obligations.MixedWidthsSeeTheSameBytes : Prop :=
  ∀ (s : State) (a v b : Word), s.mem.wf = true → s.params.memSize ≤ 2 ^ 32 →
  (a.toNat + 4 ≤ s.params.memSize →
    (∀ t, s.memWrite a 4 v = some t →
      t.memRead a 1 = some ((v.extractLsb' 0 8).setWidth 32) ∧
      t.memRead (a + 1#32) 1 = some ((v.extractLsb' 8 8).setWidth 32) ∧
      t.memRead a 2 = some ((v.extractLsb' 0 16).setWidth 32) ∧
      t.memRead (a + 2#32) 2 = some ((v.extractLsb' 16 16).setWidth 32)) ∧
    (∀ t w, s.memWrite (a + 1#32) 1 b = some t → s.memRead a 4 = some w →
      t.memRead a 4 = some ((w &&& 0xFFFF00FF#32) ||| ((b &&& 0xFF#32) <<< 8)))) ∧
  (a.toNat + 1 ≤ s.params.memSize →
    ∃ t, s.memWrite a 1 b = some t ∧ t.memRead a 1 = some (b &&& 0xFF#32))

/-- For every running state with the invariant: if the instruction at the pc is SW with the address pc + 4, and pc + 8
does not exceed mem_size, then after the step the pc is pc + 4 and the instruction fetched there is what the stored
register's value decodes to, or the halt with IllegalInstruction. [derived: 20_memory.md R53,
70_reset_and_hazards.md R272] -/
def Obligations.StoreIsSeenByTheNextFetch : Prop :=
  ∀ (s t : State) (rs2 rs1 : RegIdx) (imm : Word), s.Inv → s.status = .running →
  s.fetchInstr = .ok (.sw rs2 rs1 imm) → s.getReg rs1 + imm = s.pc + 4#32 → s.pc.toNat + 8 ≤ s.params.memSize →
  step s = .next t →
  t.pc = s.pc + 4#32 ∧ (∀ i, decode (s.getReg rs2) = .ok i → t.fetchInstr = .ok i) ∧
  (∀ e, decode (s.getReg rs2) = .error e → t.fetchInstr = .error (.illegalInstruction t.pc (s.getReg rs2)))

/-- In every state ADD and SUB complete: rd becomes the sum or difference of the old x[rs1] and x[rs2] modulo 2^32
(nothing is written when rd is x0) and pc becomes pc + 4. Nothing else changes: other registers, memory, logs, host
calls, status. Their words have the stated match under the stated mask. [stated: R101, R102] -/
def Obligations.AddAndSubWrap : Prop :=
  ∀ (s : State) (rd rs1 rs2 : RegIdx),
  Encoded (.add rd rs1 rs2) 0xFE00707F#32 0x00000033#32 ∧
  Encoded (.sub rd rs1 rs2) 0xFE00707F#32 0x40000033#32 ∧
  (∃ t, exec (.add rd rs1 rs2) s = .next t ∧ WroteReg s t rd (BitVec.ofNat 32 ((s.getReg rs1).toNat + (s.getReg rs2).toNat)) (s.pc + 4#32)) ∧
  (∃ t, exec (.sub rd rs1 rs2) s = .next t ∧ WroteReg s t rd (BitVec.ofInt 32 (((s.getReg rs1).toNat : Int) - (s.getReg rs2).toNat)) (s.pc + 4#32))

/-- In every state SLL, SRL and SRA complete: with n = x[rs2] mod 32, rd becomes x[rs1] times 2^n modulo 2^32, the floor
of unsigned x[rs1] over 2^n, or the floor of signed x[rs1] over 2^n; pc becomes pc + 4. Nothing else changes: other
registers, memory, logs, host calls, status. Their words have the stated match under the stated mask. [stated: R103,
R107, R108] -/
def Obligations.RegisterShiftsUseFiveBits : Prop :=
  ∀ (s : State) (rd rs1 rs2 : RegIdx),
  Encoded (.sll rd rs1 rs2) 0xFE00707F#32 0x00001033#32 ∧
  Encoded (.srl rd rs1 rs2) 0xFE00707F#32 0x00005033#32 ∧
  Encoded (.sra rd rs1 rs2) 0xFE00707F#32 0x40005033#32 ∧
  (∃ t, exec (.sll rd rs1 rs2) s = .next t ∧ WroteReg s t rd (BitVec.ofNat 32 ((s.getReg rs1).toNat * 2 ^ ((s.getReg rs2).toNat % 32))) (s.pc + 4#32)) ∧
  (∃ t, exec (.srl rd rs1 rs2) s = .next t ∧ WroteReg s t rd (BitVec.ofNat 32 ((s.getReg rs1).toNat / 2 ^ ((s.getReg rs2).toNat % 32))) (s.pc + 4#32)) ∧
  (∃ t, exec (.sra rd rs1 rs2) s = .next t ∧ WroteReg s t rd (BitVec.ofInt 32 ((s.getReg rs1).toInt / 2 ^ ((s.getReg rs2).toNat % 32))) (s.pc + 4#32))

/-- In every state SLT and SLTU complete: rd becomes 1 if x[rs1] is less than x[rs2], read signed for SLT and unsigned
for SLTU, else 0; pc becomes pc + 4. Nothing else changes: other registers, memory, logs, host calls, status. Their
words have the stated match under the stated mask. [stated: R104, R105] -/
def Obligations.RegisterComparisonsWriteZeroOrOne : Prop :=
  ∀ (s : State) (rd rs1 rs2 : RegIdx),
  Encoded (.slt rd rs1 rs2) 0xFE00707F#32 0x00002033#32 ∧
  Encoded (.sltu rd rs1 rs2) 0xFE00707F#32 0x00003033#32 ∧
  (∃ t, exec (.slt rd rs1 rs2) s = .next t ∧ WroteReg s t rd (if (s.getReg rs1).toInt < (s.getReg rs2).toInt then 1#32 else 0#32) (s.pc + 4#32)) ∧
  (∃ t, exec (.sltu rd rs1 rs2) s = .next t ∧ WroteReg s t rd (if (s.getReg rs1).toNat < (s.getReg rs2).toNat then 1#32 else 0#32) (s.pc + 4#32))

/-- In every state XOR, OR and AND complete: bit k of the value written to rd is the exclusive or, or, and of bits k of
x[rs1] and x[rs2]; pc becomes pc + 4. Nothing else changes: other registers, memory, logs, host calls, status. Their
words have the stated match under the stated mask. [stated: R106, R109, R110] -/
def Obligations.BitwiseOperationsActBitByBit : Prop :=
  ∀ (s : State) (rd rs1 rs2 : RegIdx),
  Encoded (.xor rd rs1 rs2) 0xFE00707F#32 0x00004033#32 ∧
  Encoded (.or rd rs1 rs2) 0xFE00707F#32 0x00006033#32 ∧
  Encoded (.and rd rs1 rs2) 0xFE00707F#32 0x00007033#32 ∧
  (∃ t v, exec (.xor rd rs1 rs2) s = .next t ∧ WroteReg s t rd v (s.pc + 4#32) ∧ ∀ k, k < 32 → v.getLsbD k = ((s.getReg rs1).getLsbD k ^^ (s.getReg rs2).getLsbD k)) ∧
  (∃ t v, exec (.or rd rs1 rs2) s = .next t ∧ WroteReg s t rd v (s.pc + 4#32) ∧ ∀ k, k < 32 → v.getLsbD k = ((s.getReg rs1).getLsbD k || (s.getReg rs2).getLsbD k)) ∧
  (∃ t v, exec (.and rd rs1 rs2) s = .next t ∧ WroteReg s t rd v (s.pc + 4#32) ∧ ∀ k, k < 32 → v.getLsbD k = ((s.getReg rs1).getLsbD k && (s.getReg rs2).getLsbD k))

/-- In every state the four multiplies complete: MUL writes the product modulo 2^32; MULH, MULHSU and MULHU write the
value whose signed (for MULHU unsigned) reading is the floor of the exact product over 2^32, of signed by signed,
signed x[rs1] by unsigned x[rs2], unsigned by unsigned; pc becomes pc + 4. Nothing else changes: other registers,
memory, logs, host calls, status. Their words have the stated match under the stated mask. [stated: R121, R122,
R123, R124] -/
def Obligations.ProductsAreCutFromTheExactOne : Prop :=
  ∀ (s : State) (rd rs1 rs2 : RegIdx),
  Encoded (.mul rd rs1 rs2) 0xFE00707F#32 0x02000033#32 ∧
  Encoded (.mulh rd rs1 rs2) 0xFE00707F#32 0x02001033#32 ∧
  Encoded (.mulhsu rd rs1 rs2) 0xFE00707F#32 0x02002033#32 ∧
  Encoded (.mulhu rd rs1 rs2) 0xFE00707F#32 0x02003033#32 ∧
  (∃ t, exec (.mul rd rs1 rs2) s = .next t ∧ WroteReg s t rd (BitVec.ofNat 32 ((s.getReg rs1).toNat * (s.getReg rs2).toNat)) (s.pc + 4#32)) ∧
  (∃ t v, exec (.mulh rd rs1 rs2) s = .next t ∧ WroteReg s t rd v (s.pc + 4#32) ∧ v.toInt = (s.getReg rs1).toInt * (s.getReg rs2).toInt / 2 ^ 32) ∧
  (∃ t v, exec (.mulhsu rd rs1 rs2) s = .next t ∧ WroteReg s t rd v (s.pc + 4#32) ∧ v.toInt = (s.getReg rs1).toInt * (s.getReg rs2).toNat / 2 ^ 32) ∧
  (∃ t v, exec (.mulhu rd rs1 rs2) s = .next t ∧ WroteReg s t rd v (s.pc + 4#32) ∧ v.toNat = (s.getReg rs1).toNat * (s.getReg rs2).toNat / 2 ^ 32)

/-- In every state the four divisions complete: a zero divisor gives 0xFFFFFFFF for DIV and DIVU and the dividend for
REM and REMU; INT_MIN by -1 gives INT_MIN for DIV and 0 for REM; otherwise DIV and REM write the values whose signed
readings are the quotient rounded toward zero and the remainder left by it, DIVU and REMU the unsigned quotient and
remainder; pc becomes pc + 4. Nothing else changes: other registers, memory, logs, host calls, status. Their words
have the stated match under the stated mask. [stated: R125, R126, R127, R128] -/
def Obligations.DivisionsWriteTheirQuotientsAndRemainders : Prop :=
  ∀ (s : State) (rd rs1 rs2 : RegIdx),
  Encoded (.div rd rs1 rs2) 0xFE00707F#32 0x02004033#32 ∧
  Encoded (.divu rd rs1 rs2) 0xFE00707F#32 0x02005033#32 ∧
  Encoded (.rem rd rs1 rs2) 0xFE00707F#32 0x02006033#32 ∧
  Encoded (.remu rd rs1 rs2) 0xFE00707F#32 0x02007033#32 ∧
  (∃ t v, exec (.div rd rs1 rs2) s = .next t ∧ WroteReg s t rd v (s.pc + 4#32) ∧ ((s.getReg rs2) = 0#32 → v = 0xFFFFFFFF#32) ∧ ((s.getReg rs1) = 0x80000000#32 ∧ (s.getReg rs2) = 0xFFFFFFFF#32 → v = 0x80000000#32) ∧
    ((s.getReg rs2) ≠ 0#32 → ¬((s.getReg rs1) = 0x80000000#32 ∧ (s.getReg rs2) = 0xFFFFFFFF#32) → v.toInt = (s.getReg rs1).toInt.tdiv (s.getReg rs2).toInt)) ∧
  (∃ t v, exec (.divu rd rs1 rs2) s = .next t ∧ WroteReg s t rd v (s.pc + 4#32) ∧ v.toNat = if (s.getReg rs2).toNat = 0 then 2 ^ 32 - 1 else (s.getReg rs1).toNat / (s.getReg rs2).toNat) ∧
  (∃ t v, exec (.rem rd rs1 rs2) s = .next t ∧ WroteReg s t rd v (s.pc + 4#32) ∧ ((s.getReg rs2) = 0#32 → v = (s.getReg rs1)) ∧ ((s.getReg rs1) = 0x80000000#32 ∧ (s.getReg rs2) = 0xFFFFFFFF#32 → v = 0#32) ∧
    ((s.getReg rs2) ≠ 0#32 → ¬((s.getReg rs1) = 0x80000000#32 ∧ (s.getReg rs2) = 0xFFFFFFFF#32) → v.toInt = (s.getReg rs1).toInt - (s.getReg rs1).toInt.tdiv (s.getReg rs2).toInt * (s.getReg rs2).toInt)) ∧
  (∃ t v, exec (.remu rd rs1 rs2) s = .next t ∧ WroteReg s t rd v (s.pc + 4#32) ∧ v.toNat = if (s.getReg rs2).toNat = 0 then (s.getReg rs1).toNat else (s.getReg rs1).toNat % (s.getReg rs2).toNat)

/-- For every state and rd other than x0, with q, r the values DIV and REM leave in rd and qu, ru those of DIVU and
REMU: a zero divisor gives all-ones quotients and the dividend as remainders; INT_MIN by -1 gives INT_MIN and 0;
otherwise signed a = q * b + r with |r| < |b| and r zero or of a's sign; and for a nonzero divisor unsigned a = qu *
b + ru with ru < b. [stated: R129, R130] -/
def Obligations.DivisionLawsHold : Prop :=
  ∀ (s tq tr uq ur : State) (rd rs1 rs2 : RegIdx), rd ≠ 0#5 →
  exec (.div rd rs1 rs2) s = .next tq → exec (.rem rd rs1 rs2) s = .next tr →
  exec (.divu rd rs1 rs2) s = .next uq → exec (.remu rd rs1 rs2) s = .next ur →
  ((s.getReg rs2) = 0#32 → tq.getReg rd = 0xFFFFFFFF#32 ∧ tr.getReg rd = (s.getReg rs1) ∧
    uq.getReg rd = 0xFFFFFFFF#32 ∧ ur.getReg rd = (s.getReg rs1)) ∧
  ((s.getReg rs1) = 0x80000000#32 ∧ (s.getReg rs2) = 0xFFFFFFFF#32 → tq.getReg rd = 0x80000000#32 ∧ tr.getReg rd = 0#32) ∧
  ((s.getReg rs2) ≠ 0#32 → ¬((s.getReg rs1) = 0x80000000#32 ∧ (s.getReg rs2) = 0xFFFFFFFF#32) →
    (s.getReg rs1).toInt = (tq.getReg rd).toInt * (s.getReg rs2).toInt + (tr.getReg rd).toInt ∧
    (tr.getReg rd).toInt.natAbs < (s.getReg rs2).toInt.natAbs ∧
    ((tr.getReg rd).toInt = 0 ∨ (tr.getReg rd).toInt.sign = (s.getReg rs1).toInt.sign)) ∧
  ((s.getReg rs2) ≠ 0#32 → (s.getReg rs1).toNat = (uq.getReg rd).toNat * (s.getReg rs2).toNat + (ur.getReg rd).toNat ∧
    (ur.getReg rd).toNat < (s.getReg rs2).toNat)

/-- In every state ADDI, SLTI and SLTIU complete: rd becomes x[rs1] plus the sign-extended immediate modulo 2^32, or 1
or 0 as x[rs1] is less than it, both read signed (SLTI) or unsigned (SLTIU); pc becomes pc + 4. Nothing else
changes: other registers, memory, logs, host calls, status. Their words have the stated match under the stated mask.
[stated: R141, R142, R143] -/
def Obligations.ImmediateAddAndComparisons : Prop :=
  ∀ (s : State) (rd rs1 : RegIdx) (imm : Word),
  Encoded (.addi rd rs1 imm) 0x0000707F#32 0x00000013#32 ∧
  Encoded (.slti rd rs1 imm) 0x0000707F#32 0x00002013#32 ∧
  Encoded (.sltiu rd rs1 imm) 0x0000707F#32 0x00003013#32 ∧
  (∃ t, exec (.addi rd rs1 imm) s = .next t ∧ WroteReg s t rd (BitVec.ofNat 32 ((s.getReg rs1).toNat + imm.toNat)) (s.pc + 4#32)) ∧
  (∃ t, exec (.slti rd rs1 imm) s = .next t ∧ WroteReg s t rd (if (s.getReg rs1).toInt < imm.toInt then 1#32 else 0#32) (s.pc + 4#32)) ∧
  (∃ t, exec (.sltiu rd rs1 imm) s = .next t ∧ WroteReg s t rd (if (s.getReg rs1).toNat < imm.toNat then 1#32 else 0#32) (s.pc + 4#32))

/-- In every state XORI, ORI and ANDI complete: bit k of the value written to rd is the exclusive or, or, and of bits k
of x[rs1] and the immediate; pc becomes pc + 4. Nothing else changes: other registers, memory, logs, host calls,
status. Their words have the stated match under the stated mask. [stated: R144, R145, R146] -/
def Obligations.ImmediateBitwiseOperations : Prop :=
  ∀ (s : State) (rd rs1 : RegIdx) (imm : Word),
  Encoded (.xori rd rs1 imm) 0x0000707F#32 0x00004013#32 ∧
  Encoded (.ori rd rs1 imm) 0x0000707F#32 0x00006013#32 ∧
  Encoded (.andi rd rs1 imm) 0x0000707F#32 0x00007013#32 ∧
  (∃ t v, exec (.xori rd rs1 imm) s = .next t ∧ WroteReg s t rd v (s.pc + 4#32) ∧ ∀ k, k < 32 → v.getLsbD k = ((s.getReg rs1).getLsbD k ^^ imm.getLsbD k)) ∧
  (∃ t v, exec (.ori rd rs1 imm) s = .next t ∧ WroteReg s t rd v (s.pc + 4#32) ∧ ∀ k, k < 32 → v.getLsbD k = ((s.getReg rs1).getLsbD k || imm.getLsbD k)) ∧
  (∃ t v, exec (.andi rd rs1 imm) s = .next t ∧ WroteReg s t rd v (s.pc + 4#32) ∧ ∀ k, k < 32 → v.getLsbD k = ((s.getReg rs1).getLsbD k && imm.getLsbD k))

/-- In every state SLLI, SRLI and SRAI complete: rd becomes x[rs1] times 2^shamt modulo 2^32, the floor of unsigned
x[rs1] over 2^shamt, or the floor of signed x[rs1] over 2^shamt; pc becomes pc + 4. Nothing else changes: other
registers, memory, logs, host calls, status. Their words have the stated match under the stated mask (what other
inst[31:25] do is UnlistedFunctionCodesHalt). [derived: 42_immediate_arith.md R147, R148, R149, 30_encoding.md R68] -/
def Obligations.ImmediateShifts : Prop :=
  ∀ (s : State) (rd rs1 : RegIdx) (shamt : Shamt),
  Encoded (.slli rd rs1 shamt) 0xFE00707F#32 0x00001013#32 ∧
  Encoded (.srli rd rs1 shamt) 0xFE00707F#32 0x00005013#32 ∧
  Encoded (.srai rd rs1 shamt) 0xFE00707F#32 0x40005013#32 ∧
  (∃ t, exec (.slli rd rs1 shamt) s = .next t ∧ WroteReg s t rd (BitVec.ofNat 32 ((s.getReg rs1).toNat * 2 ^ shamt.toNat)) (s.pc + 4#32)) ∧
  (∃ t, exec (.srli rd rs1 shamt) s = .next t ∧ WroteReg s t rd (BitVec.ofNat 32 ((s.getReg rs1).toNat / 2 ^ shamt.toNat)) (s.pc + 4#32)) ∧
  (∃ t, exec (.srai rd rs1 shamt) s = .next t ∧ WroteReg s t rd (BitVec.ofInt 32 ((s.getReg rs1).toInt / 2 ^ shamt.toNat)) (s.pc + 4#32))

/-- In every state, with ea = x[rs1] + imm modulo 2^32 and n bytes: if ea + n does not exceed mem_size, the load
completes, rd becomes the sign- or zero-extended value of the bytes from ea up (aligned or not), pc becomes pc + 4
and nothing else changes; if it does, whatever rd is, the state halts with LoadFault(ea) and nothing else changes.
The words have the stated match under the stated mask. [stated: R161, R162, R163, R164, R165] -/
def Obligations.LoadsExtendTheirBytes : Prop :=
  ∀ (s : State) (rd rs1 : RegIdx) (imm ea : Word), ea = s.getReg rs1 + imm →
  Encoded (.lb rd rs1 imm) 0x0000707F#32 0x00000003#32 ∧
  Encoded (.lh rd rs1 imm) 0x0000707F#32 0x00001003#32 ∧
  Encoded (.lw rd rs1 imm) 0x0000707F#32 0x00002003#32 ∧
  Encoded (.lbu rd rs1 imm) 0x0000707F#32 0x00004003#32 ∧
  Encoded (.lhu rd rs1 imm) 0x0000707F#32 0x00005003#32 ∧
  (ea.toNat + 1 ≤ s.params.memSize →
    ∃ t, exec (.lb rd rs1 imm) s = .next t ∧ WroteReg s t rd ((s.mem.read ea.toNat).signExtend 32) (s.pc + 4#32)) ∧
  (s.params.memSize < ea.toNat + 1 →
    ∃ t, exec (.lb rd rs1 imm) s = .next t ∧ HaltedWith s t (.loadFault s.pc ea)) ∧
  (ea.toNat + 2 ≤ s.params.memSize →
    ∃ t, exec (.lh rd rs1 imm) s = .next t ∧ WroteReg s t rd ((s.mem.read (ea.toNat + 1) ++ s.mem.read ea.toNat).signExtend 32) (s.pc + 4#32)) ∧
  (s.params.memSize < ea.toNat + 2 →
    ∃ t, exec (.lh rd rs1 imm) s = .next t ∧ HaltedWith s t (.loadFault s.pc ea)) ∧
  (ea.toNat + 4 ≤ s.params.memSize →
    ∃ t, exec (.lw rd rs1 imm) s = .next t ∧ WroteReg s t rd (s.mem.read (ea.toNat + 3) ++ s.mem.read (ea.toNat + 2) ++ s.mem.read (ea.toNat + 1) ++ s.mem.read ea.toNat) (s.pc + 4#32)) ∧
  (s.params.memSize < ea.toNat + 4 →
    ∃ t, exec (.lw rd rs1 imm) s = .next t ∧ HaltedWith s t (.loadFault s.pc ea)) ∧
  (ea.toNat + 1 ≤ s.params.memSize →
    ∃ t, exec (.lbu rd rs1 imm) s = .next t ∧ WroteReg s t rd ((s.mem.read ea.toNat).setWidth 32) (s.pc + 4#32)) ∧
  (s.params.memSize < ea.toNat + 1 →
    ∃ t, exec (.lbu rd rs1 imm) s = .next t ∧ HaltedWith s t (.loadFault s.pc ea)) ∧
  (ea.toNat + 2 ≤ s.params.memSize →
    ∃ t, exec (.lhu rd rs1 imm) s = .next t ∧ WroteReg s t rd ((s.mem.read (ea.toNat + 1) ++ s.mem.read ea.toNat).setWidth 32) (s.pc + 4#32)) ∧
  (s.params.memSize < ea.toNat + 2 →
    ∃ t, exec (.lhu rd rs1 imm) s = .next t ∧ HaltedWith s t (.loadFault s.pc ea))

/-- In every state with canonical memory, with ea = x[rs1] + imm modulo 2^32 and n bytes: if ea + n does not exceed
mem_size, the store completes, byte ea + k becomes x[rs2][8k+7:8k] for k below n, every byte outside [ea, ea + n)
and every register is as before, pc becomes pc + 4 and logs, host calls and status stay; if it does, no byte is
written and the state halts with StoreFault(ea). The words have the stated match under the stated mask. [stated:
R171, R172, R173] -/
def Obligations.StoresWriteTheirBytesAndNoOthers : Prop :=
  ∀ (s : State) (rs2 rs1 : RegIdx) (imm ea : Word), s.mem.wf = true → ea = s.getReg rs1 + imm →
  Encoded (.sb rs2 rs1 imm) 0x0000707F#32 0x00000023#32 ∧
  Encoded (.sh rs2 rs1 imm) 0x0000707F#32 0x00001023#32 ∧
  Encoded (.sw rs2 rs1 imm) 0x0000707F#32 0x00002023#32 ∧
  (ea.toNat + 1 ≤ s.params.memSize →
    ∃ t, exec (.sb rs2 rs1 imm) s = .next t ∧ Stored s t ea.toNat 1 (s.getReg rs2)) ∧
  (s.params.memSize < ea.toNat + 1 →
    ∃ t, exec (.sb rs2 rs1 imm) s = .next t ∧ HaltedWith s t (.storeFault s.pc ea)) ∧
  (ea.toNat + 2 ≤ s.params.memSize →
    ∃ t, exec (.sh rs2 rs1 imm) s = .next t ∧ Stored s t ea.toNat 2 (s.getReg rs2)) ∧
  (s.params.memSize < ea.toNat + 2 →
    ∃ t, exec (.sh rs2 rs1 imm) s = .next t ∧ HaltedWith s t (.storeFault s.pc ea)) ∧
  (ea.toNat + 4 ≤ s.params.memSize →
    ∃ t, exec (.sw rs2 rs1 imm) s = .next t ∧ Stored s t ea.toNat 4 (s.getReg rs2)) ∧
  (s.params.memSize < ea.toNat + 4 →
    ∃ t, exec (.sw rs2 rs1 imm) s = .next t ∧ HaltedWith s t (.storeFault s.pc ea))

/-- In every state BEQ and BNE complete, and only the pc changes: to pc + immB modulo 2^32 if x[rs1] = x[rs2] (BEQ) or
not (BNE), else to pc + 4. The target is not checked; registers, memory, logs, host calls and status are as before.
The words have the stated match under the stated mask. [stated: R181, R182] -/
def Obligations.EqualityBranchesGoWhereTheySay : Prop :=
  ∀ (s : State) (rs1 rs2 : RegIdx) (imm : Word),
  Encoded (.beq rs1 rs2 imm) 0x0000707F#32 0x00000063#32 ∧
  Encoded (.bne rs1 rs2 imm) 0x0000707F#32 0x00001063#32 ∧
  (∃ t, exec (.beq rs1 rs2 imm) s = .next t ∧
    WentTo s t (if (s.getReg rs1) = (s.getReg rs2) then s.pc + imm else s.pc + 4#32)) ∧
  (∃ t, exec (.bne rs1 rs2 imm) s = .next t ∧
    WentTo s t (if (s.getReg rs1) ≠ (s.getReg rs2) then s.pc + imm else s.pc + 4#32))

/-- In every state BLT, BGE, BLTU and BGEU complete, and only the pc changes: to pc + immB modulo 2^32 if x[rs1] is less
than (BLT, BLTU), or greater than or equal to (BGE, BGEU), x[rs2], read signed (BLT, BGE) or unsigned (BLTU, BGEU),
else to pc + 4. The target is not checked; registers, memory, logs, host calls and status are as before. The words
have the stated match under the stated mask. [stated: R183, R184, R185, R186] -/
def Obligations.OrderedBranchesGoWhereTheySay : Prop :=
  ∀ (s : State) (rs1 rs2 : RegIdx) (imm : Word),
  Encoded (.blt rs1 rs2 imm) 0x0000707F#32 0x00004063#32 ∧
  Encoded (.bge rs1 rs2 imm) 0x0000707F#32 0x00005063#32 ∧
  Encoded (.bltu rs1 rs2 imm) 0x0000707F#32 0x00006063#32 ∧
  Encoded (.bgeu rs1 rs2 imm) 0x0000707F#32 0x00007063#32 ∧
  (∃ t, exec (.blt rs1 rs2 imm) s = .next t ∧
    WentTo s t (if (s.getReg rs1).toInt < (s.getReg rs2).toInt then s.pc + imm else s.pc + 4#32)) ∧
  (∃ t, exec (.bge rs1 rs2 imm) s = .next t ∧
    WentTo s t (if (s.getReg rs2).toInt ≤ (s.getReg rs1).toInt then s.pc + imm else s.pc + 4#32)) ∧
  (∃ t, exec (.bltu rs1 rs2 imm) s = .next t ∧
    WentTo s t (if (s.getReg rs1).toNat < (s.getReg rs2).toNat then s.pc + imm else s.pc + 4#32)) ∧
  (∃ t, exec (.bgeu rs1 rs2 imm) s = .next t ∧
    WentTo s t (if (s.getReg rs2).toNat ≤ (s.getReg rs1).toNat then s.pc + imm else s.pc + 4#32))

/-- In every state LUI and AUIPC complete: rd becomes the U immediate, or pc plus it modulo 2^32, where pc is the
instruction's own address; pc becomes pc + 4. Nothing else changes: other registers, memory, logs, host calls,
status. Every word with their opcode is legal, and the immediate is inst[31:12] above twelve zeros. [stated: R190,
R191] -/
def Obligations.UpperImmediatesWriteTheirValue : Prop :=
  (∀ w : Word, (w &&& 0x0000007F#32 = 0x00000037#32 ↔ decode w = .ok (.lui (rdOf w) (w &&& 0xFFFFF000#32))) ∧
    (w &&& 0x0000007F#32 = 0x00000017#32 ↔ decode w = .ok (.auipc (rdOf w) (w &&& 0xFFFFF000#32)))) ∧
  ∀ (s : State) (rd : RegIdx) (imm : Word),
  (∃ t, exec (.lui rd imm) s = .next t ∧ WroteReg s t rd (imm) (s.pc + 4#32)) ∧
  (∃ t, exec (.auipc rd imm) s = .next t ∧ WroteReg s t rd (BitVec.ofNat 32 (s.pc.toNat + imm.toNat)) (s.pc + 4#32))

/-- In every state JAL and JALR complete: rd becomes the old pc + 4 modulo 2^32 (nothing is written when rd is x0) and
the pc becomes pc + immJ, or x[rs1] + immI modulo 2^32 with bit 0 cleared, x[rs1] read before the link is written;
the target is not checked. Nothing else changes. Their words have the stated match under the stated mask. [derived:
47_jumps.md R195, R196, 70_reset_and_hazards.md R262] -/
def Obligations.JumpsLinkAndGo : Prop :=
  ∀ (s : State) (rd rs1 : RegIdx) (imm : Word),
  Encoded (.jal rd imm) 0x0000007F#32 0x0000006F#32 ∧
  Encoded (.jalr rd rs1 imm) 0x0000707F#32 0x00000067#32 ∧
  (∃ t, exec (.jal rd imm) s = .next t ∧ WroteReg s t rd (BitVec.ofNat 32 (s.pc.toNat + 4)) (s.pc + imm)) ∧
  (∃ t, exec (.jalr rd rs1 imm) s = .next t ∧ WroteReg s t rd (BitVec.ofNat 32 (s.pc.toNat + 4)) (BitVec.ofNat 32 (((s.getReg rs1) + imm).toNat / 2 * 2)))

/-- For every running state and every branch, JAL or JALR: if its execution leaves a pc that is not a multiple of 4 or
has no four bytes below mem_size, the state is still running, and the next step halts with FetchFault at that pc and
changes nothing else. [derived: 47_jumps.md R197, 45_branches.md R180, 20_memory.md R45] -/
def Obligations.BadTargetFaultsAtTheNextFetch : Prop :=
  ∀ (s t : State) (i : Instr), s.status = .running → isTransfer i = true → exec i s = .next t →
  t.pc.toNat % 4 ≠ 0 ∨ s.params.memSize < t.pc.toNat + 4 →
  t.status = .running ∧ ∃ u, step t = .next u ∧ HaltedWith t u (.fetchFault t.pc)

/-- A word decodes to EBREAK exactly when it is 0x00100073. In every state EBREAK takes its halt: the status becomes
Halted(Break) with the pc recorded, no register, memory byte, log or the pc changes, the run has ended normally, and
every later step request changes nothing. [stated: R201] -/
def Obligations.EbreakHaltsWithBreak : Prop :=
  (∀ w : Word, decode w = .ok .ebreak ↔ w = 0x00100073#32) ∧
  ∀ s : State, ∃ t, exec .ebreak s = .next t ∧ HaltedWith s t (.breakpoint s.pc) ∧ t.endedNormally = true ∧
    step t = .next t

/-- For every state with a7 = 1: if a1 is 0 or a0 + a1 does not exceed mem_size, the console gains one record, the a1
bytes from a0 up, a0 becomes 0 and pc pc + 4, and no other register, no memory byte, frame, host call, status or
parameter changes; otherwise the state halts with LoadFault(a0) and nothing else changes. [stated: R241] -/
def Obligations.PrintAppendsOneRecord : Prop :=
  ∀ s : State, s.getReg 17#5 = 0x01#32 →
  (s.getReg 11#5 = 0#32 ∨ (s.getReg 10#5).toNat + (s.getReg 11#5).toNat ≤ s.params.memSize →
    ∃ t bytes, exec .ecall s = .next t ∧ bytes.length = (s.getReg 11#5).toNat ∧
      BytesAt s (s.getReg 10#5).toNat bytes ∧ t.console = s.console ++ [bytes] ∧ OnlyReg s t 10#5 0#32 ∧
      t.pc = s.pc + 4#32 ∧ SameBytes s t ∧ t.status = s.status ∧
      t.frames = s.frames ∧ t.hostCalls = s.hostCalls ∧ t.hostReplies = s.hostReplies ∧ t.hostDraws = s.hostDraws ∧
      t.params = s.params) ∧
  (s.getReg 11#5 ≠ 0#32 → s.params.memSize < (s.getReg 10#5).toNat + (s.getReg 11#5).toNat →
    ∃ t, exec .ecall s = .next t ∧ HaltedWith s t (.loadFault s.pc (s.getReg 10#5)))

/-- For every state with a7 = 2: if vram_len is 0 or vram_base + vram_len does not exceed mem_size, frames gains the
bytes of that range as they stand, a0 becomes 0 and pc pc + 4, and nothing else changes; otherwise the state halts
with LoadFault(vram_base) and nothing else changes. [stated: R242] -/
def Obligations.DrawPublishesTheVramSlice : Prop :=
  ∀ s : State, s.getReg 17#5 = 0x02#32 →
  (s.params.vramLen = 0#32 ∨ s.params.vramBase.toNat + s.params.vramLen.toNat ≤ s.params.memSize →
    ∃ t frame, exec .ecall s = .next t ∧ frame.length = s.params.vramLen.toNat ∧
      BytesAt s s.params.vramBase.toNat frame ∧ t.frames = s.frames ++ [frame] ∧ OnlyReg s t 10#5 0#32 ∧
      t.pc = s.pc + 4#32 ∧ SameBytes s t ∧ t.status = s.status ∧
      t.console = s.console ∧ t.hostCalls = s.hostCalls ∧ t.hostReplies = s.hostReplies ∧ t.hostDraws = s.hostDraws ∧
      t.params = s.params) ∧
  (s.params.vramLen ≠ 0#32 → s.params.memSize < s.params.vramBase.toNat + s.params.vramLen.toNat →
    ∃ t, exec .ecall s = .next t ∧ HaltedWith s t (.loadFault s.pc s.params.vramBase))

/-- For every state whose a7 is none of 0, 1, 2, 0x0A to 0x0F (0xDEAD among them): ECALL completes, a0 becomes
0xFFFFFFFF and pc pc + 4; no other register, no memory byte, log, host call, status or parameter changes. [stated:
R245] -/
def Obligations.UnknownServicesAnswerMinusOne : Prop :=
  ∀ s : State,
  s.getReg 17#5 ∉ [0x00#32, 0x01#32, 0x02#32, 0x0A#32, 0x0B#32, 0x0C#32, 0x0D#32, 0x0E#32, 0x0F#32] →
  ∃ t, exec .ecall s = .next t ∧ OnlyReg s t 10#5 0xFFFFFFFF#32 ∧ t.pc = s.pc + 4#32 ∧ SameBytes s t ∧ SameOutputs s t

/-- For every state with a7 = 0, 0x0B or 0x0C: ECALL completes with one host call, of RESET, CLOSE(a0) or SEEK(a0, a1,
a2), a0 becomes the status answered and pc pc + 4; memory, the other registers, console, frames, status and
parameters are as before. [derived: 60_exceptions.md R236, R237, R243, R246] -/
def Obligations.ResetCloseAndSeekCallTheHost : Prop :=
  ∀ s : State,
  (s.getReg 17#5 = 0x00#32 → ∃ t, exec .ecall s = .next t ∧ CalledHost s t (.reset) (s.hostResponse (.reset)).status ∧ SameBytes s t) ∧
  (s.getReg 17#5 = 0x0B#32 → ∃ t, exec .ecall s = .next t ∧
    CalledHost s t (.close (s.getReg 10#5)) (s.hostResponse (.close (s.getReg 10#5))).status ∧ SameBytes s t) ∧
  (s.getReg 17#5 = 0x0C#32 → ∃ t req, req = .seek (s.getReg 10#5) (s.getReg 11#5) (s.getReg 12#5) ∧
    exec .ecall s = .next t ∧ CalledHost s t (req) (s.hostResponse (req)).status ∧ SameBytes s t)

/-- For every state: with a7 = 0x0A, OPEN's path is the a1 bytes at a0 when a1 is not 0 (LoadFault(a0) out of bounds), else
the NUL-terminated string at a0 (LoadFault when there is no 0x00 below mem_size); with a7 = 0x0F, SOCKET's address is
that string. In bounds, ECALL completes with one host call carrying it (and OPEN's a2), the status in a0, and memory
as before. That the LoadFault of a string with no 0x00 records a0, the string's start, is the model's deduction (log
23, DEDUCED): R240 names no address, and R221 records the range start. [derived: 60_exceptions.md R221, R239, R240,
R243] -/
def Obligations.OpenAndSocketHandOverTheirString : Prop :=
  ∀ (s : State) (str : List Byte),
  (s.getReg 17#5 = 0x0A#32 → s.getReg 11#5 ≠ 0#32 →
    ((s.getReg 10#5).toNat + (s.getReg 11#5).toNat ≤ s.params.memSize →
      ∃ t path, path.length = (s.getReg 11#5).toNat ∧ BytesAt s (s.getReg 10#5).toNat path ∧
        exec .ecall s = .next t ∧ CalledHost s t (.openFile path (s.getReg 12#5)) (s.hostResponse (.openFile path (s.getReg 12#5))).status ∧ SameBytes s t) ∧
    (s.params.memSize < (s.getReg 10#5).toNat + (s.getReg 11#5).toNat →
      ∃ t, exec .ecall s = .next t ∧ HaltedWith s t (.loadFault s.pc (s.getReg 10#5)))) ∧
  (s.getReg 17#5 = 0x0A#32 → s.getReg 11#5 = 0#32 →
    (NulString s (s.getReg 10#5).toNat str →
      ∃ t, exec .ecall s = .next t ∧ CalledHost s t (.openFile str (s.getReg 12#5)) (s.hostResponse (.openFile str (s.getReg 12#5))).status ∧ SameBytes s t) ∧
    (NoNul s (s.getReg 10#5).toNat →
      ∃ t, exec .ecall s = .next t ∧ HaltedWith s t (.loadFault s.pc (s.getReg 10#5)))) ∧
  (s.getReg 17#5 = 0x0F#32 →
    (NulString s (s.getReg 10#5).toNat str →
      ∃ t, exec .ecall s = .next t ∧ CalledHost s t (.socket str) (s.hostResponse (.socket str)).status ∧ SameBytes s t) ∧
    (NoNul s (s.getReg 10#5).toNat →
      ∃ t, exec .ecall s = .next t ∧ HaltedWith s t (.loadFault s.pc (s.getReg 10#5))))

/-- For every state with a7 = 0x0E: if a2 is 0 or a1 + a2 does not exceed mem_size, ECALL completes with one host call
carrying a0 and a copy of the a2 bytes from a1 up, the status in a0, pc + 4, and memory as before; otherwise the
state halts with LoadFault(a1), with no host call. [derived: 60_exceptions.md R239, R243, R246] -/
def Obligations.WriteHandsOverItsBytes : Prop :=
  ∀ s : State, s.getReg 17#5 = 0x0E#32 →
  (s.getReg 12#5 = 0#32 ∨ (s.getReg 11#5).toNat + (s.getReg 12#5).toNat ≤ s.params.memSize →
    ∃ t bytes, bytes.length = (s.getReg 12#5).toNat ∧ BytesAt s (s.getReg 11#5).toNat bytes ∧
      exec .ecall s = .next t ∧ CalledHost s t (.write (s.getReg 10#5) bytes) (s.hostResponse (.write (s.getReg 10#5) bytes)).status ∧ SameBytes s t) ∧
  (s.getReg 12#5 ≠ 0#32 → s.params.memSize < (s.getReg 11#5).toNat + (s.getReg 12#5).toNat →
    ∃ t, exec .ecall s = .next t ∧ HaltedWith s t (.loadFault s.pc (s.getReg 11#5)))

/-- For every state with canonical memory and a7 = 0x0D: if a2 is 0 or a1 + a2 does not exceed mem_size, ECALL completes
with one host call READ(a0, a2), the host's status in a0 and pc + 4, whatever the host answers; with a negative
status no byte changes; and if the host keeps its duty (the premise of R244), then with a status that is not negative
the payload, of exactly status bytes and at most a2, stands at a1 and no other byte changes. Otherwise the state halts
with StoreFault(a1), with no host call. That ECALL completes for a payload outside the duty that does not fit below
mem_size is the model's choice (log 25, DEDUCED, unsafe outside the premise): R243 says nothing of it and R249 rules
such an answer out. [derived: 60_exceptions.md R239, R243, R244, R249] -/
def Obligations.ReadStoresTheHostsPayload : Prop :=
  ∀ (s : State) (req : HostRequest) (r : HostReply), s.mem.wf = true → s.getReg 17#5 = 0x0D#32 →
  req = .read (s.getReg 10#5) (s.getReg 12#5) → r = s.hostResponse req →
  (s.getReg 12#5 = 0#32 ∨ (s.getReg 11#5).toNat + (s.getReg 12#5).toNat ≤ s.params.memSize →
    ∃ t, exec .ecall s = .next t ∧ CalledHost s t req r.status ∧
      (s.HostKeepsDuty req → 0 ≤ r.status.toInt →
        r.payload.length = r.status.toNat ∧ r.status.toNat ≤ (s.getReg 12#5).toNat ∧
        BytesAt t (s.getReg 11#5).toNat r.payload ∧
        ∀ x, x < (s.getReg 11#5).toNat ∨ (s.getReg 11#5).toNat + r.payload.length ≤ x →
          t.mem.read x = s.mem.read x) ∧
      (r.status.toInt < 0 → SameBytes s t)) ∧
  (s.getReg 12#5 ≠ 0#32 → s.params.memSize < (s.getReg 11#5).toNat + (s.getReg 12#5).toNat →
    ∃ t, exec .ecall s = .next t ∧ HaltedWith s t (.storeFault s.pc (s.getReg 11#5)))

/-- For every ECALL that makes a host call, under the premise that the host keeps its duty for that call: a0 is 0 or -1
after RESET and CLOSE; -1 or a new descriptor after OPEN; a negative error or a new descriptor after SOCKET; -1 or not
negative after SEEK; after READ -1 or -64 with no payload, or a count n from 0 to count with exactly n bytes; every
other payload is empty. A new descriptor is above 0, from descriptor_start up, and none that the host has given out
since the last RESET. A descriptor that may be a pipe is neither 0 nor below descriptor_start. If the host kept its duties before, it has kept them after, and then no two descriptors it has
given out are the same. (The reading of "new", of which descriptors
may be pipes and of signed statuses is the model's: log 8, DEDUCED.)
[derived: 60_exceptions.md R244, R236, R248, R249, 92_eei_decisions.md D17] -/
def Obligations.HostAnswersKeepTheirDuties : Prop :=
  ∀ (s t : State) (c : HostCall), exec .ecall s = .next t → t.hostCalls = s.hostCalls ++ [c] →
  s.HostKeepsDuty c.request →
  (c.request = .reset → t.getReg 10#5 = 0#32 ∨ t.getReg 10#5 = 0xFFFFFFFF#32) ∧
  (∀ path flags, c.request = .openFile path flags → t.getReg 10#5 = 0xFFFFFFFF#32 ∨
    (0 < (t.getReg 10#5).toInt ∧ s.params.descriptorStart.toInt ≤ (t.getReg 10#5).toInt ∧
      t.getReg 10#5 ∉ descriptorsGiven s.hostCalls)) ∧
  (∀ fd, c.request = .close fd → t.getReg 10#5 = 0#32 ∨ t.getReg 10#5 = 0xFFFFFFFF#32) ∧
  (∀ fd offset whence, c.request = .seek fd offset whence →
    t.getReg 10#5 = 0xFFFFFFFF#32 ∨ 0 ≤ (t.getReg 10#5).toInt) ∧
  (∀ fd count, c.request = .read fd count →
    (t.getReg 10#5 = 0xFFFFFFFF#32 ∧ c.reply.payload = []) ∨
    (t.getReg 10#5 = 0xFFFFFFC0#32 ∧ c.reply.payload = [] ∧ mayBePipe s.params s.hostCalls fd = true ∧
      0 < fd.toInt ∧ s.params.descriptorStart.toInt ≤ fd.toInt) ∨
    (0 ≤ (t.getReg 10#5).toInt ∧ (t.getReg 10#5).toNat ≤ count.toNat ∧
      c.reply.payload.length = (t.getReg 10#5).toNat)) ∧
  (∀ address, c.request = .socket address → (t.getReg 10#5).toInt < 0 ∨
    (0 < (t.getReg 10#5).toInt ∧ s.params.descriptorStart.toInt ≤ (t.getReg 10#5).toInt ∧
      t.getReg 10#5 ∉ descriptorsGiven s.hostCalls)) ∧
  ((∀ fd count, c.request ≠ .read fd count) → c.reply.payload = []) ∧
  (s.HostKeptDuties → t.HostKeptDuties ∧ (descriptorsGiven t.hostCalls).Nodup)

/-- For every state: if ECALL answers a state whose record of host calls has grown by the call c, the first four bytes
of its request's wire form, read little-endian, are the old a7. [derived: 60_exceptions.md R246, R236] -/
def Obligations.RequestsBeginWithTheServiceNumber : Prop :=
  ∀ (s t : State) (c : HostCall), exec .ecall s = .next t → t.hostCalls = s.hostCalls ++ [c] →
  leWord ((hostRequestWire c.request).take 4) = s.getReg 17#5

/-- For every register, 32-bit value v and state: the instructions li expands to leave v in rd and nothing else changed
but the pc; those of la leave pc + v in rd, pc the first one's address; those of call set the pc to pc + v with bit
0 cleared and x1 to pc + 8. [derived: 30_encoding.md R87] -/
def Obligations.ExpandedPseudoInstructionsReachTheirValue : Prop :=
  ∀ (s : State) (rd : RegIdx) (v : Word),
  (∃ t, execAll (Pseudo.li rd v).expand s = .next t ∧ OnlyReg s t rd v ∧ SameBytes s t ∧ SameOutputs s t) ∧
  (∃ t, execAll (Pseudo.la rd v).expand s = .next t ∧ OnlyReg s t rd (s.pc + v) ∧ t.pc = s.pc + 8#32 ∧
    SameBytes s t ∧ SameOutputs s t) ∧
  (∃ t, execAll (Pseudo.call v).expand s = .next t ∧ OnlyReg s t 1#5 (s.pc + 8#32) ∧
    t.pc = (s.pc + v) &&& 0xFFFFFFFE#32 ∧ SameBytes s t ∧ SameOutputs s t)

/-- For every ECALL that makes a host call, whatever the host answers: the answer recorded is the next settled one, or the
free value where none is settled (log 6, log 7), a0 is its status unchanged, pc is pc + 4, and that answer alone is
used up. The core checks no duty of the host. That this holds for a READ payload outside the duty that does not fit
below mem_size is the model's choice (log 25, DEDUCED, unsafe outside the premise): R243 says nothing of it and R249
rules such an answer out. [derived: 60_exceptions.md R238, R243, R244, R249, 91_not_in_source.md
N26] -/
def Obligations.HostAnswersReachTheCoreUnchecked : Prop :=
  ∀ (s t : State) (c : HostCall), exec .ecall s = .next t → t.hostCalls = s.hostCalls ++ [c] →
  (∀ r rest, s.hostReplies = r :: rest → c.reply = r ∧ t.hostReplies = rest) ∧
  (s.hostReplies = [] → c.reply = Config.hostReply s.hostDraws c.request ∧ t.hostReplies = []) ∧
  OnlyReg s t 10#5 c.reply.status ∧ t.pc = s.pc + 4#32 ∧ t.hostDraws = s.hostDraws + 1
end

