-- ==== Sys2Proof/Laws/Encode.lean ====
section
/-! SUPPORT. The encoders bit by bit, the fields read back from an encoded word, the words put together again from their
fields, and the immediates bit by bit (spec R61 to R68). -/

namespace Sys2Proof

/-! ### The bits of an encoded word -/

theorem getLsbD_encodeR (f7 : BitVec 7) (rs2 rs1 : RegIdx) (f3 : BitVec 3) (rd : RegIdx) (op : BitVec 7) (k : Nat) :
    (encodeR f7 rs2 rs1 f3 rd op).getLsbD k =
      if k < 7 then op.getLsbD k
      else if k < 12 then rd.getLsbD (k - 7)
      else if k < 15 then f3.getLsbD (k - 12)
      else if k < 20 then rs1.getLsbD (k - 15)
      else if k < 25 then rs2.getLsbD (k - 20)
      else f7.getLsbD (k - 25) := by
  have h : (encodeR f7 rs2 rs1 f3 rd op).getLsbD k = (f7 ++ rs2 ++ rs1 ++ f3 ++ rd ++ op).getLsbD k := rfl
  simp only [h, BitVec.getLsbD_append]
  simp only [Nat.sub_sub, Nat.reduceAdd]
  split_ifs <;> first | rfl | omega

theorem getLsbD_encodeI (imm : Word) (rs1 : RegIdx) (f3 : BitVec 3) (rd : RegIdx) (op : BitVec 7) (k : Nat) :
    (encodeI imm rs1 f3 rd op).getLsbD k =
      if k < 7 then op.getLsbD k
      else if k < 12 then rd.getLsbD (k - 7)
      else if k < 15 then f3.getLsbD (k - 12)
      else if k < 20 then rs1.getLsbD (k - 15)
      else (decide (k - 20 < 12) && imm.getLsbD (0 + (k - 20))) := by
  have h : (encodeI imm rs1 f3 rd op).getLsbD k = (imm.extractLsb' 0 12 ++ rs1 ++ f3 ++ rd ++ op).getLsbD k := rfl
  simp only [h, BitVec.getLsbD_append, BitVec.getLsbD_extractLsb']
  simp only [Nat.sub_sub, Nat.reduceAdd]
  split_ifs <;> first | rfl | omega

theorem getLsbD_encodeS (imm : Word) (rs2 rs1 : RegIdx) (f3 : BitVec 3) (op : BitVec 7) (k : Nat) :
    (encodeS imm rs2 rs1 f3 op).getLsbD k =
      if k < 7 then op.getLsbD k
      else if k < 12 then (decide (k - 7 < 5) && imm.getLsbD (0 + (k - 7)))
      else if k < 15 then f3.getLsbD (k - 12)
      else if k < 20 then rs1.getLsbD (k - 15)
      else if k < 25 then rs2.getLsbD (k - 20)
      else (decide (k - 25 < 7) && imm.getLsbD (5 + (k - 25))) := by
  have h : (encodeS imm rs2 rs1 f3 op).getLsbD k = (imm.extractLsb' 5 7 ++ rs2 ++ rs1 ++ f3 ++ imm.extractLsb' 0 5 ++ op).getLsbD k := rfl
  simp only [h, BitVec.getLsbD_append, BitVec.getLsbD_extractLsb']
  simp only [Nat.sub_sub, Nat.reduceAdd]
  split_ifs <;> first | rfl | omega

theorem getLsbD_encodeB (imm : Word) (rs2 rs1 : RegIdx) (f3 : BitVec 3) (op : BitVec 7) (k : Nat) :
    (encodeB imm rs2 rs1 f3 op).getLsbD k =
      if k < 7 then op.getLsbD k
      else if k < 8 then (decide (k - 7 < 1) && imm.getLsbD (11 + (k - 7)))
      else if k < 12 then (decide (k - 8 < 4) && imm.getLsbD (1 + (k - 8)))
      else if k < 15 then f3.getLsbD (k - 12)
      else if k < 20 then rs1.getLsbD (k - 15)
      else if k < 25 then rs2.getLsbD (k - 20)
      else if k < 31 then (decide (k - 25 < 6) && imm.getLsbD (5 + (k - 25)))
      else (decide (k - 31 < 1) && imm.getLsbD (12 + (k - 31))) := by
  have h : (encodeB imm rs2 rs1 f3 op).getLsbD k = (imm.extractLsb' 12 1 ++ imm.extractLsb' 5 6 ++ rs2 ++ rs1 ++ f3 ++ imm.extractLsb' 1 4 ++ imm.extractLsb' 11 1 ++ op).getLsbD k := rfl
  simp only [h, BitVec.getLsbD_append, BitVec.getLsbD_extractLsb']
  simp only [Nat.sub_sub, Nat.reduceAdd]
  split_ifs <;> first | rfl | omega

theorem getLsbD_encodeU (imm : Word) (rd : RegIdx) (op : BitVec 7) (k : Nat) :
    (encodeU imm rd op).getLsbD k =
      if k < 7 then op.getLsbD k
      else if k < 12 then rd.getLsbD (k - 7)
      else (decide (k - 12 < 20) && imm.getLsbD (12 + (k - 12))) := by
  have h : (encodeU imm rd op).getLsbD k = (imm.extractLsb' 12 20 ++ rd ++ op).getLsbD k := rfl
  simp only [h, BitVec.getLsbD_append, BitVec.getLsbD_extractLsb']
  simp only [Nat.sub_sub, Nat.reduceAdd]
  split_ifs <;> first | rfl | omega

theorem getLsbD_encodeJ (imm : Word) (rd : RegIdx) (op : BitVec 7) (k : Nat) :
    (encodeJ imm rd op).getLsbD k =
      if k < 7 then op.getLsbD k
      else if k < 12 then rd.getLsbD (k - 7)
      else if k < 20 then (decide (k - 12 < 8) && imm.getLsbD (12 + (k - 12)))
      else if k < 21 then (decide (k - 20 < 1) && imm.getLsbD (11 + (k - 20)))
      else if k < 31 then (decide (k - 21 < 10) && imm.getLsbD (1 + (k - 21)))
      else (decide (k - 31 < 1) && imm.getLsbD (20 + (k - 31))) := by
  have h : (encodeJ imm rd op).getLsbD k = (imm.extractLsb' 20 1 ++ imm.extractLsb' 1 10 ++ imm.extractLsb' 11 1 ++ imm.extractLsb' 12 8 ++ rd ++ op).getLsbD k := rfl
  simp only [h, BitVec.getLsbD_append, BitVec.getLsbD_extractLsb']
  simp only [Nat.sub_sub, Nat.reduceAdd]
  split_ifs <;> first | rfl | omega

/-! ### Fields read back (R61) -/

@[simp] theorem opcodeOf_encodeR (f7 : BitVec 7) (rs2 rs1 : RegIdx) (f3 : BitVec 3) (rd : RegIdx) (op : BitVec 7) :
    opcodeOf (encodeR f7 rs2 rs1 f3 rd op) = op := by
  apply BitVec.eq_of_getLsbD_eq
  intro k hk
  simp only [opcodeOf, BitVec.getLsbD_extractLsb', getLsbD_encodeR]
  interval_cases k <;> rfl

@[simp] theorem rdOf_encodeR (f7 : BitVec 7) (rs2 rs1 : RegIdx) (f3 : BitVec 3) (rd : RegIdx) (op : BitVec 7) :
    rdOf (encodeR f7 rs2 rs1 f3 rd op) = rd := by
  apply BitVec.eq_of_getLsbD_eq
  intro k hk
  simp only [rdOf, BitVec.getLsbD_extractLsb', getLsbD_encodeR]
  interval_cases k <;> rfl

@[simp] theorem funct3Of_encodeR (f7 : BitVec 7) (rs2 rs1 : RegIdx) (f3 : BitVec 3) (rd : RegIdx) (op : BitVec 7) :
    funct3Of (encodeR f7 rs2 rs1 f3 rd op) = f3 := by
  apply BitVec.eq_of_getLsbD_eq
  intro k hk
  simp only [funct3Of, BitVec.getLsbD_extractLsb', getLsbD_encodeR]
  interval_cases k <;> rfl

@[simp] theorem rs1Of_encodeR (f7 : BitVec 7) (rs2 rs1 : RegIdx) (f3 : BitVec 3) (rd : RegIdx) (op : BitVec 7) :
    rs1Of (encodeR f7 rs2 rs1 f3 rd op) = rs1 := by
  apply BitVec.eq_of_getLsbD_eq
  intro k hk
  simp only [rs1Of, BitVec.getLsbD_extractLsb', getLsbD_encodeR]
  interval_cases k <;> rfl

@[simp] theorem rs2Of_encodeR (f7 : BitVec 7) (rs2 rs1 : RegIdx) (f3 : BitVec 3) (rd : RegIdx) (op : BitVec 7) :
    rs2Of (encodeR f7 rs2 rs1 f3 rd op) = rs2 := by
  apply BitVec.eq_of_getLsbD_eq
  intro k hk
  simp only [rs2Of, BitVec.getLsbD_extractLsb', getLsbD_encodeR]
  interval_cases k <;> rfl

@[simp] theorem funct7Of_encodeR (f7 : BitVec 7) (rs2 rs1 : RegIdx) (f3 : BitVec 3) (rd : RegIdx) (op : BitVec 7) :
    funct7Of (encodeR f7 rs2 rs1 f3 rd op) = f7 := by
  apply BitVec.eq_of_getLsbD_eq
  intro k hk
  simp only [funct7Of, BitVec.getLsbD_extractLsb', getLsbD_encodeR]
  interval_cases k <;> rfl

@[simp] theorem opcodeOf_encodeI (imm : Word) (rs1 : RegIdx) (f3 : BitVec 3) (rd : RegIdx) (op : BitVec 7) :
    opcodeOf (encodeI imm rs1 f3 rd op) = op := by
  apply BitVec.eq_of_getLsbD_eq
  intro k hk
  simp only [opcodeOf, BitVec.getLsbD_extractLsb', getLsbD_encodeI]
  interval_cases k <;> rfl

@[simp] theorem rdOf_encodeI (imm : Word) (rs1 : RegIdx) (f3 : BitVec 3) (rd : RegIdx) (op : BitVec 7) :
    rdOf (encodeI imm rs1 f3 rd op) = rd := by
  apply BitVec.eq_of_getLsbD_eq
  intro k hk
  simp only [rdOf, BitVec.getLsbD_extractLsb', getLsbD_encodeI]
  interval_cases k <;> rfl

@[simp] theorem funct3Of_encodeI (imm : Word) (rs1 : RegIdx) (f3 : BitVec 3) (rd : RegIdx) (op : BitVec 7) :
    funct3Of (encodeI imm rs1 f3 rd op) = f3 := by
  apply BitVec.eq_of_getLsbD_eq
  intro k hk
  simp only [funct3Of, BitVec.getLsbD_extractLsb', getLsbD_encodeI]
  interval_cases k <;> rfl

@[simp] theorem rs1Of_encodeI (imm : Word) (rs1 : RegIdx) (f3 : BitVec 3) (rd : RegIdx) (op : BitVec 7) :
    rs1Of (encodeI imm rs1 f3 rd op) = rs1 := by
  apply BitVec.eq_of_getLsbD_eq
  intro k hk
  simp only [rs1Of, BitVec.getLsbD_extractLsb', getLsbD_encodeI]
  interval_cases k <;> rfl

@[simp] theorem opcodeOf_encodeS (imm : Word) (rs2 rs1 : RegIdx) (f3 : BitVec 3) (op : BitVec 7) :
    opcodeOf (encodeS imm rs2 rs1 f3 op) = op := by
  apply BitVec.eq_of_getLsbD_eq
  intro k hk
  simp only [opcodeOf, BitVec.getLsbD_extractLsb', getLsbD_encodeS]
  interval_cases k <;> rfl

@[simp] theorem funct3Of_encodeS (imm : Word) (rs2 rs1 : RegIdx) (f3 : BitVec 3) (op : BitVec 7) :
    funct3Of (encodeS imm rs2 rs1 f3 op) = f3 := by
  apply BitVec.eq_of_getLsbD_eq
  intro k hk
  simp only [funct3Of, BitVec.getLsbD_extractLsb', getLsbD_encodeS]
  interval_cases k <;> rfl

@[simp] theorem rs1Of_encodeS (imm : Word) (rs2 rs1 : RegIdx) (f3 : BitVec 3) (op : BitVec 7) :
    rs1Of (encodeS imm rs2 rs1 f3 op) = rs1 := by
  apply BitVec.eq_of_getLsbD_eq
  intro k hk
  simp only [rs1Of, BitVec.getLsbD_extractLsb', getLsbD_encodeS]
  interval_cases k <;> rfl

@[simp] theorem rs2Of_encodeS (imm : Word) (rs2 rs1 : RegIdx) (f3 : BitVec 3) (op : BitVec 7) :
    rs2Of (encodeS imm rs2 rs1 f3 op) = rs2 := by
  apply BitVec.eq_of_getLsbD_eq
  intro k hk
  simp only [rs2Of, BitVec.getLsbD_extractLsb', getLsbD_encodeS]
  interval_cases k <;> rfl

@[simp] theorem opcodeOf_encodeB (imm : Word) (rs2 rs1 : RegIdx) (f3 : BitVec 3) (op : BitVec 7) :
    opcodeOf (encodeB imm rs2 rs1 f3 op) = op := by
  apply BitVec.eq_of_getLsbD_eq
  intro k hk
  simp only [opcodeOf, BitVec.getLsbD_extractLsb', getLsbD_encodeB]
  interval_cases k <;> rfl

@[simp] theorem funct3Of_encodeB (imm : Word) (rs2 rs1 : RegIdx) (f3 : BitVec 3) (op : BitVec 7) :
    funct3Of (encodeB imm rs2 rs1 f3 op) = f3 := by
  apply BitVec.eq_of_getLsbD_eq
  intro k hk
  simp only [funct3Of, BitVec.getLsbD_extractLsb', getLsbD_encodeB]
  interval_cases k <;> rfl

@[simp] theorem rs1Of_encodeB (imm : Word) (rs2 rs1 : RegIdx) (f3 : BitVec 3) (op : BitVec 7) :
    rs1Of (encodeB imm rs2 rs1 f3 op) = rs1 := by
  apply BitVec.eq_of_getLsbD_eq
  intro k hk
  simp only [rs1Of, BitVec.getLsbD_extractLsb', getLsbD_encodeB]
  interval_cases k <;> rfl

@[simp] theorem rs2Of_encodeB (imm : Word) (rs2 rs1 : RegIdx) (f3 : BitVec 3) (op : BitVec 7) :
    rs2Of (encodeB imm rs2 rs1 f3 op) = rs2 := by
  apply BitVec.eq_of_getLsbD_eq
  intro k hk
  simp only [rs2Of, BitVec.getLsbD_extractLsb', getLsbD_encodeB]
  interval_cases k <;> rfl

@[simp] theorem opcodeOf_encodeU (imm : Word) (rd : RegIdx) (op : BitVec 7) :
    opcodeOf (encodeU imm rd op) = op := by
  apply BitVec.eq_of_getLsbD_eq
  intro k hk
  simp only [opcodeOf, BitVec.getLsbD_extractLsb', getLsbD_encodeU]
  interval_cases k <;> rfl

@[simp] theorem rdOf_encodeU (imm : Word) (rd : RegIdx) (op : BitVec 7) :
    rdOf (encodeU imm rd op) = rd := by
  apply BitVec.eq_of_getLsbD_eq
  intro k hk
  simp only [rdOf, BitVec.getLsbD_extractLsb', getLsbD_encodeU]
  interval_cases k <;> rfl

@[simp] theorem opcodeOf_encodeJ (imm : Word) (rd : RegIdx) (op : BitVec 7) :
    opcodeOf (encodeJ imm rd op) = op := by
  apply BitVec.eq_of_getLsbD_eq
  intro k hk
  simp only [opcodeOf, BitVec.getLsbD_extractLsb', getLsbD_encodeJ]
  interval_cases k <;> rfl

@[simp] theorem rdOf_encodeJ (imm : Word) (rd : RegIdx) (op : BitVec 7) :
    rdOf (encodeJ imm rd op) = rd := by
  apply BitVec.eq_of_getLsbD_eq
  intro k hk
  simp only [rdOf, BitVec.getLsbD_extractLsb', getLsbD_encodeJ]
  interval_cases k <;> rfl

@[simp] theorem shamtOf_encodeR (f7 : BitVec 7) (rs2 rs1 : RegIdx) (f3 : BitVec 3) (rd : RegIdx) (op : BitVec 7) :
    shamtOf (encodeR f7 rs2 rs1 f3 rd op) = rs2 := rs2Of_encodeR f7 rs2 rs1 f3 rd op

/-! ### The immediates bit by bit (R63 to R67) -/

/-- Bit by bit, immI of a word: the sign fills from bit 12 up. -/
theorem getLsbD_immI (w : Word) (k : Nat) (hk : k < 32) :
    (immI w).getLsbD k =
      if k < 12 then w.getLsbD (20 + (k - 0))
      else w.getLsbD 31 := by
  have h : immI w = BitVec.signExtend 32 (show BitVec 12 from (w.extractLsb' 20 12)) := rfl
  have hm : ∀ j, (show BitVec 12 from (w.extractLsb' 20 12)).getLsbD j = (w.extractLsb' 20 12).getLsbD j := fun _ => rfl
  rw [h, BitVec.getLsbD_signExtend, BitVec.msb_eq_getLsbD_last, hm, hm]
  simp only [BitVec.getLsbD_extractLsb']
  interval_cases k <;> simp

/-- Bit by bit, immS of a word: the sign fills from bit 12 up. -/
theorem getLsbD_immS (w : Word) (k : Nat) (hk : k < 32) :
    (immS w).getLsbD k =
      if k < 5 then w.getLsbD (7 + (k - 0))
      else if k < 12 then w.getLsbD (25 + (k - 5))
      else w.getLsbD 31 := by
  have h : immS w = BitVec.signExtend 32 (show BitVec 12 from (w.extractLsb' 25 7 ++ w.extractLsb' 7 5)) := rfl
  have hm : ∀ j, (show BitVec 12 from (w.extractLsb' 25 7 ++ w.extractLsb' 7 5)).getLsbD j = (w.extractLsb' 25 7 ++ w.extractLsb' 7 5).getLsbD j := fun _ => rfl
  rw [h, BitVec.getLsbD_signExtend, BitVec.msb_eq_getLsbD_last, hm, hm]
  simp only [BitVec.getLsbD_append, BitVec.getLsbD_extractLsb']
  interval_cases k <;> simp

/-- Bit by bit, immB of a word: the sign fills from bit 13 up. -/
theorem getLsbD_immB (w : Word) (k : Nat) (hk : k < 32) :
    (immB w).getLsbD k =
      if k < 1 then false
      else if k < 5 then w.getLsbD (8 + (k - 1))
      else if k < 11 then w.getLsbD (25 + (k - 5))
      else if k < 12 then w.getLsbD (7 + (k - 11))
      else if k < 13 then w.getLsbD (31 + (k - 12))
      else w.getLsbD 31 := by
  have h : immB w = BitVec.signExtend 32 (show BitVec 13 from (w.extractLsb' 31 1 ++ w.extractLsb' 7 1 ++ w.extractLsb' 25 6 ++ w.extractLsb' 8 4 ++ 0#1)) := rfl
  have hm : ∀ j, (show BitVec 13 from (w.extractLsb' 31 1 ++ w.extractLsb' 7 1 ++ w.extractLsb' 25 6 ++ w.extractLsb' 8 4 ++ 0#1)).getLsbD j = (w.extractLsb' 31 1 ++ w.extractLsb' 7 1 ++ w.extractLsb' 25 6 ++ w.extractLsb' 8 4 ++ 0#1).getLsbD j := fun _ => rfl
  rw [h, BitVec.getLsbD_signExtend, BitVec.msb_eq_getLsbD_last, hm, hm]
  simp only [BitVec.getLsbD_append, BitVec.getLsbD_extractLsb']
  interval_cases k <;> simp

/-- Bit by bit, immJ of a word: the sign fills from bit 21 up. -/
theorem getLsbD_immJ (w : Word) (k : Nat) (hk : k < 32) :
    (immJ w).getLsbD k =
      if k < 1 then false
      else if k < 11 then w.getLsbD (21 + (k - 1))
      else if k < 12 then w.getLsbD (20 + (k - 11))
      else if k < 20 then w.getLsbD (12 + (k - 12))
      else if k < 21 then w.getLsbD (31 + (k - 20))
      else w.getLsbD 31 := by
  have h : immJ w = BitVec.signExtend 32 (show BitVec 21 from (w.extractLsb' 31 1 ++ w.extractLsb' 12 8 ++ w.extractLsb' 20 1 ++ w.extractLsb' 21 10 ++ 0#1)) := rfl
  have hm : ∀ j, (show BitVec 21 from (w.extractLsb' 31 1 ++ w.extractLsb' 12 8 ++ w.extractLsb' 20 1 ++ w.extractLsb' 21 10 ++ 0#1)).getLsbD j = (w.extractLsb' 31 1 ++ w.extractLsb' 12 8 ++ w.extractLsb' 20 1 ++ w.extractLsb' 21 10 ++ 0#1).getLsbD j := fun _ => rfl
  rw [h, BitVec.getLsbD_signExtend, BitVec.msb_eq_getLsbD_last, hm, hm]
  simp only [BitVec.getLsbD_append, BitVec.getLsbD_extractLsb']
  interval_cases k <;> simp

/-- Bit by bit, immU of a word. -/
theorem getLsbD_immU (w : Word) (k : Nat) (hk : k < 32) :
    (immU w).getLsbD k = if k < 12 then false else w.getLsbD k := by
  have hm : (immU w).getLsbD k = (w.extractLsb' 12 20 ++ 0#12).getLsbD k := rfl
  rw [hm]
  simp only [BitVec.getLsbD_append, BitVec.getLsbD_extractLsb']
  interval_cases k <;> simp

/-! ### Words put together again from their fields -/

theorem encodeR_fields (w : Word) : encodeR (funct7Of w) (rs2Of w) (rs1Of w) (funct3Of w) (rdOf w) (opcodeOf w) = w := by
  apply BitVec.eq_of_getLsbD_eq
  intro k hk
  simp only [opcodeOf, rdOf, funct3Of, rs1Of, rs2Of, funct7Of, BitVec.getLsbD_extractLsb', getLsbD_encodeR]
  interval_cases k <;> rfl

theorem encodeI_fields (w : Word) : encodeI (immI w) (rs1Of w) (funct3Of w) (rdOf w) (opcodeOf w) = w := by
  apply BitVec.eq_of_getLsbD_eq
  intro k hk
  simp (disch := omega) only [opcodeOf, rdOf, funct3Of, rs1Of, BitVec.getLsbD_extractLsb', getLsbD_encodeI, getLsbD_immI]
  interval_cases k <;> simp

theorem encodeS_fields (w : Word) : encodeS (immS w) (rs2Of w) (rs1Of w) (funct3Of w) (opcodeOf w) = w := by
  apply BitVec.eq_of_getLsbD_eq
  intro k hk
  simp (disch := omega) only [opcodeOf, funct3Of, rs1Of, rs2Of, BitVec.getLsbD_extractLsb', getLsbD_encodeS, getLsbD_immS]
  interval_cases k <;> simp

theorem encodeB_fields (w : Word) : encodeB (immB w) (rs2Of w) (rs1Of w) (funct3Of w) (opcodeOf w) = w := by
  apply BitVec.eq_of_getLsbD_eq
  intro k hk
  simp only [opcodeOf, funct3Of, rs1Of, rs2Of, BitVec.getLsbD_extractLsb', getLsbD_encodeB]
  interval_cases k <;>
    simp (disch := decide) only [Nat.reduceLT, Nat.reduceSub, Nat.reduceAdd, reduceIte, decide_true, Bool.true_and,
      getLsbD_immB]

theorem encodeU_fields (w : Word) : encodeU (immU w) (rdOf w) (opcodeOf w) = w := by
  apply BitVec.eq_of_getLsbD_eq
  intro k hk
  simp (disch := omega) only [opcodeOf, rdOf, BitVec.getLsbD_extractLsb', getLsbD_encodeU, getLsbD_immU]
  interval_cases k <;> simp

theorem encodeJ_fields (w : Word) : encodeJ (immJ w) (rdOf w) (opcodeOf w) = w := by
  apply BitVec.eq_of_getLsbD_eq
  intro k hk
  simp only [opcodeOf, rdOf, BitVec.getLsbD_extractLsb', getLsbD_encodeJ]
  interval_cases k <;>
    simp (disch := decide) only [Nat.reduceLT, Nat.reduceSub, Nat.reduceAdd, reduceIte, decide_true, Bool.true_and,
      getLsbD_immJ]

end Sys2Proof
end

