-- ==== Sys2Proof/Laws/Fits.lean ====
section
/-! SUPPORT. The immediates of an encoded well-formed instruction read back, and every decoded immediate fits its format
(spec R63 to R69). -/

namespace Sys2Proof

/-! ### What fitting says of the bits -/

/-- Above bit n-1 a value within n signed bits repeats its sign. -/
theorem getLsbD_eq_sign {v : Word} {n : Nat} (h : v.toNat < 2 ^ n ∨ 2 ^ 32 - 2 ^ n ≤ v.toNat) {k : Nat} (hk : n ≤ k)
    (hk' : k < 32) : v.getLsbD k = v.getLsbD 31 := by
  have small : ∀ u : Word, u.toNat < 2 ^ n → ∀ j, n ≤ j → u.getLsbD j = false := fun u hu j hj =>
    Nat.testBit_lt_two_pow (Nat.lt_of_lt_of_le hu (Nat.pow_le_pow_right (by decide) hj))
  rcases h with h | h
  · rw [small v h k hk, small v h 31 (by omega)]
  · have hn : (~~~v).toNat < 2 ^ n := by
      rw [BitVec.toNat_not]
      have := v.isLt
      have := Nat.pow_le_pow_right (n := 2) (by decide) (show n ≤ 32 by omega)
      omega
    have h1 := small _ hn k hk
    have h2 := small _ hn 31 (by omega)
    simp_all

theorem range_of_fitsI {imm : Word} (h : fitsI imm = true) : imm.toNat < 2 ^ 11 ∨ 2 ^ 32 - 2 ^ 11 ≤ imm.toNat := by
  simp only [fitsI, decide_eq_true_eq, BitVec.toInt_eq_toNat_cond] at h
  split at h <;> omega

theorem range_of_fitsB {imm : Word} (h : fitsB imm = true) :
    (imm.toNat < 2 ^ 12 ∨ 2 ^ 32 - 2 ^ 12 ≤ imm.toNat) ∧ imm.getLsbD 0 = false := by
  simp only [fitsB, decide_eq_true_eq, BitVec.toInt_eq_toNat_cond] at h
  refine ⟨by split at h <;> omega, ?_⟩
  simp only [BitVec.getLsbD, Nat.testBit_zero]; simp [h.2.2]

theorem range_of_fitsJ {imm : Word} (h : fitsJ imm = true) :
    (imm.toNat < 2 ^ 20 ∨ 2 ^ 32 - 2 ^ 20 ≤ imm.toNat) ∧ imm.getLsbD 0 = false := by
  simp only [fitsJ, decide_eq_true_eq, BitVec.toInt_eq_toNat_cond] at h
  refine ⟨by split at h <;> omega, ?_⟩
  simp only [BitVec.getLsbD, Nat.testBit_zero]; simp [h.2.2]

theorem low_of_fitsU {imm : Word} (h : fitsU imm = true) {k : Nat} (hk : k < 12) : imm.getLsbD k = false := by
  simp only [fitsU, decide_eq_true_eq] at h
  have := Nat.testBit_mod_two_pow imm.toNat 12 k
  rw [show (2 : Nat) ^ 12 = 4096 from rfl, h] at this
  simpa [hk, BitVec.getLsbD] using this

/-! ### An encoded immediate reads back -/

theorem immI_encodeI {imm : Word} (h : fitsI imm = true) (rs1 : RegIdx) (f3 : BitVec 3) (rd : RegIdx) (op : BitVec 7) :
    immI (encodeI imm rs1 f3 rd op) = imm := by
  apply BitVec.eq_of_getLsbD_eq
  intro k hk
  have hs := fun j hj hj' => getLsbD_eq_sign (range_of_fitsI h) (k := j) hj hj'
  rw [getLsbD_immI _ _ hk]
  simp only [getLsbD_encodeI]
  by_cases h1 : k < 12
  · interval_cases k <;> rfl
  · rw [if_neg h1, hs k (by omega) hk, ← hs 11 (by omega) (by omega)]; rfl

theorem immS_encodeS {imm : Word} (h : fitsI imm = true) (rs2 rs1 : RegIdx) (f3 : BitVec 3) (op : BitVec 7) :
    immS (encodeS imm rs2 rs1 f3 op) = imm := by
  apply BitVec.eq_of_getLsbD_eq
  intro k hk
  have hs := fun j hj hj' => getLsbD_eq_sign (range_of_fitsI h) (k := j) hj hj'
  rw [getLsbD_immS _ _ hk]
  simp only [getLsbD_encodeS]
  by_cases h1 : k < 12
  · interval_cases k <;> rfl
  · rw [if_neg h1, if_neg (by omega), hs k (by omega) hk, ← hs 11 (by omega) (by omega)]; rfl

theorem immB_encodeB {imm : Word} (h : fitsB imm = true) (rs2 rs1 : RegIdx) (f3 : BitVec 3) (op : BitVec 7) :
    immB (encodeB imm rs2 rs1 f3 op) = imm := by
  apply BitVec.eq_of_getLsbD_eq
  intro k hk
  have hs := fun j hj hj' => getLsbD_eq_sign (range_of_fitsB h).1 (k := j) hj hj'
  rw [getLsbD_immB _ _ hk]
  simp only [getLsbD_encodeB]
  by_cases h1 : k < 13
  · interval_cases k <;> first | rfl | exact (range_of_fitsB h).2.symm
  · rw [if_neg (by omega), if_neg (by omega), if_neg (by omega), if_neg (by omega), if_neg h1, hs k (by omega) hk,
      ← hs 12 (by omega) (by omega)]; rfl

theorem immJ_encodeJ {imm : Word} (h : fitsJ imm = true) (rd : RegIdx) (op : BitVec 7) :
    immJ (encodeJ imm rd op) = imm := by
  apply BitVec.eq_of_getLsbD_eq
  intro k hk
  have hs := fun j hj hj' => getLsbD_eq_sign (range_of_fitsJ h).1 (k := j) hj hj'
  rw [getLsbD_immJ _ _ hk]
  simp only [getLsbD_encodeJ]
  by_cases h1 : k < 21
  · interval_cases k <;> first | rfl | exact (range_of_fitsJ h).2.symm
  · rw [if_neg (by omega), if_neg (by omega), if_neg (by omega), if_neg (by omega), if_neg h1, hs k (by omega) hk,
      ← hs 20 (by omega) (by omega)]; rfl

theorem immU_encodeU {imm : Word} (h : fitsU imm = true) (rd : RegIdx) (op : BitVec 7) :
    immU (encodeU imm rd op) = imm := by
  apply BitVec.eq_of_getLsbD_eq
  intro k hk
  rw [getLsbD_immU _ _ hk]
  simp only [getLsbD_encodeU]
  by_cases h1 : k < 12
  · rw [if_pos h1, low_of_fitsU h h1]
  · interval_cases k <;> first | omega | rfl

/-! ### Every decoded immediate fits -/

theorem fitsI_signExtend (v : BitVec 12) : fitsI (v.signExtend 32) = true := by
  have h := BitVec.toInt_signExtend_of_le (x := v) (v := 32) (by decide)
  have h1 := BitVec.toInt_lt (x := v)
  have h2 := BitVec.le_toInt (x := v)
  simp only [fitsI, decide_eq_true_eq, h]
  norm_num at h1 h2
  omega

theorem fitsI_immI (w : Word) : fitsI (immI w) = true := fitsI_signExtend _

theorem fitsI_immS (w : Word) : fitsI (immS w) = true := fitsI_signExtend _

theorem even_of_getLsbD {v : Word} (h : v.getLsbD 0 = false) : v.toNat % 2 = 0 := by
  simpa [BitVec.getLsbD, Nat.testBit_zero] using h

theorem fitsB_immB (w : Word) : fitsB (immB w) = true := by
  have he : (immB w).toNat % 2 = 0 := even_of_getLsbD (by rw [getLsbD_immB _ _ (by decide)]; rfl)
  have key : ∀ v : BitVec 13, (v.signExtend 32).toNat % 2 = 0 → fitsB (v.signExtend 32) = true := by
    intro v he
    have h := BitVec.toInt_signExtend_of_le (x := v) (v := 32) (by decide)
    have h1 := BitVec.toInt_lt (x := v)
    have h2 := BitVec.le_toInt (x := v)
    have h3 := BitVec.toInt_eq_toNat_cond (v.signExtend 32)
    simp only [fitsB, decide_eq_true_eq]
    norm_num at h1 h2
    split at h3 <;> omega
  exact key _ he

theorem fitsJ_immJ (w : Word) : fitsJ (immJ w) = true := by
  have he : (immJ w).toNat % 2 = 0 := even_of_getLsbD (by rw [getLsbD_immJ _ _ (by decide)]; rfl)
  have key : ∀ v : BitVec 21, (v.signExtend 32).toNat % 2 = 0 → fitsJ (v.signExtend 32) = true := by
    intro v he
    have h := BitVec.toInt_signExtend_of_le (x := v) (v := 32) (by decide)
    have h1 := BitVec.toInt_lt (x := v)
    have h2 := BitVec.le_toInt (x := v)
    have h3 := BitVec.toInt_eq_toNat_cond (v.signExtend 32)
    simp only [fitsJ, decide_eq_true_eq]
    norm_num at h1 h2
    split at h3 <;> omega
  exact key _ he

theorem immU_eq (w : Word) : immU w = w &&& 0xFFFFF000#32 := by
  apply BitVec.eq_of_getLsbD_eq
  intro k hk
  rw [getLsbD_immU _ _ hk, BitVec.getLsbD_and]
  interval_cases k <;> simp

theorem fitsU_immU (w : Word) : fitsU (immU w) = true := by
  have : (immU w).toNat = (w.extractLsb' 12 20).toNat * 4096 := by
    show (w.extractLsb' 12 20 ++ 0#12).toNat = _
    rw [BitVec.toNat_append]; simp [Nat.shiftLeft_eq]
  simp [fitsU, this]

end Sys2Proof
end

