-- ==== Sys2Proof/Laws/Decode.lean ====
section
/-! SUPPORT. What each part of the decoder answers (spec R71 to R75): a well-formed instruction of its class that encodes back. -/

namespace Sys2Proof

/-- The eighth funct3 value. -/
theorem funct3_eq_seven {f : BitVec 3} (h0 : ¬f = 0#3) (h1 : ¬f = 1#3) (h2 : ¬f = 2#3) (h3 : ¬f = 3#3) (h4 : ¬f = 4#3) (h5 : ¬f = 5#3)
    (h6 : ¬f = 6#3) : f = 7#3 := by bv_omega

/-- Opcode 0x33 decoded: the instruction encodes to the same fields (R71). -/
theorem decodeArith_ok {f7 : BitVec 7} {f3 : BitVec 3} {rd rs1 rs2 : RegIdx} {i : Instr}
    (h : decodeArith f7 f3 rd rs1 rs2 = .ok i) :
    i.wellFormed = true ∧ encode i = encodeR f7 rs2 rs1 f3 rd 0x33#7 ∧ i.cls = .r := by
  unfold decodeArith at h
  split_ifs at h <;> cases h <;> first
    | (subst_vars; exact ⟨rfl, rfl, rfl⟩)
    | (have := funct3_eq_seven ‹_› ‹_› ‹_› ‹_› ‹_› ‹_› ‹_›; subst_vars; exact ⟨rfl, rfl, rfl⟩)

/-- A word put together with shamt in the place of rs2 (R68). -/
theorem encodeR_shamt_fields (w : Word) : encodeR (funct7Of w) (shamtOf w) (rs1Of w) (funct3Of w) (rdOf w) (opcodeOf w) = w := encodeR_fields w

/-- Opcode 0x13 decoded: the instruction encodes to the word (R72). -/
theorem decodeImm_ok {w : Word} (ho : opcodeOf w = 0x13#7) {i : Instr}
    (h : decodeImm (funct7Of w) (funct3Of w) (rdOf w) (rs1Of w) (immI w) (shamtOf w) = .ok i) :
    i.wellFormed = true ∧ encode i = w ∧ i.cls = .iArith := by
  have e1 := encodeI_fields w
  have e2 := encodeR_shamt_fields w
  rw [ho] at e1 e2
  unfold decodeImm at h
  split_ifs at h <;> cases h
  all_goals first
    | (rename_i h; rw [h] at e1; exact ⟨fitsI_immI w, e1, rfl⟩)
    | (rename_i h h'; rw [h, h'] at e2; exact ⟨rfl, e2, rfl⟩)
    | (rename_i h _ h'; rw [h, h'] at e2; exact ⟨rfl, e2, rfl⟩)
    | (have h7 : funct3Of w = 7#3 := funct3_eq_seven ‹_› ‹_› ‹_› ‹_› ‹_› ‹_› ‹_›; rw [h7] at e1; exact ⟨fitsI_immI w, e1, rfl⟩)

/-- Opcode 0x03 decoded: the instruction encodes to the word (R73). -/
theorem decodeLoad_ok {w : Word} (ho : opcodeOf w = 0x03#7) {i : Instr}
    (h : decodeLoad (funct3Of w) (rdOf w) (rs1Of w) (immI w)= .ok i) :
    i.wellFormed = true ∧ encode i = w ∧ i.cls = .iLoad := by
  have e1 := encodeI_fields w
  rw [ho] at e1
  unfold decodeLoad at h
  split_ifs at h <;> cases h
  all_goals (rename_i h; rw [h] at e1; exact ⟨fitsI_immI w, e1, rfl⟩)

/-- Opcode 0x23 decoded: the instruction encodes to the word (R74). -/
theorem decodeStore_ok {w : Word} (ho : opcodeOf w = 0x23#7) {i : Instr}
    (h : decodeStore (funct3Of w) (rs2Of w) (rs1Of w) (immS w)= .ok i) :
    i.wellFormed = true ∧ encode i = w ∧ i.cls = .s := by
  have e1 := encodeS_fields w
  rw [ho] at e1
  unfold decodeStore at h
  split_ifs at h <;> cases h
  all_goals (rename_i h; rw [h] at e1; exact ⟨fitsI_immS w, e1, rfl⟩)

/-- Opcode 0x63 decoded: the instruction encodes to the word (R75). -/
theorem decodeBranch_ok {w : Word} (ho : opcodeOf w = 0x63#7) {i : Instr}
    (h : decodeBranch (funct3Of w) (rs1Of w) (rs2Of w) (immB w)= .ok i) :
    i.wellFormed = true ∧ encode i = w ∧ i.cls = .b := by
  have e1 := encodeB_fields w
  rw [ho] at e1
  unfold decodeBranch at h
  split_ifs at h <;> cases h
  all_goals (rename_i h; rw [h] at e1; exact ⟨fitsB_immB w, e1, rfl⟩)

/-- The shift amount is the low five bits of the I immediate (R68). -/
theorem shamtOf_eq_immI (w : Word) : (immI w).extractLsb' 0 5 = shamtOf w := by
  apply BitVec.eq_of_getLsbD_eq
  intro k hk
  simp only [shamtOf, BitVec.getLsbD_extractLsb', hk, decide_true, Bool.true_and, Nat.zero_add]
  rw [getLsbD_immI w k (by omega)]
  interval_cases k <;> rfl

/-- The record of a word that decodes (R80). -/
theorem decodeRecord_of_decode {w : Word} {i : Instr} (h : decode w = .ok i) :
    decodeRecord w =
      .ok ⟨i.cls, i.mnemonic, funct3Of w, funct7Of w, rdOf w, rs1Of w, rs2Of w, immOfClass w i.cls⟩ := by simp only [decodeRecord, h]

/-- A word with no instruction has no record, and is rejected by the same name (R79). -/
theorem decodeRecord_error {w : Word} {e : DecodeError} : decodeRecord w = .error e ↔ decode w = .error e := by
  unfold decodeRecord
  split <;> simp_all

end Sys2Proof
end

