-- ==== Sys2Proof/Laws/State.lean ====
section
/-! SUPPORT. What each update of the state does to each field: one lemma per field per update. -/

namespace Sys2Proof.Machine

/-! ### setReg -/

@[simp] theorem State.setReg_pc (s : State) (r : RegIdx) (v : Word) : (s.setReg r v).pc = s.pc := by unfold State.setReg; split <;> rfl
@[simp] theorem State.setReg_mem (s : State) (r : RegIdx) (v : Word) : (s.setReg r v).mem = s.mem := by unfold State.setReg; split <;> rfl
@[simp] theorem State.setReg_status (s : State) (r : RegIdx) (v : Word) : (s.setReg r v).status = s.status := by unfold State.setReg; split <;> rfl
@[simp] theorem State.setReg_console (s : State) (r : RegIdx) (v : Word) : (s.setReg r v).console = s.console := by unfold State.setReg; split <;> rfl
@[simp] theorem State.setReg_frames (s : State) (r : RegIdx) (v : Word) : (s.setReg r v).frames = s.frames := by unfold State.setReg; split <;> rfl
@[simp] theorem State.setReg_hostCalls (s : State) (r : RegIdx) (v : Word) : (s.setReg r v).hostCalls = s.hostCalls := by unfold State.setReg; split <;> rfl
@[simp] theorem State.setReg_hostReplies (s : State) (r : RegIdx) (v : Word) : (s.setReg r v).hostReplies = s.hostReplies := by unfold State.setReg; split <;> rfl
@[simp] theorem State.setReg_hostDraws (s : State) (r : RegIdx) (v : Word) : (s.setReg r v).hostDraws = s.hostDraws := by unfold State.setReg; split <;> rfl
@[simp] theorem State.setReg_params (s : State) (r : RegIdx) (v : Word) : (s.setReg r v).params = s.params := by unfold State.setReg; split <;> rfl

/-! ### setPc -/

@[simp] theorem State.setPc_regs (s : State) (v : Word) : (s.setPc v).regs = s.regs := rfl
@[simp] theorem State.setPc_pc (s : State) (v : Word) : (s.setPc v).pc = v := rfl
@[simp] theorem State.setPc_mem (s : State) (v : Word) : (s.setPc v).mem = s.mem := rfl
@[simp] theorem State.setPc_status (s : State) (v : Word) : (s.setPc v).status = s.status := rfl
@[simp] theorem State.setPc_console (s : State) (v : Word) : (s.setPc v).console = s.console := rfl
@[simp] theorem State.setPc_frames (s : State) (v : Word) : (s.setPc v).frames = s.frames := rfl
@[simp] theorem State.setPc_hostCalls (s : State) (v : Word) : (s.setPc v).hostCalls = s.hostCalls := rfl
@[simp] theorem State.setPc_hostReplies (s : State) (v : Word) : (s.setPc v).hostReplies = s.hostReplies := rfl
@[simp] theorem State.setPc_hostDraws (s : State) (v : Word) : (s.setPc v).hostDraws = s.hostDraws := rfl
@[simp] theorem State.setPc_params (s : State) (v : Word) : (s.setPc v).params = s.params := rfl

/-! ### advance -/

@[simp] theorem State.advance_regs (s : State) : (s.advance).regs = s.regs := rfl
@[simp] theorem State.advance_pc (s : State) : (s.advance).pc = s.pc + 4#32 := rfl
@[simp] theorem State.advance_mem (s : State) : (s.advance).mem = s.mem := rfl
@[simp] theorem State.advance_status (s : State) : (s.advance).status = s.status := rfl
@[simp] theorem State.advance_console (s : State) : (s.advance).console = s.console := rfl
@[simp] theorem State.advance_frames (s : State) : (s.advance).frames = s.frames := rfl
@[simp] theorem State.advance_hostCalls (s : State) : (s.advance).hostCalls = s.hostCalls := rfl
@[simp] theorem State.advance_hostReplies (s : State) : (s.advance).hostReplies = s.hostReplies := rfl
@[simp] theorem State.advance_hostDraws (s : State) : (s.advance).hostDraws = s.hostDraws := rfl
@[simp] theorem State.advance_params (s : State) : (s.advance).params = s.params := rfl

/-! ### setMem -/

@[simp] theorem State.setMem_regs (s : State) (m : Memory) : (s.setMem m).regs = s.regs := rfl
@[simp] theorem State.setMem_pc (s : State) (m : Memory) : (s.setMem m).pc = s.pc := rfl
@[simp] theorem State.setMem_mem (s : State) (m : Memory) : (s.setMem m).mem = m := rfl
@[simp] theorem State.setMem_status (s : State) (m : Memory) : (s.setMem m).status = s.status := rfl
@[simp] theorem State.setMem_console (s : State) (m : Memory) : (s.setMem m).console = s.console := rfl
@[simp] theorem State.setMem_frames (s : State) (m : Memory) : (s.setMem m).frames = s.frames := rfl
@[simp] theorem State.setMem_hostCalls (s : State) (m : Memory) : (s.setMem m).hostCalls = s.hostCalls := rfl
@[simp] theorem State.setMem_hostReplies (s : State) (m : Memory) : (s.setMem m).hostReplies = s.hostReplies := rfl
@[simp] theorem State.setMem_hostDraws (s : State) (m : Memory) : (s.setMem m).hostDraws = s.hostDraws := rfl
@[simp] theorem State.setMem_params (s : State) (m : Memory) : (s.setMem m).params = s.params := rfl

/-! ### print -/

@[simp] theorem State.print_regs (s : State) (bs : List Byte) : (s.print bs).regs = s.regs := rfl
@[simp] theorem State.print_pc (s : State) (bs : List Byte) : (s.print bs).pc = s.pc := rfl
@[simp] theorem State.print_mem (s : State) (bs : List Byte) : (s.print bs).mem = s.mem := rfl
@[simp] theorem State.print_status (s : State) (bs : List Byte) : (s.print bs).status = s.status := rfl
@[simp] theorem State.print_console (s : State) (bs : List Byte) : (s.print bs).console = s.console ++ [bs] := rfl
@[simp] theorem State.print_frames (s : State) (bs : List Byte) : (s.print bs).frames = s.frames := rfl
@[simp] theorem State.print_hostCalls (s : State) (bs : List Byte) : (s.print bs).hostCalls = s.hostCalls := rfl
@[simp] theorem State.print_hostReplies (s : State) (bs : List Byte) : (s.print bs).hostReplies = s.hostReplies := rfl
@[simp] theorem State.print_hostDraws (s : State) (bs : List Byte) : (s.print bs).hostDraws = s.hostDraws := rfl
@[simp] theorem State.print_params (s : State) (bs : List Byte) : (s.print bs).params = s.params := rfl

/-! ### publish -/

@[simp] theorem State.publish_regs (s : State) (f : List Byte) : (s.publish f).regs = s.regs := rfl
@[simp] theorem State.publish_pc (s : State) (f : List Byte) : (s.publish f).pc = s.pc := rfl
@[simp] theorem State.publish_mem (s : State) (f : List Byte) : (s.publish f).mem = s.mem := rfl
@[simp] theorem State.publish_status (s : State) (f : List Byte) : (s.publish f).status = s.status := rfl
@[simp] theorem State.publish_console (s : State) (f : List Byte) : (s.publish f).console = s.console := rfl
@[simp] theorem State.publish_frames (s : State) (f : List Byte) : (s.publish f).frames = s.frames ++ [f] := rfl
@[simp] theorem State.publish_hostCalls (s : State) (f : List Byte) : (s.publish f).hostCalls = s.hostCalls := rfl
@[simp] theorem State.publish_hostReplies (s : State) (f : List Byte) : (s.publish f).hostReplies = s.hostReplies := rfl
@[simp] theorem State.publish_hostDraws (s : State) (f : List Byte) : (s.publish f).hostDraws = s.hostDraws := rfl
@[simp] theorem State.publish_params (s : State) (f : List Byte) : (s.publish f).params = s.params := rfl

/-! ### halt -/

@[simp] theorem State.halt_regs (s : State) (h : Halt) : (s.halt h).regs = s.regs := rfl
@[simp] theorem State.halt_pc (s : State) (h : Halt) : (s.halt h).pc = s.pc := rfl
@[simp] theorem State.halt_mem (s : State) (h : Halt) : (s.halt h).mem = s.mem := rfl
@[simp] theorem State.halt_status (s : State) (h : Halt) : (s.halt h).status = .halted h := rfl
@[simp] theorem State.halt_console (s : State) (h : Halt) : (s.halt h).console = s.console := rfl
@[simp] theorem State.halt_frames (s : State) (h : Halt) : (s.halt h).frames = s.frames := rfl
@[simp] theorem State.halt_hostCalls (s : State) (h : Halt) : (s.halt h).hostCalls = s.hostCalls := rfl
@[simp] theorem State.halt_hostReplies (s : State) (h : Halt) : (s.halt h).hostReplies = s.hostReplies := rfl
@[simp] theorem State.halt_hostDraws (s : State) (h : Halt) : (s.halt h).hostDraws = s.hostDraws := rfl
@[simp] theorem State.halt_params (s : State) (h : Halt) : (s.halt h).params = s.params := rfl

/-! ### afterHostCall -/

@[simp] theorem State.afterHostCall_regs (s : State) (req : HostRequest) : (s.afterHostCall req).regs = s.regs := rfl
@[simp] theorem State.afterHostCall_pc (s : State) (req : HostRequest) : (s.afterHostCall req).pc = s.pc := rfl
@[simp] theorem State.afterHostCall_mem (s : State) (req : HostRequest) : (s.afterHostCall req).mem = s.mem := rfl
@[simp] theorem State.afterHostCall_status (s : State) (req : HostRequest) : (s.afterHostCall req).status = s.status := rfl
@[simp] theorem State.afterHostCall_console (s : State) (req : HostRequest) : (s.afterHostCall req).console = s.console := rfl
@[simp] theorem State.afterHostCall_frames (s : State) (req : HostRequest) : (s.afterHostCall req).frames = s.frames := rfl
@[simp] theorem State.afterHostCall_hostCalls (s : State) (req : HostRequest) : (s.afterHostCall req).hostCalls = s.hostCalls ++ [{ request := req, reply := s.hostResponse req }] := rfl
@[simp] theorem State.afterHostCall_hostReplies (s : State) (req : HostRequest) : (s.afterHostCall req).hostReplies = s.hostReplies.tail := rfl
@[simp] theorem State.afterHostCall_hostDraws (s : State) (req : HostRequest) : (s.afterHostCall req).hostDraws = s.hostDraws + 1 := rfl
@[simp] theorem State.afterHostCall_params (s : State) (req : HostRequest) : (s.afterHostCall req).params = s.params := rfl

/-! ### Registers through the updates -/

/-- x0 reads zero (R22). -/
@[simp] theorem State.getReg_zero (s : State) : s.getReg 0#5 = 0#32 := rfl

/-- A write to x0 changes nothing (R22). -/
@[simp] theorem State.setReg_zero (s : State) (v : Word) : s.setReg 0#5 v = s := rfl

/-- A register read depends on the register file alone. -/
theorem State.getReg_congr {s t : State} (h : t.regs = s.regs) (r : RegIdx) : t.getReg r = s.getReg r := by
  unfold State.getReg; simp only [h]

/-- A register read after a register write (R22, R23). -/
theorem State.getReg_setReg (s : State) (r : RegIdx) (v : Word) (q : RegIdx) :
    (s.setReg r v).getReg q = if q = 0#5 then 0#32 else if q = r then v else s.getReg q := by
  unfold State.setReg State.getReg
  by_cases hq : q = 0#5
  · simp [hq]
  · by_cases hr : r = 0#5
    · have : q ≠ r := fun h => hq (h.trans hr)
      simp [hq, hr]
    · by_cases h : q = r
      · subst h; simp [hq]
      · have hne : r.toNat ≠ q.toNat := fun e => h (BitVec.eq_of_toNat_eq e).symm
        simp [hq, hr, h, hne]

/-- No register write reaches x0's slot (R22). -/
@[simp] theorem State.setReg_slot0 (s : State) (r : RegIdx) (v : Word) : (s.setReg r v).regs[0] = s.regs[0] := by
  unfold State.setReg
  split
  · rfl
  · rename_i h
    have : r.toNat ≠ 0 := fun e => h (BitVec.eq_of_toNat_eq (by simpa using e))
    simp [this]

@[simp] theorem State.getReg_setPc (s : State) (v : Word) (r : RegIdx) : (s.setPc v).getReg r = s.getReg r := rfl
@[simp] theorem State.getReg_advance (s : State) (r : RegIdx) : (s.advance).getReg r = s.getReg r := rfl
@[simp] theorem State.getReg_setMem (s : State) (m : Memory) (r : RegIdx) : (s.setMem m).getReg r = s.getReg r := rfl
@[simp] theorem State.getReg_print (s : State) (bs : List Byte) (r : RegIdx) : (s.print bs).getReg r = s.getReg r := rfl
@[simp] theorem State.getReg_publish (s : State) (f : List Byte) (r : RegIdx) : (s.publish f).getReg r = s.getReg r := rfl
@[simp] theorem State.getReg_halt (s : State) (h : Halt) (r : RegIdx) : (s.halt h).getReg r = s.getReg r := rfl
@[simp] theorem State.getReg_afterHostCall (s : State) (req : HostRequest) (r : RegIdx) : (s.afterHostCall req).getReg r = s.getReg r := rfl

end Sys2Proof.Machine
end

