-- ==== Sys2Proof/Laws/Memory.lean ====
section
/-! SUPPORT. The laws of memory as data: read after write, and that every operation keeps the canonical form. -/

namespace Sys2Proof.Machine

/-! ### One byte -/

@[simp] theorem Memory.read_nil (a : Nat) : Memory.read [] a = Memory.unlisted := rfl

/-- An address below every listed one reads as unlisted. -/
theorem Memory.read_below (m : Memory) (a : Nat) (h : ∀ c ∈ m, a < c.1) : m.read a = Memory.unlisted := by
  induction m with
  | nil => rfl
  | cons c m ih =>
    have hc := h c (by simp)
    rw [Memory.read, if_neg (Nat.ne_of_lt hc)]
    exact ih fun d hd => h d (by simp [hd])

/-- The canonical form, taken apart at the first entry. -/
theorem Memory.wf_cons {c : Host.Cell} {m : Memory} :
    Memory.wf (c :: m) = true ↔ c.2 ≠ Memory.unlisted ∧ (∀ d ∈ m, c.1 < d.1) ∧ Memory.wf m = true := by
  simp [Memory.wf, and_assoc]

/-- A write leaves every other byte alone, whatever the form of the memory (R43). -/
theorem Memory.read_write_ne (m : Memory) (a : Nat) (b : Byte) (x : Nat) (h : x ≠ a) :
    (m.write a b).read x = m.read x := by
  induction m with
  | nil => unfold Memory.write; split <;> simp [Memory.read, h]
  | cons c m ih =>
    obtain ⟨y, d⟩ := c
    unfold Memory.write
    split
    · split <;> simp [Memory.read, h]
    · split
      · subst_vars; split <;> simp [Memory.read, h]
      · simp [Memory.read, ih]

/-- A byte written reads back, in a memory of canonical form (R43, R265). -/
theorem Memory.read_write_self (m : Memory) (hm : m.wf = true) (a : Nat) (b : Byte) : (m.write a b).read a = b := by
  induction m with
  | nil => unfold Memory.write; split <;> simp_all [Memory.read]
  | cons c m ih =>
    obtain ⟨y, d⟩ := c
    obtain ⟨_, hlt, hm'⟩ := Memory.wf_cons.mp hm
    unfold Memory.write
    split
    · rename_i hay
      split
      · subst_vars
        rw [Memory.read, if_neg (Nat.ne_of_lt hay)]
        exact Memory.read_below m a fun e he => Nat.lt_trans hay (hlt e he)
      · simp [Memory.read]
    · split
      · subst_vars
        split
        · subst_vars; exact Memory.read_below m _ hlt
        · simp [Memory.read]
      · rename_i hne; simp [Memory.read, hne, ih hm']

/-- Every entry of a memory after a write is an old one or the written one. -/
theorem Memory.mem_write (m : Memory) (a : Nat) (b : Byte) (c : Host.Cell) (h : c ∈ m.write a b) :
    c ∈ m ∨ (c.1 = a ∧ c.2 = b) := by
  induction m with
  | nil => unfold Memory.write at h; split at h <;> simp_all
  | cons d m ih =>
    obtain ⟨y, e⟩ := d
    unfold Memory.write at h
    split at h
    · split at h
      · exact .inl h
      · rcases List.mem_cons.mp h with rfl | h
        · exact .inr ⟨rfl, rfl⟩
        · exact .inl h
    · split at h
      · split at h
        · exact .inl (List.mem_cons_of_mem _ h)
        · rcases List.mem_cons.mp h with rfl | h
          · exact .inr ⟨rfl, rfl⟩
          · exact .inl (List.mem_cons_of_mem _ h)
      · simp only [List.mem_cons] at h ⊢
        rcases h with h | h
        · exact .inl (.inl h)
        · exact (ih h).imp .inr id

/-- A write keeps the canonical form. -/
theorem Memory.wf_write (m : Memory) (hm : m.wf = true) (a : Nat) (b : Byte) : (m.write a b).wf = true := by
  induction m with
  | nil => unfold Memory.write; split <;> simp_all [Memory.wf]
  | cons c m ih =>
    obtain ⟨y, d⟩ := c
    obtain ⟨hd, hlt, hm'⟩ := Memory.wf_cons.mp hm
    unfold Memory.write
    split
    · rename_i hay
      split
      · exact hm
      · rename_i hb
        refine Memory.wf_cons.mpr ⟨hb, ?_, hm⟩
        intro e he
        rcases List.mem_cons.mp he with rfl | he
        · exact hay
        · exact Nat.lt_trans hay (hlt e he)
    · split
      · subst_vars
        split
        · exact hm'
        · rename_i hb; exact Memory.wf_cons.mpr ⟨hb, hlt, hm'⟩
      · rename_i h1 h2
        refine Memory.wf_cons.mpr ⟨hd, ?_, ih hm'⟩
        intro e he
        rcases Memory.mem_write m a b e he with he | ⟨he, _⟩
        · exact hlt e he
        · simp only [he]; omega

/-- A write below `n` keeps every listed address below `n`. -/
theorem Memory.within_write (n : Nat) (m : Memory) (hm : m.within n = true) (a : Nat) (b : Byte) (ha : a < n) :
    (m.write a b).within n = true := by
  simp only [Memory.within, List.all_eq_true, decide_eq_true_eq] at hm ⊢
  intro c hc
  rcases Memory.mem_write m a b c hc with h | ⟨h, _⟩
  · exact hm c h
  · omega

/-! ### Byte strings -/

@[simp] theorem Memory.length_readBytes (m : Memory) (a n : Nat) : (m.readBytes a n).length = n := by
  induction n generalizing a with
  | zero => rfl
  | succ n ih => simp [Memory.readBytes, ih]

/-- Byte k of a read is the byte at `a + k` (R44). -/
theorem Memory.getElem_readBytes (m : Memory) (a n k : Nat) (h : k < (m.readBytes a n).length) :
    (m.readBytes a n)[k] = m.read (a + k) := by
  induction n generalizing a k with
  | zero => simp [Memory.readBytes] at h
  | succ n ih =>
    cases k with
    | zero => simp [Memory.readBytes]
    | succ k =>
      simp only [Memory.readBytes, List.getElem_cons_succ]
      rw [ih]; congr 1; omega

/-- Writing a byte string leaves every byte outside it alone (R43, R44). -/
theorem Memory.read_writeBytes_ne (bs : List Byte) (m : Memory) (a x : Nat) (h : x < a ∨ a + bs.length ≤ x) :
    (m.writeBytes a bs).read x = m.read x := by
  induction bs generalizing m a with
  | nil => rfl
  | cons b bs ih =>
    simp only [List.length_cons] at h
    rw [Memory.writeBytes, ih _ _ (by omega), Memory.read_write_ne _ _ _ _ (by omega)]

/-- Writing a byte string keeps the canonical form. -/
theorem Memory.wf_writeBytes (bs : List Byte) (m : Memory) (hm : m.wf = true) (a : Nat) :
    (m.writeBytes a bs).wf = true := by
  induction bs generalizing m a with
  | nil => exact hm
  | cons b bs ih => exact ih _ (Memory.wf_write m hm a b) _

/-- Writing a byte string below `n` keeps every listed address below `n`. -/
theorem Memory.within_writeBytes (n : Nat) (bs : List Byte) (m : Memory) (hm : m.within n = true) (a : Nat)
    (ha : bs = [] ∨ a + bs.length ≤ n) : (m.writeBytes a bs).within n = true := by
  induction bs generalizing m a with
  | nil => exact hm
  | cons b bs ih =>
    simp only [List.length_cons, reduceCtorEq, false_or] at ha
    refine ih _ (Memory.within_write n m hm a b (by omega)) _ ?_
    exact .inr (by omega)

/-- A byte string written reads back, in a memory of canonical form (R43, R44). -/
theorem Memory.read_writeBytes (bs : List Byte) (m : Memory) (hm : m.wf = true) (a k : Nat) (h : k < bs.length) :
    (m.writeBytes a bs).read (a + k) = bs[k] := by
  induction bs generalizing m a k with
  | nil => simp at h
  | cons b bs ih =>
    rw [Memory.writeBytes]
    cases k with
    | zero =>
      rw [Memory.read_writeBytes_ne _ _ _ _ (by omega)]
      simpa using Memory.read_write_self m hm a b
    | succ k =>
      have := ih (m.write a b) (Memory.wf_write m hm a b) (a + 1) k (by simpa using h)
      rw [show a + (k + 1) = a + 1 + k by omega, this]; simp

@[simp] theorem length_leBytes (n : Nat) (v : Word) : (leBytes n v).length = n := by simp [leBytes]

/-- Byte k of a value in little-endian order (R43). -/
theorem getElem_leBytes (n : Nat) (v : Word) (k : Nat) (h : k < (leBytes n v).length) :
    (leBytes n v)[k] = v.extractLsb' (8 * k) 8 := by simp [leBytes]

/-! ### Values in memory -/

/-- The value of four bytes (R42). -/
theorem leWord_readBytes_4 (m : Memory) (a : Nat) :
    leWord (m.readBytes a 4) = m.read (a + 3) ++ m.read (a + 2) ++ m.read (a + 1) ++ m.read a := by
  apply BitVec.eq_of_toNat_eq
  have h0 := (m.read a).isLt; have h1 := (m.read (a + 1)).isLt; have h2 := (m.read (a + 2)).isLt; have h3 := (m.read (a + 3)).isLt
  show (BitVec.ofNat 32 (leNat [m.read a, m.read (a + 1), m.read (a + 2), m.read (a + 3)])).toNat = _
  rw [BitVec.toNat_append, BitVec.toNat_append, BitVec.toNat_append]
  simp only [leNat, BitVec.toNat_ofNat]
  rw [← Nat.shiftLeft_add_eq_or_of_lt h0, ← Nat.shiftLeft_add_eq_or_of_lt h1, ← Nat.shiftLeft_add_eq_or_of_lt h2]
  simp only [Nat.shiftLeft_eq]; omega

/-- The value of two bytes, unsigned (R42). -/
theorem toNat_leWord_readBytes_2 (m : Memory) (a : Nat) :
    (leWord (m.readBytes a 2)).toNat = (m.read a).toNat + 256 * (m.read (a + 1)).toNat := by
  have h0 := (m.read a).isLt; have h1 := (m.read (a + 1)).isLt
  show (BitVec.ofNat 32 (leNat [m.read a, m.read (a + 1)])).toNat = _
  simp only [leNat, BitVec.toNat_ofNat]
  omega

/-- The value of one byte, unsigned (R42). -/
theorem toNat_leWord_readBytes_1 (m : Memory) (a : Nat) :
    (leWord (m.readBytes a 1)).toNat = (m.read a).toNat := by
  have h0 := (m.read a).isLt
  show (BitVec.ofNat 32 (leNat [m.read a])).toNat = _
  simp only [leNat, BitVec.toNat_ofNat]
  omega

/-- The low byte of the value of one byte. -/
theorem setWidth_leWord_readBytes_1 (m : Memory) (a : Nat) :
    (leWord (m.readBytes a 1)).setWidth 8 = m.read a := by
  have h0 := (m.read a).isLt
  apply BitVec.eq_of_toNat_eq
  rw [BitVec.toNat_setWidth, toNat_leWord_readBytes_1]; omega

/-- The low halfword of the value of two bytes. -/
theorem setWidth_leWord_readBytes_2 (m : Memory) (a : Nat) :
    (leWord (m.readBytes a 2)).setWidth 16 = m.read (a + 1) ++ m.read a := by
  have h0 := (m.read a).isLt; have h1 := (m.read (a + 1)).isLt
  apply BitVec.eq_of_toNat_eq
  rw [BitVec.toNat_setWidth, toNat_leWord_readBytes_2, BitVec.toNat_append, ← Nat.shiftLeft_add_eq_or_of_lt h0]
  simp only [Nat.shiftLeft_eq]; omega

/-- The four bytes of a value have that value (R42, R43). -/
theorem leWord_leBytes_4 (v : Word) : leWord (leBytes 4 v) = v := by
  have : leWord (leBytes 4 v) = v.extractLsb' 24 8 ++ v.extractLsb' 16 8 ++ v.extractLsb' 8 8 ++ v.extractLsb' 0 8 := by
    have h0 := (v.extractLsb' 0 8).isLt; have h1 := (v.extractLsb' 8 8).isLt; have h2 := (v.extractLsb' 16 8).isLt; have h3 := (v.extractLsb' 24 8).isLt
    apply BitVec.eq_of_toNat_eq
    show (BitVec.ofNat 32 (leNat [v.extractLsb' 0 8, v.extractLsb' 8 8, v.extractLsb' 16 8, v.extractLsb' 24 8])).toNat = _
    rw [BitVec.toNat_append, BitVec.toNat_append, BitVec.toNat_append]
    rw [← Nat.shiftLeft_add_eq_or_of_lt h0, ← Nat.shiftLeft_add_eq_or_of_lt h1, ← Nat.shiftLeft_add_eq_or_of_lt h2]
    simp only [leNat, BitVec.toNat_ofNat, Nat.shiftLeft_eq]; omega
  rw [this]
  apply BitVec.eq_of_getLsbD_eq; intro k hk
  simp only [BitVec.getLsbD_append, BitVec.getLsbD_extractLsb']
  interval_cases k <;> rfl

/-! ### Strings (R240) -/

/-- What a scan that finds a 0x00 has found. -/
theorem Memory.scanNul_some (m : Memory) (a fuel : Nat) (bs : List Byte) (h : m.scanNul a fuel = some bs) :
    bs.length < fuel ∧ (∀ b ∈ bs, b ≠ 0#8) ∧ m.read (a + bs.length) = 0#8 ∧
      ∀ k (hk : k < bs.length), bs[k] = m.read (a + k) := by
  induction fuel generalizing a bs with
  | zero => simp [Memory.scanNul] at h
  | succ n ih =>
    rw [Memory.scanNul] at h
    split at h
    · simp only [Option.some.injEq] at h; subst h; simp_all
    · rename_i hne
      obtain ⟨cs, hcs, rfl⟩ := Option.map_eq_some_iff.mp h
      obtain ⟨h1, h2, h3, h4⟩ := ih _ _ hcs
      refine ⟨by simpa using h1, ?_, ?_, ?_⟩
      · intro b hb
        rcases List.mem_cons.mp hb with rfl | hb
        · exact hne
        · exact h2 b hb
      · rw [← h3]; congr 1; simp; omega
      · intro k hk
        cases k with
        | zero => simp
        | succ k => simp only [List.getElem_cons_succ]; rw [h4]; congr 1; omega

/-- A scan that finds nothing has met no 0x00. -/
theorem Memory.scanNul_none (m : Memory) (a fuel : Nat) (h : m.scanNul a fuel = none) :
    ∀ k, k < fuel → m.read (a + k) ≠ 0#8 := by
  induction fuel generalizing a with
  | zero => omega
  | succ n ih =>
    rw [Memory.scanNul] at h
    split at h
    · simp at h
    · rename_i hne
      intro k hk
      cases k with
      | zero => simpa using hne
      | succ k =>
        have := ih (a + 1) (by simpa using h) k (by omega)
        rwa [show a + (k + 1) = a + 1 + k by omega]

/-- A scan over a string and its 0x00 finds the string. -/
theorem Memory.scanNul_of_string (m : Memory) (a : Nat) (bs : List Byte) (fuel : Nat) (hf : bs.length < fuel)
    (hb : ∀ k (hk : k < bs.length), bs[k] = m.read (a + k)) (hn : ∀ b ∈ bs, b ≠ 0#8)
    (he : m.read (a + bs.length) = 0#8) : m.scanNul a fuel = some bs := by
  induction bs generalizing a fuel with
  | nil =>
    obtain ⟨f, rfl⟩ : ∃ f, fuel = f + 1 := ⟨fuel - 1, by simp at hf; omega⟩
    simp at he; simp [Memory.scanNul, he]
  | cons b bs ih =>
    obtain ⟨f, rfl⟩ : ∃ f, fuel = f + 1 := ⟨fuel - 1, by simp at hf; omega⟩
    have h0 : b = m.read a := hb 0 (by simp)
    have hne : m.read a ≠ 0#8 := h0 ▸ hn b (by simp)
    have := ih (a + 1) f (by simpa using hf)
      (fun k hk => by
        have := hb (k + 1) (by simpa using hk)
        simp only [List.getElem_cons_succ] at this
        rw [this]; congr 1; omega)
      (fun c hc => hn c (by simp [hc]))
      (by rw [← he]; congr 1; simp; omega)
    rw [Memory.scanNul, if_neg hne, this]; simp [h0]

end Sys2Proof.Machine
end

