-- ==== Sys2Proof/Laws/Outcome.lean ====
section
/-! SUPPORT. What each shared operation can do, said once: memory accesses, completion, halts, host calls, services, and
`exec` as a whole. -/

namespace Sys2Proof.Machine

/-! ### Memory accesses -/

/-- Bytes are in bounds when they end at or below mem_size, or when there are none (R41, R44). -/
theorem State.inBounds_iff (s : State) (a n : Nat) : s.inBounds a n = true ↔ n = 0 ∨ a + n ≤ s.params.memSize := by
  simp [State.inBounds]

theorem State.memRead_of_inBounds {s : State} {a : Word} {n : Nat} (h : s.inBounds a.toNat n = true) :
    s.memRead a n = some (leWord (s.mem.readBytes a.toNat n)) := by simp [State.memRead, h]

theorem State.memRead_of_outside {s : State} {a : Word} {n : Nat} (h : s.inBounds a.toNat n = false) :
    s.memRead a n = none := by simp [State.memRead, h]

theorem State.memWrite_of_inBounds {s : State} {a : Word} {n : Nat} (v : Word) (h : s.inBounds a.toNat n = true) :
    s.memWrite a n v = some (s.setMem (s.mem.writeBytes a.toNat (leBytes n v))) := by simp [State.memWrite, h]

theorem State.memWrite_of_outside {s : State} {a : Word} {n : Nat} (v : Word) (h : s.inBounds a.toNat n = false) :
    s.memWrite a n v = none := by simp [State.memWrite, h]

theorem State.readRange_of_inBounds {s : State} {a : Word} {n : Nat} (h : s.inBounds a.toNat n = true) :
    s.readRange a n = some (s.mem.readBytes a.toNat n) := by simp [State.readRange, h]

theorem State.readRange_of_outside {s : State} {a : Word} {n : Nat} (h : s.inBounds a.toNat n = false) :
    s.readRange a n = none := by simp [State.readRange, h]

/-- What a range read answers has the range's length. -/
theorem State.length_of_readRange {s : State} {a : Word} {n : Nat} {bs : List Byte} (h : s.readRange a n = some bs) :
    bs.length = n := by
  unfold State.readRange at h
  split at h
  · cases h; simp
  · cases h

/-- A range write that succeeds writes in bounds and changes memory alone (R44). -/
theorem State.writeRange_some {s t : State} {a : Word} {bs : List Byte} (h : s.writeRange a bs = some t) :
    s.inBounds a.toNat bs.length = true ∧ t = s.setMem (s.mem.writeBytes a.toNat bs) := by
  unfold State.writeRange at h
  split at h
  · rename_i hb; cases h; exact ⟨hb, rfl⟩
  · cases h

/-! ### Completion and halts -/

theorem retireReg_eq (rd : RegIdx) (v : Word) (s : State) : retireReg rd v s = .next (s.setReg rd v).advance := rfl

theorem raise_eq (h : Halt) (s : State) : raise h s = .next (s.halt h) := rfl

/-- A halt changes the status alone (R222). -/
theorem State.haltedWith_halt (s : State) (h : Halt) : HaltedWith s (s.halt h) h := by constructor <;> rfl

/-- Writing a register and setting the pc changes nothing else (R261). -/
theorem State.wroteReg_setReg_setPc (s : State) (rd : RegIdx) (v pc : Word) :
    WroteReg s ((s.setReg rd v).setPc pc) rd v pc := by
  refine ⟨fun r => ?_, by simp, fun a => by simp, ⟨by simp, by simp, by simp, by simp, by simp, by simp, by simp⟩⟩
  rw [State.getReg_setPc, State.getReg_setReg]

/-- Setting the pc changes nothing else (R24). -/
theorem State.wentTo_setPc (s : State) (pc : Word) : WentTo s (s.setPc pc) pc :=
  ⟨fun _ => rfl, rfl, fun _ => rfl, ⟨rfl, rfl, rfl, rfl, rfl, rfl, rfl⟩⟩

/-- Every load completes with a value, or halts with LoadFault at its effective address (R160). -/
theorem loadTo_eq (rd rs1 : RegIdx) (imm : Word) (n : Nat) (extend : Word → Word) (s : State) :
    loadTo rd rs1 imm n extend s =
      if s.inBounds (s.effAddr rs1 imm).toNat n then
        .next (s.setReg rd (extend (leWord (s.mem.readBytes (s.effAddr rs1 imm).toNat n)))).advance
      else .next (s.halt (.loadFault s.pc (s.effAddr rs1 imm))) := by
  unfold loadTo State.memRead
  split <;> rename_i h <;> split at h <;> simp_all [retireReg, raise]

/-- Every store writes its bytes, or halts with StoreFault at its effective address (R170). -/
theorem storeFrom_eq (rs2 rs1 : RegIdx) (imm : Word) (n : Nat) (s : State) :
    storeFrom rs2 rs1 imm n s =
      if s.inBounds (s.effAddr rs1 imm).toNat n then
        .next (s.setMem (s.mem.writeBytes (s.effAddr rs1 imm).toNat (leBytes n (s.getReg rs2)))).advance
      else .next (s.halt (.storeFault s.pc (s.effAddr rs1 imm))) := by
  unfold storeFrom State.memWrite
  split <;> rename_i h <;> split at h <;> simp_all [raise]

/-! ### Host calls -/

/-- The failed answer meets every duty (R244). -/
theorem hostMeetsDuty_failed (p : Params) (before : List HostCall) (req : HostRequest) :
    hostMeetsDuty p before req { status := hostFailed, payload := [] } = true := by
  cases req <;> rfl

/-- What the duty of a READ says (R244): -1 or, from a pipe, -64, with no payload, or a count with that payload. -/
theorem read_duty_iff {p : Params} {before : List HostCall} {fd count : Word} {r : HostReply} :
    hostMeetsDuty p before (.read fd count) r = true ↔
      (0 ≤ r.status.toInt ∧ r.status.toNat ≤ count.toNat ∧ r.payload.length = r.status.toNat) ∨
      (r.status = hostFailed ∧ r.payload = []) ∨
      (r.status = hostAgain ∧ r.payload = [] ∧ mayBePipe p before fd = true) := by
  have hf : ¬ (0 : Int) ≤ hostFailed.toInt := by decide
  have ha : ¬ (0 : Int) ≤ hostAgain.toInt := by decide
  simp only [hostMeetsDuty, hostStatusAllowed, hostPayloadLength, Bool.and_eq_true, Bool.or_eq_true, beq_iff_eq,
    decide_eq_true_eq]
  constructor
  · rintro ⟨h | h | h, hl⟩
    · rw [h, if_neg hf] at hl; exact .inr (.inl ⟨h, List.length_eq_zero_iff.mp hl⟩)
    · rw [if_pos h.1] at hl; exact .inl ⟨h.1, h.2, hl⟩
    · rw [h.1, if_neg ha] at hl; exact .inr (.inr ⟨h.1, List.length_eq_zero_iff.mp hl, h.2⟩)
  · rintro (⟨h1, h2, h3⟩ | ⟨h1, h2⟩ | ⟨h1, h2, h3⟩)
    · exact ⟨.inr (.inl ⟨h1, h2⟩), by rw [if_pos h1]; exact h3⟩
    · exact ⟨.inl h1, by rw [h1, if_neg hf, h2]; rfl⟩
    · exact ⟨.inr (.inr ⟨h1, h3⟩), by rw [h1, if_neg ha, h2]; rfl⟩

/-- A READ answer that keeps its duty is no longer than the buffer (R244). -/
theorem length_payload_of_duty {p : Params} {before : List HostCall} {fd count : Word} {r : HostReply}
    (h : hostMeetsDuty p before (.read fd count) r = true) (h0 : 0 ≤ r.status.toInt) :
    r.payload.length = r.status.toNat ∧ r.status.toNat ≤ count.toNat := by
  rcases read_duty_iff.mp h with h | h | h
  · exact ⟨h.2.2, h.2.1⟩
  · rw [h.1] at h0; exact absurd h0 (by decide)
  · rw [h.1] at h0; exact absurd h0 (by decide)

/-- Whether a descriptor may be a pipe, one call later (R248). -/
theorem pipeAfterCalls_append_one (fd : Word) (may : Bool) (calls before : List HostCall) (c : HostCall) :
    pipeAfterCalls fd before may (calls ++ [c]) =
      pipeAfter fd (before ++ calls) (pipeAfterCalls fd before may calls) c := by
  induction calls generalizing before may with
  | nil => simp [pipeAfterCalls]
  | cons d calls ih => simp [pipeAfterCalls, ih]

/-- A descriptor that OPEN has just given out is no pipe (R236, R244). -/
theorem mayBePipe_of_open (p : Params) (before : List HostCall) (path : List Byte) (flags : Word) (r : HostReply) :
    mayBePipe p (before ++ [⟨.openFile path flags, r⟩]) r.status = false := by
  simp [mayBePipe, pipeAfterCalls_append_one, pipeAfter]

/-- fd 0 is no pipe (R248). -/
theorem mayBePipe_zero (p : Params) (before : List HostCall) : mayBePipe p before 0#32 = false := by
  simp [mayBePipe]

/-- What a new descriptor is (R244, R248). -/
theorem isNewDescriptor_iff {p : Params} {before : List HostCall} {fd : Word} :
    isNewDescriptor p before fd = true ↔
      0 < fd.toInt ∧ p.descriptorStart.toInt ≤ fd.toInt ∧ fd ∉ descriptorsGiven before := by
  simp [isNewDescriptor, and_assoc]

/-- The descriptors given out after one more call (R248). -/
theorem descriptorsGiven_append_one (before : List HostCall) (c : HostCall) :
    descriptorsGiven (before ++ [c]) =
      match c.request with
      | .reset => []
      | .openFile _ _ | .socket _ =>
        if 0 ≤ c.reply.status.toInt then c.reply.status :: descriptorsGiven before else descriptorsGiven before
      | _ => descriptorsGiven before := by
  obtain ⟨request, reply⟩ := c
  rw [descriptorsGiven, List.foldl_append]
  cases request <;> rfl

/-- Calls keep their duties when the earlier ones do and the last one does (R244). -/
theorem callsMeetDuty_append_one (p : Params) (calls before : List HostCall) (c : HostCall) :
    callsMeetDuty p before (calls ++ [c]) =
      (callsMeetDuty p before calls && hostMeetsDuty p (before ++ calls) c.request c.reply) := by
  induction calls generalizing before with
  | nil => simp [callsMeetDuty]
  | cons d calls ih => simp [callsMeetDuty, ih, Bool.and_assoc]

/-- An OPEN or SOCKET that keeps its duty and does not fail gives a new descriptor (R244). -/
theorem isNewDescriptor_of_duty {p : Params} {before : List HostCall} {req : HostRequest} {r : HostReply}
    (hq : (∃ path flags, req = .openFile path flags) ∨ ∃ address, req = .socket address)
    (h : hostMeetsDuty p before req r = true) (h0 : 0 ≤ r.status.toInt) : isNewDescriptor p before r.status = true := by
  have hf : r.status ≠ hostFailed := fun he => absurd (he ▸ h0) (by decide)
  simp only [hostMeetsDuty, Bool.and_eq_true, Bool.or_eq_true, beq_iff_eq, hf, false_or] at h
  rcases hq with ⟨path, flags, rfl⟩ | ⟨address, rfl⟩
  · exact h.1
  · have h1 := h.1
    simp only [hostStatusAllowed, Bool.or_eq_true, decide_eq_true_eq] at h1
    exact h1.resolve_left (by omega)

/-- A payload store changes memory alone, and only below mem_size (R243). -/
theorem State.storePayload_cases (s : State) (buf : Word) (r : HostReply) :
    s.storePayload buf r = s ∨
      (s.inBounds buf.toNat r.payload.length = true ∧
        s.storePayload buf r = s.setMem (s.mem.writeBytes buf.toNat r.payload)) := by
  unfold State.storePayload
  split
  · cases h : s.writeRange buf r.payload with
    | none => exact .inl rfl
    | some t => obtain ⟨hb, rfl⟩ := State.writeRange_some h; exact .inr ⟨hb, rfl⟩
  · exact .inl rfl

/-! ### ECALL -/

/-- An ECALL is the service its a7 selects (R236). -/
theorem execEcall_eq {s : State} {n : Word} (h : s.getReg 17#5 = n) :
    execEcall s =
      match serviceOf n with
      | .print => servicePrint s
      | .draw => serviceDraw s
      | .hostReset => serviceStatus .reset s
      | .hostOpen => serviceOpen s
      | .hostClose => serviceStatus (.close s.arg0) s
      | .hostSeek => serviceStatus (.seek s.arg0 s.arg1 s.arg2) s
      | .hostRead => serviceRead s
      | .hostWrite => serviceWrite s
      | .hostSocket => serviceSocket s
      | .unknown => ecallReturn hostFailed s := by rw [← h]; rfl

/-- The number of each service (R236). -/
theorem serviceOf_eq (n : Word) :
    (serviceOf n = .print → n = 0x01#32) ∧ (serviceOf n = .draw → n = 0x02#32) ∧ (serviceOf n = .hostReset → n = 0x00#32) ∧
    (serviceOf n = .hostOpen → n = 0x0A#32) ∧ (serviceOf n = .hostClose → n = 0x0B#32) ∧
    (serviceOf n = .hostSeek → n = 0x0C#32) ∧ (serviceOf n = .hostRead → n = 0x0D#32) ∧
    (serviceOf n = .hostWrite → n = 0x0E#32) ∧ (serviceOf n = .hostSocket → n = 0x0F#32) := by
  unfold serviceOf
  repeat' split
  all_goals simp_all

/-- A host call's return writes a0 and moves the pc on; memory stays (R237, R243). -/
theorem State.calledHost_return (s : State) (req : HostRequest) (v : Word) :
    CalledHost s ((s.afterHostCall req).setReg 10#5 v).advance req v ∧
      SameBytes s ((s.afterHostCall req).setReg 10#5 v).advance := by
  refine ⟨⟨fun r => ?_, ?_, ?_, ?_, ?_, ?_, ?_, ?_, ?_⟩, ?_⟩
  · rw [State.getReg_advance, State.getReg_setReg, State.getReg_afterHostCall]
  all_goals simp [SameBytes]

/-- A string that ends below mem_size is what the scan answers (R240). -/
theorem State.readString_of_string {s : State} {a : Word} {bs : List Byte} (h : NulString s a.toNat bs) :
    s.readString a = some bs :=
  Memory.scanNul_of_string _ _ _ _ (by have := h.below; omega) h.content h.nonzero h.ends

/-- With no 0x00 below mem_size the scan answers nothing (R240). -/
theorem State.readString_of_noNul {s : State} {a : Word} (h : NoNul s a.toNat) : s.readString a = none := by
  cases he : s.readString a with
  | none => rfl
  | some bs =>
    obtain ⟨h1, h2, h3, -⟩ := Memory.scanNul_some _ _ _ _ he
    exact absurd h3 (h _ (by omega) (by omega))

/-- Everything an ECALL can do: print, publish a frame, answer an unknown number, halt, or make one host call, whose status
is its result and after which only READ may have written memory (R236 to R245). -/
theorem execEcall_cases (s : State) :
    (∃ bs, execEcall s = .next ((s.print bs).setReg 10#5 0#32).advance ∧ serviceOf s.serviceNumber = .print) ∨
    (∃ f, f.length = s.params.vramLen.toNat ∧ execEcall s = .next ((s.publish f).setReg 10#5 0#32).advance ∧
      serviceOf s.serviceNumber = .draw) ∨
    execEcall s = .next (s.setReg 10#5 hostFailed).advance ∨
    (∃ h, h.pc = s.pc ∧ execEcall s = .next (s.halt h)) ∨
    (∃ req, execEcall s = .next ((s.afterHostCall req).setReg 10#5 (s.hostResponse req).status).advance) ∨
    (∃ req bs, s.inBounds s.arg1.toNat bs.length = true ∧ serviceOf s.serviceNumber = .hostRead ∧
      execEcall s = .next
        (((s.afterHostCall req).setMem (s.mem.writeBytes s.arg1.toNat bs)).setReg 10#5 (s.hostResponse req).status).advance) := by
  have host : ∀ req, serviceStatus req s = .next ((s.afterHostCall req).setReg 10#5 (s.hostResponse req).status).advance :=
    fun _ => rfl
  unfold execEcall
  split
  · rename_i hs
    unfold servicePrint
    split
    · exact .inl ⟨_, rfl, hs⟩
    · exact .inr (.inr (.inr (.inl ⟨_, rfl, rfl⟩)))
  · rename_i hs
    unfold serviceDraw
    split
    · rename_i h; exact .inr (.inl ⟨_, State.length_of_readRange h, rfl, hs⟩)
    · exact .inr (.inr (.inr (.inl ⟨_, rfl, rfl⟩)))
  · exact .inr (.inr (.inr (.inr (.inl ⟨_, host _⟩))))
  · unfold serviceOpen
    split
    · exact .inr (.inr (.inr (.inr (.inl ⟨_, host _⟩))))
    · exact .inr (.inr (.inr (.inl ⟨_, rfl, rfl⟩)))
  · exact .inr (.inr (.inr (.inr (.inl ⟨_, host _⟩))))
  · exact .inr (.inr (.inr (.inr (.inl ⟨_, host _⟩))))
  · rename_i hs
    unfold serviceRead
    split
    · rcases State.storePayload_cases (s.afterHostCall (.read s.arg0 s.arg2)) s.arg1
        (s.hostResponse (.read s.arg0 s.arg2)) with h | ⟨hb, h⟩
      · rw [h]; exact .inr (.inr (.inr (.inr (.inl ⟨_, rfl⟩))))
      · rw [h]; exact .inr (.inr (.inr (.inr (.inr ⟨_, _, hb, hs, rfl⟩))))
    · exact .inr (.inr (.inr (.inl ⟨_, rfl, rfl⟩)))
  · unfold serviceWrite
    split
    · exact .inr (.inr (.inr (.inr (.inl ⟨_, host _⟩))))
    · exact .inr (.inr (.inr (.inl ⟨_, rfl, rfl⟩)))
  · unfold serviceSocket
    split
    · exact .inr (.inr (.inr (.inr (.inl ⟨_, host _⟩))))
    · exact .inr (.inr (.inr (.inl ⟨_, rfl, rfl⟩)))
  · exact .inr (.inr (.inl rfl))

/-! ### Every instruction -/

/-- Everything an instruction other than ECALL can do: write one register and set the pc, set the pc alone, store in bounds,
or halt at its own address (R261). -/
theorem exec_cases (i : Instr) (s : State) (hi : i ≠ .ecall) :
    (∃ rd v pc, destOf i = some rd ∧ exec i s = .next ((s.setReg rd v).setPc pc)) ∨
    (∃ pc, exec i s = .next (s.setPc pc)) ∨
    (isStore i = true ∧ ∃ a bs, s.inBounds a bs.length = true ∧
      exec i s = .next (s.setMem (s.mem.writeBytes a bs)).advance) ∨
    (∃ h, h.pc = s.pc ∧ exec i s = .next (s.halt h)) := by
  have load : ∀ rd rs1 imm n f, destOf i = some rd → exec i s = loadTo rd rs1 imm n f s →
      (∃ rd v pc, destOf i = some rd ∧ exec i s = .next ((s.setReg rd v).setPc pc)) ∨
      (∃ h, h.pc = s.pc ∧ exec i s = .next (s.halt h)) := by
    intro rd rs1 imm n f hd he
    rw [he, loadTo_eq]
    split
    · exact .inl ⟨rd, _, _, hd, rfl⟩
    · exact .inr ⟨_, rfl, rfl⟩
  have store : ∀ rs2 rs1 imm n, exec i s = storeFrom rs2 rs1 imm n s →
      (∃ a bs, s.inBounds a bs.length = true ∧ exec i s = .next (s.setMem (s.mem.writeBytes a bs)).advance) ∨
      (∃ h, h.pc = s.pc ∧ exec i s = .next (s.halt h)) := by
    intro rs2 rs1 imm n he
    rw [he, storeFrom_eq]
    split
    · exact .inl ⟨_, leBytes n (s.getReg rs2), by simpa using ‹_›, rfl⟩
    · exact .inr ⟨_, rfl, rfl⟩
  have branch : ∀ c imm, exec i s = branchIf c imm s → ∃ pc, exec i s = .next (s.setPc pc) := by
    intro c imm he
    rw [he, branchIf]
    split
    · exact ⟨_, rfl⟩
    · exact ⟨_, rfl⟩
  cases i
  case ecall => exact absurd rfl hi
  case ebreak => exact .inr (.inr (.inr ⟨_, rfl, rfl⟩))
  case beq => exact .inr (.inl (branch _ _ rfl))
  case bne => exact .inr (.inl (branch _ _ rfl))
  case blt => exact .inr (.inl (branch _ _ rfl))
  case bge => exact .inr (.inl (branch _ _ rfl))
  case bltu => exact .inr (.inl (branch _ _ rfl))
  case bgeu => exact .inr (.inl (branch _ _ rfl))
  case sb => exact (store _ _ _ _ rfl).elim (fun h => .inr (.inr (.inl ⟨rfl, h⟩))) (fun h => .inr (.inr (.inr h)))
  case sh => exact (store _ _ _ _ rfl).elim (fun h => .inr (.inr (.inl ⟨rfl, h⟩))) (fun h => .inr (.inr (.inr h)))
  case sw => exact (store _ _ _ _ rfl).elim (fun h => .inr (.inr (.inl ⟨rfl, h⟩))) (fun h => .inr (.inr (.inr h)))
  case lb => exact (load _ _ _ _ _ rfl rfl).elim .inl (fun h => .inr (.inr (.inr h)))
  case lh => exact (load _ _ _ _ _ rfl rfl).elim .inl (fun h => .inr (.inr (.inr h)))
  case lw => exact (load _ _ _ _ _ rfl rfl).elim .inl (fun h => .inr (.inr (.inr h)))
  case lbu => exact (load _ _ _ _ _ rfl rfl).elim .inl (fun h => .inr (.inr (.inr h)))
  case lhu => exact (load _ _ _ _ _ rfl rfl).elim .inl (fun h => .inr (.inr (.inr h)))
  all_goals exact .inl ⟨_, _, _, rfl, rfl⟩

/-! ### The step -/

/-- Everything a step can do (R261, R264). -/
theorem step_cases (s : State) :
    (∃ h, s.status = .halted h ∧ step s = .next s) ∨
    (s.status = .running ∧ ∃ h, s.fetchInstr = .error h ∧ step s = .next (s.halt h)) ∨
    (s.status = .running ∧ ∃ i, s.fetchInstr = .ok i ∧ step s = exec i s) := by
  unfold step
  split
  · exact .inl ⟨_, ‹_›, rfl⟩
  · refine .inr ?_
    split
    · exact .inl ⟨‹_›, _, ‹_›, rfl⟩
    · exact .inr ⟨‹_›, _, ‹_›, rfl⟩

/-- A halt that fetch or decode answers names the pc (R221). -/
theorem State.pc_of_fetchInstr_error {s : State} {h : Halt} (he : s.fetchInstr = .error h) : h.pc = s.pc := by
  unfold State.fetchInstr at he
  split at he
  · split at he <;> cases he; rfl
  · cases he; rfl

end Sys2Proof.Machine
end

