-- ==== Sys2Proof/Laws/PerInstr.lean ====
section
/-! SUPPORT. Family Row: the words of every instruction have the fixed bits of its row of spec/opcode_table.json. -/

namespace Sys2Proof

/-! ### What a row's mask leaves of a word, format by format -/

theorem encodeR_mask (f7 : BitVec 7) (rs2 rs1 : RegIdx) (f3 : BitVec 3) (rd : RegIdx) (op : BitVec 7) :
    encodeR f7 rs2 rs1 f3 rd op &&& 0xFE00707F#32 = encodeR f7 0#5 0#5 f3 0#5 op := by
  apply BitVec.eq_of_getLsbD_eq
  intro k hk
  simp only [BitVec.getLsbD_and, getLsbD_encodeR]
  interval_cases k <;> simp

theorem encodeI_mask (imm : Word) (rs1 : RegIdx) (f3 : BitVec 3) (rd : RegIdx) (op : BitVec 7) :
    encodeI imm rs1 f3 rd op &&& 0x0000707F#32 = encodeI 0#32 0#5 f3 0#5 op := by
  apply BitVec.eq_of_getLsbD_eq
  intro k hk
  simp only [BitVec.getLsbD_and, getLsbD_encodeI]
  interval_cases k <;> simp

theorem encodeS_mask (imm : Word) (rs2 rs1 : RegIdx) (f3 : BitVec 3) (op : BitVec 7) :
    encodeS imm rs2 rs1 f3 op &&& 0x0000707F#32 = encodeS 0#32 0#5 0#5 f3 op := by
  apply BitVec.eq_of_getLsbD_eq
  intro k hk
  simp only [BitVec.getLsbD_and, getLsbD_encodeS]
  interval_cases k <;> simp

theorem encodeB_mask (imm : Word) (rs2 rs1 : RegIdx) (f3 : BitVec 3) (op : BitVec 7) :
    encodeB imm rs2 rs1 f3 op &&& 0x0000707F#32 = encodeB 0#32 0#5 0#5 f3 op := by
  apply BitVec.eq_of_getLsbD_eq
  intro k hk
  simp only [BitVec.getLsbD_and, getLsbD_encodeB]
  interval_cases k <;> simp

theorem encodeU_mask (imm : Word) (rd : RegIdx) (op : BitVec 7) :
    encodeU imm rd op &&& 0x0000007F#32 = encodeU 0#32 0#5 op := by
  apply BitVec.eq_of_getLsbD_eq
  intro k hk
  simp only [BitVec.getLsbD_and, getLsbD_encodeU]
  interval_cases k <;> simp

theorem encodeJ_mask (imm : Word) (rd : RegIdx) (op : BitVec 7) :
    encodeJ imm rd op &&& 0x0000007F#32 = encodeJ 0#32 0#5 op := by
  apply BitVec.eq_of_getLsbD_eq
  intro k hk
  simp only [BitVec.getLsbD_and, getLsbD_encodeJ]
  interval_cases k <;> simp

end Sys2Proof

/-! ### The family -/

namespace Sys2Proof.Laws.Row

/-- The instruction's row stands in the table, and its words have the row's fixed bits. -/
def Statement (i : Instr) : Prop := i.row ∈ opcodeRows ∧ encode i &&& i.row.mask = i.row.pattern

theorem add (rd rs1 rs2 : RegIdx) : Statement (.add rd rs1 rs2) :=
  ⟨by simp [Instr.row, opcodeRows, opcodeRowsArith], (encodeR_mask _ _ _ _ _ _).trans rfl⟩

theorem sub (rd rs1 rs2 : RegIdx) : Statement (.sub rd rs1 rs2) :=
  ⟨by simp [Instr.row, opcodeRows, opcodeRowsArith], (encodeR_mask _ _ _ _ _ _).trans rfl⟩

theorem sll (rd rs1 rs2 : RegIdx) : Statement (.sll rd rs1 rs2) :=
  ⟨by simp [Instr.row, opcodeRows, opcodeRowsArith], (encodeR_mask _ _ _ _ _ _).trans rfl⟩

theorem slt (rd rs1 rs2 : RegIdx) : Statement (.slt rd rs1 rs2) :=
  ⟨by simp [Instr.row, opcodeRows, opcodeRowsArith], (encodeR_mask _ _ _ _ _ _).trans rfl⟩

theorem sltu (rd rs1 rs2 : RegIdx) : Statement (.sltu rd rs1 rs2) :=
  ⟨by simp [Instr.row, opcodeRows, opcodeRowsArith], (encodeR_mask _ _ _ _ _ _).trans rfl⟩

theorem xor (rd rs1 rs2 : RegIdx) : Statement (.xor rd rs1 rs2) :=
  ⟨by simp [Instr.row, opcodeRows, opcodeRowsArith], (encodeR_mask _ _ _ _ _ _).trans rfl⟩

theorem srl (rd rs1 rs2 : RegIdx) : Statement (.srl rd rs1 rs2) :=
  ⟨by simp [Instr.row, opcodeRows, opcodeRowsArith], (encodeR_mask _ _ _ _ _ _).trans rfl⟩

theorem sra (rd rs1 rs2 : RegIdx) : Statement (.sra rd rs1 rs2) :=
  ⟨by simp [Instr.row, opcodeRows, opcodeRowsArith], (encodeR_mask _ _ _ _ _ _).trans rfl⟩

theorem or (rd rs1 rs2 : RegIdx) : Statement (.or rd rs1 rs2) :=
  ⟨by simp [Instr.row, opcodeRows, opcodeRowsArith], (encodeR_mask _ _ _ _ _ _).trans rfl⟩

theorem and (rd rs1 rs2 : RegIdx) : Statement (.and rd rs1 rs2) :=
  ⟨by simp [Instr.row, opcodeRows, opcodeRowsArith], (encodeR_mask _ _ _ _ _ _).trans rfl⟩

theorem mul (rd rs1 rs2 : RegIdx) : Statement (.mul rd rs1 rs2) :=
  ⟨by simp [Instr.row, opcodeRows, opcodeRowsMulDiv], (encodeR_mask _ _ _ _ _ _).trans rfl⟩

theorem mulh (rd rs1 rs2 : RegIdx) : Statement (.mulh rd rs1 rs2) :=
  ⟨by simp [Instr.row, opcodeRows, opcodeRowsMulDiv], (encodeR_mask _ _ _ _ _ _).trans rfl⟩

theorem mulhsu (rd rs1 rs2 : RegIdx) : Statement (.mulhsu rd rs1 rs2) :=
  ⟨by simp [Instr.row, opcodeRows, opcodeRowsMulDiv], (encodeR_mask _ _ _ _ _ _).trans rfl⟩

theorem mulhu (rd rs1 rs2 : RegIdx) : Statement (.mulhu rd rs1 rs2) :=
  ⟨by simp [Instr.row, opcodeRows, opcodeRowsMulDiv], (encodeR_mask _ _ _ _ _ _).trans rfl⟩

theorem div (rd rs1 rs2 : RegIdx) : Statement (.div rd rs1 rs2) :=
  ⟨by simp [Instr.row, opcodeRows, opcodeRowsMulDiv], (encodeR_mask _ _ _ _ _ _).trans rfl⟩

theorem divu (rd rs1 rs2 : RegIdx) : Statement (.divu rd rs1 rs2) :=
  ⟨by simp [Instr.row, opcodeRows, opcodeRowsMulDiv], (encodeR_mask _ _ _ _ _ _).trans rfl⟩

theorem rem (rd rs1 rs2 : RegIdx) : Statement (.rem rd rs1 rs2) :=
  ⟨by simp [Instr.row, opcodeRows, opcodeRowsMulDiv], (encodeR_mask _ _ _ _ _ _).trans rfl⟩

theorem remu (rd rs1 rs2 : RegIdx) : Statement (.remu rd rs1 rs2) :=
  ⟨by simp [Instr.row, opcodeRows, opcodeRowsMulDiv], (encodeR_mask _ _ _ _ _ _).trans rfl⟩

theorem addi (rd rs1 : RegIdx) (imm : Word) : Statement (.addi rd rs1 imm) :=
  ⟨by simp [Instr.row, opcodeRows, opcodeRowsImm], (encodeI_mask _ _ _ _ _).trans rfl⟩

theorem slti (rd rs1 : RegIdx) (imm : Word) : Statement (.slti rd rs1 imm) :=
  ⟨by simp [Instr.row, opcodeRows, opcodeRowsImm], (encodeI_mask _ _ _ _ _).trans rfl⟩

theorem sltiu (rd rs1 : RegIdx) (imm : Word) : Statement (.sltiu rd rs1 imm) :=
  ⟨by simp [Instr.row, opcodeRows, opcodeRowsImm], (encodeI_mask _ _ _ _ _).trans rfl⟩

theorem xori (rd rs1 : RegIdx) (imm : Word) : Statement (.xori rd rs1 imm) :=
  ⟨by simp [Instr.row, opcodeRows, opcodeRowsImm], (encodeI_mask _ _ _ _ _).trans rfl⟩

theorem ori (rd rs1 : RegIdx) (imm : Word) : Statement (.ori rd rs1 imm) :=
  ⟨by simp [Instr.row, opcodeRows, opcodeRowsImm], (encodeI_mask _ _ _ _ _).trans rfl⟩

theorem andi (rd rs1 : RegIdx) (imm : Word) : Statement (.andi rd rs1 imm) :=
  ⟨by simp [Instr.row, opcodeRows, opcodeRowsImm], (encodeI_mask _ _ _ _ _).trans rfl⟩

theorem slli (rd rs1 : RegIdx) (shamt : Shamt) : Statement (.slli rd rs1 shamt) :=
  ⟨by simp [Instr.row, opcodeRows, opcodeRowsImm], (encodeR_mask _ _ _ _ _ _).trans rfl⟩

theorem srli (rd rs1 : RegIdx) (shamt : Shamt) : Statement (.srli rd rs1 shamt) :=
  ⟨by simp [Instr.row, opcodeRows, opcodeRowsImm], (encodeR_mask _ _ _ _ _ _).trans rfl⟩

theorem srai (rd rs1 : RegIdx) (shamt : Shamt) : Statement (.srai rd rs1 shamt) :=
  ⟨by simp [Instr.row, opcodeRows, opcodeRowsImm], (encodeR_mask _ _ _ _ _ _).trans rfl⟩

theorem lb (rd rs1 : RegIdx) (imm : Word) : Statement (.lb rd rs1 imm) :=
  ⟨by simp [Instr.row, opcodeRows, opcodeRowsMem], (encodeI_mask _ _ _ _ _).trans rfl⟩

theorem lh (rd rs1 : RegIdx) (imm : Word) : Statement (.lh rd rs1 imm) :=
  ⟨by simp [Instr.row, opcodeRows, opcodeRowsMem], (encodeI_mask _ _ _ _ _).trans rfl⟩

theorem lw (rd rs1 : RegIdx) (imm : Word) : Statement (.lw rd rs1 imm) :=
  ⟨by simp [Instr.row, opcodeRows, opcodeRowsMem], (encodeI_mask _ _ _ _ _).trans rfl⟩

theorem lbu (rd rs1 : RegIdx) (imm : Word) : Statement (.lbu rd rs1 imm) :=
  ⟨by simp [Instr.row, opcodeRows, opcodeRowsMem], (encodeI_mask _ _ _ _ _).trans rfl⟩

theorem lhu (rd rs1 : RegIdx) (imm : Word) : Statement (.lhu rd rs1 imm) :=
  ⟨by simp [Instr.row, opcodeRows, opcodeRowsMem], (encodeI_mask _ _ _ _ _).trans rfl⟩

theorem sb (rs2 rs1 : RegIdx) (imm : Word) : Statement (.sb rs2 rs1 imm) :=
  ⟨by simp [Instr.row, opcodeRows, opcodeRowsMem], (encodeS_mask _ _ _ _ _).trans rfl⟩

theorem sh (rs2 rs1 : RegIdx) (imm : Word) : Statement (.sh rs2 rs1 imm) :=
  ⟨by simp [Instr.row, opcodeRows, opcodeRowsMem], (encodeS_mask _ _ _ _ _).trans rfl⟩

theorem sw (rs2 rs1 : RegIdx) (imm : Word) : Statement (.sw rs2 rs1 imm) :=
  ⟨by simp [Instr.row, opcodeRows, opcodeRowsMem], (encodeS_mask _ _ _ _ _).trans rfl⟩

theorem beq (rs1 rs2 : RegIdx) (imm : Word) : Statement (.beq rs1 rs2 imm) :=
  ⟨by simp [Instr.row, opcodeRows, opcodeRowsControl], (encodeB_mask _ _ _ _ _).trans rfl⟩

theorem bne (rs1 rs2 : RegIdx) (imm : Word) : Statement (.bne rs1 rs2 imm) :=
  ⟨by simp [Instr.row, opcodeRows, opcodeRowsControl], (encodeB_mask _ _ _ _ _).trans rfl⟩

theorem blt (rs1 rs2 : RegIdx) (imm : Word) : Statement (.blt rs1 rs2 imm) :=
  ⟨by simp [Instr.row, opcodeRows, opcodeRowsControl], (encodeB_mask _ _ _ _ _).trans rfl⟩

theorem bge (rs1 rs2 : RegIdx) (imm : Word) : Statement (.bge rs1 rs2 imm) :=
  ⟨by simp [Instr.row, opcodeRows, opcodeRowsControl], (encodeB_mask _ _ _ _ _).trans rfl⟩

theorem bltu (rs1 rs2 : RegIdx) (imm : Word) : Statement (.bltu rs1 rs2 imm) :=
  ⟨by simp [Instr.row, opcodeRows, opcodeRowsControl], (encodeB_mask _ _ _ _ _).trans rfl⟩

theorem bgeu (rs1 rs2 : RegIdx) (imm : Word) : Statement (.bgeu rs1 rs2 imm) :=
  ⟨by simp [Instr.row, opcodeRows, opcodeRowsControl], (encodeB_mask _ _ _ _ _).trans rfl⟩

theorem lui (rd : RegIdx) (imm : Word) : Statement (.lui rd imm) :=
  ⟨by simp [Instr.row, opcodeRows, opcodeRowsControl], (encodeU_mask _ _ _).trans rfl⟩

theorem auipc (rd : RegIdx) (imm : Word) : Statement (.auipc rd imm) :=
  ⟨by simp [Instr.row, opcodeRows, opcodeRowsControl], (encodeU_mask _ _ _).trans rfl⟩

theorem jal (rd : RegIdx) (imm : Word) : Statement (.jal rd imm) :=
  ⟨by simp [Instr.row, opcodeRows, opcodeRowsControl], (encodeJ_mask _ _ _).trans rfl⟩

theorem jalr (rd rs1 : RegIdx) (imm : Word) : Statement (.jalr rd rs1 imm) :=
  ⟨by simp [Instr.row, opcodeRows, opcodeRowsControl], (encodeI_mask _ _ _ _ _).trans rfl⟩

theorem ecall : Statement .ecall := ⟨by decide, by decide⟩

theorem ebreak : Statement .ebreak := ⟨by decide, by decide⟩

end Sys2Proof.Laws.Row
end

