-- ==== Sys2Proof/Tests/Slice0.lean ====
section
/-! SUPPORT. Tests of the model, with expected results from the spec (95_test_vectors, by section and row), and a witness for
the hypotheses of every obligation that has some. -/

namespace Sys2Proof.Tests

open Sys2Proof Sys2Proof.Machine

/-! ### Helpers -/

/-- The start of the spec's single-step vectors (95_test_vectors, conventions): the word at `pc`, the registers and bytes given. -/
def start (pc : Word) (word : Nat) (regs : List (RegIdx × Word)) (bytes : Nat × List Nat) : State :=
  let s := regs.foldl (fun s r => s.setReg r.1 r.2) State.reset
  let m := s.mem.writeBytes bytes.1 (bytes.2.map (BitVec.ofNat 8))
  { s with pc := pc, mem := m.writeBytes pc.toNat (leBytes 4 (BitVec.ofNat 32 word)) }

/-- A vector at pc 0x40. -/
def at40 (word : Nat) (regs : List (RegIdx × Word)) : State := start 0x40#32 word regs (0, [])

/-- A vector at pc 0x40 with bytes of memory. -/
def at40m (word : Nat) (regs : List (RegIdx × Word)) (a : Nat) (bytes : List Nat) : State := start 0x40#32 word regs (a, bytes)

/-- A state with one settled answer of the environment. -/
def answered (s : State) (status : Word) (payload : List Nat) : State :=
  { s with hostReplies := [{ status := status, payload := payload.map (BitVec.ofNat 8) }] }

/-- The state a step answers, or the state itself. -/
def stepped (s : State) : State :=
  match step s with
  | .next t => t
  | _ => s

/-- A register, the pc and the status after a step. -/
def seen (r : RegIdx) (s : State) : Word × Word × Status :=
  ((stepped s).getReg r, (stepped s).pc, (stepped s).status)

/-- The bytes of memory from `a` up after a step, and the pc. -/
def wrote (a n : Nat) (s : State) : List Byte × Word := ((stepped s).mem.readBytes a n, (stepped s).pc)

/-- What a host call left: a0, the pc, the wire form of the requests made, memory from 0x900 up. -/
def called (s : State) : Word × Word × List (List Byte) × List Byte :=
  ((stepped s).getReg 10#5, (stepped s).pc, (stepped s).hostCalls.map (fun c => hostRequestWire c.request), (stepped s).mem.readBytes 0x900 4)

/-- The bytes of numbers. -/
def bytesOf (l : List Nat) : List Byte := l.map (BitVec.ofNat 8)

/-- A word that decodes to an instruction and is its encoding. -/
def isWordOf (w : Nat) (i : Instr) : Bool := decodeTableWord 32 w == some i && encode i == BitVec.ofNat 32 w

/-! ### WellFormed: an ill-formed term for each check -/

/-- The 12-bit range of I and S (R63, R64). -/
theorem test_wellFormed_I :
    (Instr.addi 1 0 0x800#32).wellFormed = false ∧ (Instr.addi 1 0 0xFFFFF7FF#32).wellFormed = false ∧
    (Instr.addi 1 0 0x7FF#32).wellFormed = true ∧ (Instr.addi 1 0 0xFFFFF800#32).wellFormed = true ∧
    (Instr.lw 1 0 0x800#32).wellFormed = false ∧ (Instr.jalr 1 0 0x800#32).wellFormed = false ∧
    (Instr.sw 1 0 0xFFFFF7FF#32).wellFormed = false := by decide

/-- The range of B, and its even offsets (R65). -/
theorem test_wellFormed_B :
    (Instr.beq 1 2 0x1000#32).wellFormed = false ∧ (Instr.beq 1 2 0xFFFFEFFE#32).wellFormed = false ∧
    (Instr.beq 1 2 0x3#32).wellFormed = false ∧ (Instr.bgeu 1 2 0xFFF#32).wellFormed = false ∧
    (Instr.beq 1 2 0xFFE#32).wellFormed = true ∧ (Instr.beq 1 2 0xFFFFF000#32).wellFormed = true := by decide

/-- The low twelve bits of U (R66). -/
theorem test_wellFormed_U :
    (Instr.lui 1 0x1001#32).wellFormed = false ∧ (Instr.auipc 1 0x800#32).wellFormed = false ∧
    (Instr.lui 1 0xFFFFF000#32).wellFormed = true := by decide

/-- The range of J, and its even offsets (R67). -/
theorem test_wellFormed_J :
    (Instr.jal 1 0x100000#32).wellFormed = false ∧ (Instr.jal 1 0xFFEFFFFE#32).wellFormed = false ∧
    (Instr.jal 1 0x1#32).wellFormed = false ∧ (Instr.jal 1 0xFFFFE#32).wellFormed = true ∧
    (Instr.jal 1 0xFFF00000#32).wellFormed = true := by decide

/-! ### Decoding: every constructor's word, from the encodings of 30_encoding R62 to R78 and the words of 95_test_vectors -/

/-- R101 to R110; words of L2.2. -/
theorem test_decode_registerArith :
    isWordOf 0x002081B3 (.add 3 1 2) = true ∧
    isWordOf 0x402081B3 (.sub 3 1 2) = true ∧
    isWordOf 0x002091B3 (.sll 3 1 2) = true ∧
    isWordOf 0x0020A1B3 (.slt 3 1 2) = true ∧
    isWordOf 0x0020B1B3 (.sltu 3 1 2) = true ∧
    isWordOf 0x0020C1B3 (.xor 3 1 2) = true ∧
    isWordOf 0x0020D1B3 (.srl 3 1 2) = true ∧
    isWordOf 0x4020D1B3 (.sra 3 1 2) = true ∧
    isWordOf 0x0020E1B3 (.or 3 1 2) = true ∧
    isWordOf 0x0020F1B3 (.and 3 1 2) = true := by decide

/-- R121 to R128; words of L2.3. -/
theorem test_decode_mulDiv :
    isWordOf 0x022081B3 (.mul 3 1 2) = true ∧
    isWordOf 0x022091B3 (.mulh 3 1 2) = true ∧
    isWordOf 0x0220A1B3 (.mulhsu 3 1 2) = true ∧
    isWordOf 0x0220B1B3 (.mulhu 3 1 2) = true ∧
    isWordOf 0x0220C1B3 (.div 3 1 2) = true ∧
    isWordOf 0x0220D1B3 (.divu 3 1 2) = true ∧
    isWordOf 0x0220E1B3 (.rem 3 1 2) = true ∧
    isWordOf 0x0220F1B3 (.remu 3 1 2) = true := by decide

/-- R141 to R149; words of L2.1 and L2.4. -/
theorem test_decode_immediate :
    isWordOf 0x80000093 (.addi 1 0 0xFFFFF800#32) = true ∧
    isWordOf 0x7FF00093 (.addi 1 0 0x7FF#32) = true ∧
    isWordOf 0xFFF0A193 (.slti 3 1 0xFFFFFFFF#32) = true ∧
    isWordOf 0x0010B193 (.sltiu 3 1 1#32) = true ∧
    isWordOf 0xFFF0C193 (.xori 3 1 0xFFFFFFFF#32) = true ∧
    isWordOf 0x8000E193 (.ori 3 1 0xFFFFF800#32) = true ∧
    isWordOf 0x0FF0F193 (.andi 3 1 0xFF#32) = true ∧
    isWordOf 0x01F11093 (.slli 1 2 31#5) = true ∧
    isWordOf 0x0040D193 (.srli 3 1 4#5) = true ∧
    isWordOf 0x41F15093 (.srai 1 2 31#5) = true := by decide

/-- R161 to R165; words of L2.5. -/
theorem test_decode_loads :
    isWordOf 0xFFC08183 (.lb 3 1 0xFFFFFFFC#32) = true ∧
    isWordOf 0x00109183 (.lh 3 1 1#32) = true ∧
    isWordOf 0x0010A183 (.lw 3 1 1#32) = true ∧
    isWordOf 0x0000C183 (.lbu 3 1 0#32) = true ∧
    isWordOf 0x0000D183 (.lhu 3 1 0#32) = true := by decide

/-- R171 to R173; words of L2.1 and L2.6. -/
theorem test_decode_stores :
    isWordOf 0x7E000FA3 (.sb 0 0 0x7FF#32) = true ∧
    isWordOf 0x81FF9023 (.sh 31 31 0xFFFFF800#32) = true ∧
    isWordOf 0xFE20AE23 (.sw 2 1 0xFFFFFFFC#32) = true := by decide

/-- R181 to R186; words of L2.1 and L2.7. -/
theorem test_decode_branches :
    isWordOf 0x80000063 (.beq 0 0 0xFFFFF000#32) = true ∧
    isWordOf 0x000000E3 (.beq 0 0 0x800#32) = true ∧
    isWordOf 0x7E209FE3 (.bne 1 2 0xFFE#32) = true ∧
    isWordOf 0x0020C863 (.blt 1 2 16#32) = true ∧
    isWordOf 0xFE005FE3 (.bge 0 0 0xFFFFFFFE#32) = true ∧
    isWordOf 0x0020E863 (.bltu 1 2 16#32) = true ∧
    isWordOf 0x0020F863 (.bgeu 1 2 16#32) = true := by decide

/-- R190, R191; words of L2.1. -/
theorem test_decode_upperImmediate :
    isWordOf 0xFFFFF0B7 (.lui 1 0xFFFFF000#32) = true ∧
    isWordOf 0x80000097 (.auipc 1 0x80000000#32) = true := by decide

/-- R195, R196; words of L2.1. -/
theorem test_decode_jumps :
    isWordOf 0x8000006F (.jal 0 0xFFF00000#32) = true ∧
    isWordOf 0x7FFFF0EF (.jal 1 0xFFFFE#32) = true ∧
    isWordOf 0x0010006F (.jal 0 0x800#32) = true ∧
    isWordOf 0xFFF28067 (.jalr 0 5 0xFFFFFFFF#32) = true := by decide

/-- R200, R201. -/
theorem test_decode_system :
    isWordOf 0x00000073 (.ecall) = true ∧
    isWordOf 0x00100073 (.ebreak) = true := by decide

/-- The 28 illegal words of L2.11. -/
theorem test_decode_illegal :
    ([0x00000000, 0xFFFFFFFF, 0x0FF0000F, 0x0000100F, 0x30001073, 0xC0002573, 0x30200073] ++
    [0x10500073, 0x00000173, 0x00008073, 0x00200073, 0x80000033, 0x40001033, 0x42000033] ++
    [0x40001013, 0x80005013, 0x02005013, 0x00003003, 0x00006003, 0x00003023, 0x00002063] ++
    [0x00003063, 0x00001067, 0x0000202F, 0x00002007, 0x0000001B, 0x00000001, 0x0000000B] : List Nat).all (fun w => (decodeTableWord 32 w).isNone) = true := by decide

/-- An instruction as the first after reset: placed by `withFetchWord`, it runs (R266, R261). -/
theorem test_withFetchWord_runs :
    seen 1#5 (State.reset.withFetchWord 32 0x7FF00093) = (0x7FF#32, 4#32, .running) ∧
    (State.reset.withFetchWord 32 0x0020F863).fetchInstr.toOption = some (.bgeu 1 2 16#32) := by decide

/-- With nothing placed, the first step after reset halts: 0x00000000 is illegal (R82, log 20). -/
theorem test_reset_first_step :
    seen 0#5 State.reset = (0#32, 0#32, .halted (.illegalInstruction 0#32 0#32)) := by decide

/-! ### One step of each instruction (95_test_vectors, by section) -/

/-- L2.2: overflow and wrap. -/
theorem test_add :
    seen 3#5 (at40 0x002081B3 [(1#5, 0x7FFFFFFF#32), (2#5, 0x1#32)]) = (0x80000000#32, 0x44#32, .running) ∧
    seen 3#5 (at40 0x002081B3 [(1#5, 0xFFFFFFFF#32), (2#5, 0x1#32)]) = (0x0#32, 0x44#32, .running) := by decide

/-- L2.2. -/
theorem test_sub :
    seen 3#5 (at40 0x402081B3 [(1#5, 0x0#32), (2#5, 0x1#32)]) = (0xFFFFFFFF#32, 0x44#32, .running) ∧
    seen 3#5 (at40 0x402081B3 [(1#5, 0x80000000#32), (2#5, 0x1#32)]) = (0x7FFFFFFF#32, 0x44#32, .running) := by decide

/-- L2.2: five bits of the amount. -/
theorem test_sll :
    seen 3#5 (at40 0x002091B3 [(1#5, 0x1#32), (2#5, 0x1F#32)]) = (0x80000000#32, 0x44#32, .running) ∧
    seen 3#5 (at40 0x002091B3 [(1#5, 0x12345678#32), (2#5, 0xFFFFFFE4#32)]) = (0x23456780#32, 0x44#32, .running) ∧
    seen 3#5 (at40 0x002091B3 [(1#5, 0x12345678#32), (2#5, 0x20#32)]) = (0x12345678#32, 0x44#32, .running) := by decide

/-- L2.2. -/
theorem test_slt :
    seen 3#5 (at40 0x0020A1B3 [(1#5, 0xFFFFFFFF#32), (2#5, 0x1#32)]) = (0x1#32, 0x44#32, .running) ∧
    seen 3#5 (at40 0x0020A1B3 [(1#5, 0x1#32), (2#5, 0xFFFFFFFF#32)]) = (0x0#32, 0x44#32, .running) ∧
    seen 3#5 (at40 0x0020A1B3 [(1#5, 0x80000000#32), (2#5, 0x7FFFFFFF#32)]) = (0x1#32, 0x44#32, .running) := by decide

/-- L2.2. -/
theorem test_sltu :
    seen 3#5 (at40 0x0020B1B3 [(1#5, 0x1#32), (2#5, 0xFFFFFFFF#32)]) = (0x1#32, 0x44#32, .running) ∧
    seen 3#5 (at40 0x0020B1B3 [(1#5, 0xFFFFFFFF#32), (2#5, 0x1#32)]) = (0x0#32, 0x44#32, .running) := by decide

/-- L2.2. -/
theorem test_xor :
    seen 3#5 (at40 0x0020C1B3 [(1#5, 0xF0F0F0F0#32), (2#5, 0xFF00FF00#32)]) = (0xFF00FF0#32, 0x44#32, .running) := by decide

/-- L2.2. -/
theorem test_srl :
    seen 3#5 (at40 0x0020D1B3 [(1#5, 0x80000000#32), (2#5, 0x1F#32)]) = (0x1#32, 0x44#32, .running) ∧
    seen 3#5 (at40 0x0020D1B3 [(1#5, 0x80000000#32), (2#5, 0x21#32)]) = (0x40000000#32, 0x44#32, .running) := by decide

/-- L2.2. -/
theorem test_sra :
    seen 3#5 (at40 0x4020D1B3 [(1#5, 0x80000000#32), (2#5, 0x1F#32)]) = (0xFFFFFFFF#32, 0x44#32, .running) ∧
    seen 3#5 (at40 0x4020D1B3 [(1#5, 0xFFFFFF9C#32), (2#5, 0x2#32)]) = (0xFFFFFFE7#32, 0x44#32, .running) ∧
    seen 3#5 (at40 0x4020D1B3 [(1#5, 0x7FFFFFFF#32), (2#5, 0x4#32)]) = (0x7FFFFFF#32, 0x44#32, .running) := by decide

/-- L2.2. -/
theorem test_or :
    seen 3#5 (at40 0x0020E1B3 [(1#5, 0xF0F0F0F0#32), (2#5, 0xF0F0F0F#32)]) = (0xFFFFFFFF#32, 0x44#32, .running) := by decide

/-- L2.2. -/
theorem test_and :
    seen 3#5 (at40 0x0020F1B3 [(1#5, 0xF0F0F0F0#32), (2#5, 0xFF00FF00#32)]) = (0xF000F000#32, 0x44#32, .running) := by decide

/-- L2.2: all three registers one; rd = x0 (R262, R22). -/
theorem test_source_is_destination :
    seen 1#5 (at40 0x001080B3 [(1#5, 0x40000001#32)]) = (0x80000002#32, 0x44#32, .running) ∧
    seen 0#5 (at40 0x00208033 [(1#5, 0x5#32), (2#5, 0x6#32)]) = (0x0#32, 0x44#32, .running) := by decide

/-- L2.3. -/
theorem test_mul :
    seen 3#5 (at40 0x022081B3 [(1#5, 0xFFFFFFFF#32), (2#5, 0xFFFFFFFF#32)]) = (0x1#32, 0x44#32, .running) ∧
    seen 3#5 (at40 0x022081B3 [(1#5, 0x12345678#32), (2#5, 0x9ABCDEF0#32)]) = (0x242D2080#32, 0x44#32, .running) := by decide

/-- L2.3. -/
theorem test_mulh :
    seen 3#5 (at40 0x022091B3 [(1#5, 0x80000000#32), (2#5, 0x80000000#32)]) = (0x40000000#32, 0x44#32, .running) ∧
    seen 3#5 (at40 0x022091B3 [(1#5, 0x80000000#32), (2#5, 0x7FFFFFFF#32)]) = (0xC0000000#32, 0x44#32, .running) ∧
    seen 3#5 (at40 0x022091B3 [(1#5, 0xFFFFFFFF#32), (2#5, 0xFFFFFFFF#32)]) = (0x0#32, 0x44#32, .running) := by decide

/-- L2.3: rs1 signed, rs2 unsigned. -/
theorem test_mulhsu :
    seen 3#5 (at40 0x0220A1B3 [(1#5, 0x80000000#32), (2#5, 0xFFFFFFFF#32)]) = (0x80000000#32, 0x44#32, .running) ∧
    seen 3#5 (at40 0x0220A1B3 [(1#5, 0x7FFFFFFF#32), (2#5, 0xFFFFFFFF#32)]) = (0x7FFFFFFE#32, 0x44#32, .running) ∧
    seen 3#5 (at40 0x0220A1B3 [(1#5, 0x2#32), (2#5, 0x80000000#32)]) = (0x1#32, 0x44#32, .running) := by decide

/-- L2.3. -/
theorem test_mulhu :
    seen 3#5 (at40 0x0220B1B3 [(1#5, 0xFFFFFFFF#32), (2#5, 0xFFFFFFFF#32)]) = (0xFFFFFFFE#32, 0x44#32, .running) := by decide

/-- L2.3: rounding toward zero. -/
theorem test_div :
    seen 3#5 (at40 0x0220C1B3 [(1#5, 0xFFFFFFF9#32), (2#5, 0x2#32)]) = (0xFFFFFFFD#32, 0x44#32, .running) ∧
    seen 3#5 (at40 0x0220C1B3 [(1#5, 0x7#32), (2#5, 0xFFFFFFFE#32)]) = (0xFFFFFFFD#32, 0x44#32, .running) := by decide

/-- L2.3 (source). -/
theorem test_div_corners :
    seen 3#5 (at40 0x0220C1B3 [(1#5, 0x5#32), (2#5, 0x0#32)]) = (0xFFFFFFFF#32, 0x44#32, .running) ∧
    seen 3#5 (at40 0x0220C1B3 [(1#5, 0x80000000#32), (2#5, 0xFFFFFFFF#32)]) = (0x80000000#32, 0x44#32, .running) := by decide

/-- L2.3. -/
theorem test_divu :
    seen 3#5 (at40 0x0220D1B3 [(1#5, 0xFFFFFFF9#32), (2#5, 0x2#32)]) = (0x7FFFFFFC#32, 0x44#32, .running) ∧
    seen 3#5 (at40 0x0220D1B3 [(1#5, 0x5#32), (2#5, 0x0#32)]) = (0xFFFFFFFF#32, 0x44#32, .running) := by decide

/-- L2.3: the sign of the dividend. -/
theorem test_rem :
    seen 3#5 (at40 0x0220E1B3 [(1#5, 0xFFFFFFF9#32), (2#5, 0x2#32)]) = (0xFFFFFFFF#32, 0x44#32, .running) ∧
    seen 3#5 (at40 0x0220E1B3 [(1#5, 0x7#32), (2#5, 0xFFFFFFFE#32)]) = (0x1#32, 0x44#32, .running) := by decide

/-- L2.3 (source). -/
theorem test_rem_corners :
    seen 3#5 (at40 0x0220E1B3 [(1#5, 0xFFFFFFF9#32), (2#5, 0x0#32)]) = (0xFFFFFFF9#32, 0x44#32, .running) ∧
    seen 3#5 (at40 0x0220E1B3 [(1#5, 0x80000000#32), (2#5, 0xFFFFFFFF#32)]) = (0x0#32, 0x44#32, .running) := by decide

/-- L2.3. -/
theorem test_remu :
    seen 3#5 (at40 0x0220F1B3 [(1#5, 0xFFFFFFF9#32), (2#5, 0x2#32)]) = (0x1#32, 0x44#32, .running) ∧
    seen 3#5 (at40 0x0220F1B3 [(1#5, 0xFFFFFFF9#32), (2#5, 0x0#32)]) = (0xFFFFFFF9#32, 0x44#32, .running) := by decide

/-- L2.4. -/
theorem test_addi :
    seen 3#5 (at40 0x00108193 [(1#5, 0x7FFFFFFF#32)]) = (0x80000000#32, 0x44#32, .running) ∧
    seen 3#5 (at40 0x80008193 [(1#5, 0x0#32)]) = (0xFFFFF800#32, 0x44#32, .running) := by decide

/-- L2.4. -/
theorem test_slti :
    seen 3#5 (at40 0x0000A193 [(1#5, 0xFFFFFFFF#32)]) = (0x1#32, 0x44#32, .running) ∧
    seen 3#5 (at40 0xFFF0A193 [(1#5, 0x0#32)]) = (0x0#32, 0x44#32, .running) := by decide

/-- L2.4: the immediate is extended, then read unsigned. -/
theorem test_sltiu :
    seen 3#5 (at40 0xFFF0B193 [(1#5, 0x0#32)]) = (0x1#32, 0x44#32, .running) ∧
    seen 3#5 (at40 0xFFF0B193 [(1#5, 0xFFFFFFFF#32)]) = (0x0#32, 0x44#32, .running) ∧
    seen 3#5 (at40 0x0010B193 [(1#5, 0x0#32)]) = (0x1#32, 0x44#32, .running) := by decide

/-- L2.4. -/
theorem test_xori :
    seen 3#5 (at40 0xFFF0C193 [(1#5, 0xFFFF#32)]) = (0xFFFF0000#32, 0x44#32, .running) := by decide

/-- L2.4. -/
theorem test_ori :
    seen 3#5 (at40 0x8000E193 [(1#5, 0x1#32)]) = (0xFFFFF801#32, 0x44#32, .running) := by decide

/-- L2.4. -/
theorem test_andi :
    seen 3#5 (at40 0x0FF0F193 [(1#5, 0x12345678#32)]) = (0x78#32, 0x44#32, .running) ∧
    seen 3#5 (at40 0xFF00F193 [(1#5, 0x12345678#32)]) = (0x12345670#32, 0x44#32, .running) := by decide

/-- L2.4. -/
theorem test_slli :
    seen 3#5 (at40 0x01F09193 [(1#5, 0x3#32)]) = (0x80000000#32, 0x44#32, .running) ∧
    seen 3#5 (at40 0x00009193 [(1#5, 0xDEADBEEF#32)]) = (0xDEADBEEF#32, 0x44#32, .running) := by decide

/-- L2.4. -/
theorem test_srli :
    seen 3#5 (at40 0x01F0D193 [(1#5, 0x80000000#32)]) = (0x1#32, 0x44#32, .running) ∧
    seen 3#5 (at40 0x0040D193 [(1#5, 0xF0000000#32)]) = (0xF000000#32, 0x44#32, .running) := by decide

/-- L2.4. -/
theorem test_srai :
    seen 3#5 (at40 0x41F0D193 [(1#5, 0x80000000#32)]) = (0xFFFFFFFF#32, 0x44#32, .running) ∧
    seen 3#5 (at40 0x4040D193 [(1#5, 0xF0000000#32)]) = (0xFF000000#32, 0x44#32, .running) := by decide

/-- L2.5: sign, displacement. -/
theorem test_lb :
    seen 3#5 (at40m 0x00008183 [(1#5, 0x100#32)] 0x100 [0x80, 0xFF, 0x1, 0x2]) = (0xFFFFFF80#32, 0x44#32, .running) ∧
    seen 3#5 (at40m 0xFFC08183 [(1#5, 0x104#32)] 0x100 [0x80, 0xFF, 0x1, 0x2]) = (0xFFFFFF80#32, 0x44#32, .running) := by decide

/-- L2.5: the address wraps, the range does not. -/
theorem test_lb_wraps :
    seen 3#5 (at40 0x00108183 [(1#5, 0xFFFFFFFF#32)]) = (0x0#32, 0x44#32, .running) ∧
    seen 3#5 (at40 0x00008183 [(1#5, 0xFFFFFFFF#32)]) = (0x0#32, 0x40#32, .halted (.loadFault 0x40#32 0xFFFFFFFF#32)) := by decide

/-- L2.5: misaligned too. -/
theorem test_lh :
    seen 3#5 (at40m 0x00009183 [(1#5, 0x100#32)] 0x100 [0x80, 0xFF, 0x1, 0x2]) = (0xFFFFFF80#32, 0x44#32, .running) ∧
    seen 3#5 (at40m 0x00109183 [(1#5, 0x100#32)] 0x100 [0x80, 0xFF, 0x1, 0x2]) = (0x1FF#32, 0x44#32, .running) := by decide

/-- L2.5: misaligned too. -/
theorem test_lw :
    seen 3#5 (at40m 0x0000A183 [(1#5, 0x100#32)] 0x100 [0x80, 0xFF, 0x1, 0x2]) = (0x201FF80#32, 0x44#32, .running) ∧
    seen 3#5 (at40m 0x0010A183 [(1#5, 0x100#32)] 0x100 [0x80, 0xFF, 0x1, 0x2]) = (0x201FF#32, 0x44#32, .running) := by decide

/-- L2.5: the last word, one past it, and rd = x0. -/
theorem test_lw_bounds :
    seen 3#5 (at40 0x0000A183 [(1#5, 0xF1C#32)]) = (0x0#32, 0x44#32, .running) ∧
    seen 3#5 (at40 0x0000A183 [(1#5, 0xF1D#32)]) = (0x0#32, 0x40#32, .halted (.loadFault 0x40#32 0xF1D#32)) ∧
    seen 0#5 (at40 0x0000A003 [(1#5, 0xF1D#32)]) = (0x0#32, 0x40#32, .halted (.loadFault 0x40#32 0xF1D#32)) := by decide

/-- L2.5. -/
theorem test_lbu :
    seen 3#5 (at40m 0x0000C183 [(1#5, 0x100#32)] 0x100 [0x80, 0xFF, 0x1, 0x2]) = (0x80#32, 0x44#32, .running) := by decide

/-- L2.5: the last byte, one past it. -/
theorem test_lbu_bounds :
    seen 3#5 (at40 0x0000C183 [(1#5, 0xF1F#32)]) = (0x0#32, 0x44#32, .running) ∧
    seen 3#5 (at40 0x0000C183 [(1#5, 0xF20#32)]) = (0x0#32, 0x40#32, .halted (.loadFault 0x40#32 0xF20#32)) := by decide

/-- L2.5. -/
theorem test_lhu :
    seen 3#5 (at40m 0x0000D183 [(1#5, 0x100#32)] 0x100 [0x80, 0xFF, 0x1, 0x2]) = (0xFF80#32, 0x44#32, .running) := by decide

/-- L2.6: one byte, its neighbour kept; the address wraps. -/
theorem test_sb :
    wrote 0x200 2 (at40m 0x00208023 [(1#5, 0x200#32), (2#5, 0x11223344#32)] 0x200 [0xAA, 0xBB]) = (bytesOf [0x44, 0xBB], 0x44#32) ∧
    wrote 0x0 2 (at40 0x002080A3 [(1#5, 0xFFFFFFFF#32), (2#5, 0x11223344#32)]) = (bytesOf [0x44, 0x0], 0x44#32) := by decide

/-- L2.6. -/
theorem test_sh :
    wrote 0x200 3 (at40 0x00209023 [(1#5, 0x200#32), (2#5, 0x11223344#32)]) = (bytesOf [0x44, 0x33, 0x0], 0x44#32) ∧
    seen 0#5 (at40 0x00209023 [(1#5, 0xF1F#32), (2#5, 0x11223344#32)]) = (0x0#32, 0x40#32, .halted (.storeFault 0x40#32 0xF1F#32)) := by decide

/-- L2.6: misaligned, and the last word. -/
theorem test_sw :
    wrote 0x201 4 (at40 0x0020A0A3 [(1#5, 0x200#32), (2#5, 0x11223344#32)]) = (bytesOf [0x44, 0x33, 0x22, 0x11], 0x44#32) ∧
    wrote 0xF1C 4 (at40 0x0020A023 [(1#5, 0xF1C#32), (2#5, 0x11223344#32)]) = (bytesOf [0x44, 0x33, 0x22, 0x11], 0x44#32) := by decide

/-- L2.6: a faulting store writes no byte. -/
theorem test_sw_out_of_bounds :
    wrote 0xF1C 4 (at40 0x0020A023 [(1#5, 0xF1E#32), (2#5, 0x11223344#32)]) = (bytesOf [0x0, 0x0, 0x0, 0x0], 0x40#32) ∧
    seen 0#5 (at40 0x0020A023 [(1#5, 0xF1E#32), (2#5, 0x11223344#32)]) = (0x0#32, 0x40#32, .halted (.storeFault 0x40#32 0xF1E#32)) := by decide

/-- L2.6: x0 stores zeros. -/
theorem test_sw_x0 :
    wrote 0x200 4 (at40m 0x0000A023 [(1#5, 0x200#32)] 0x200 [0x1, 0x2, 0x3, 0x4]) = (bytesOf [0x0, 0x0, 0x0, 0x0], 0x44#32) := by decide

/-- L2.7. -/
theorem test_beq :
    seen 0#5 (at40 0x00208863 [(1#5, 0x5#32), (2#5, 0x5#32)]) = (0x0#32, 0x50#32, .running) ∧
    seen 0#5 (at40 0x00208863 [(1#5, 0x5#32), (2#5, 0x6#32)]) = (0x0#32, 0x44#32, .running) := by decide

/-- L2.7. -/
theorem test_beq_wraps :
    seen 0#5 (at40 0x80000063 []) = (0x0#32, 0xFFFFF040#32, .running) ∧
    seen 0#5 (at40 0x00000063 []) = (0x0#32, 0x40#32, .running) := by decide

/-- L2.7. -/
theorem test_bne :
    seen 0#5 (at40 0xFC2090E3 [(1#5, 0x5#32), (2#5, 0x6#32)]) = (0x0#32, 0x0#32, .running) ∧
    seen 0#5 (at40 0xFC2090E3 [(1#5, 0x5#32), (2#5, 0x5#32)]) = (0x0#32, 0x44#32, .running) := by decide

/-- L2.7. -/
theorem test_blt :
    seen 0#5 (at40 0x0020C863 [(1#5, 0x80000000#32), (2#5, 0x7FFFFFFF#32)]) = (0x0#32, 0x50#32, .running) ∧
    seen 0#5 (at40 0x0020C863 [(1#5, 0x5#32), (2#5, 0x5#32)]) = (0x0#32, 0x44#32, .running) := by decide

/-- L2.7. -/
theorem test_bge :
    seen 0#5 (at40 0x0020D863 [(1#5, 0x5#32), (2#5, 0x5#32)]) = (0x0#32, 0x50#32, .running) ∧
    seen 0#5 (at40 0x0020D863 [(1#5, 0xFFFFFFFF#32), (2#5, 0x1#32)]) = (0x0#32, 0x44#32, .running) := by decide

/-- L2.7. -/
theorem test_bltu :
    seen 0#5 (at40 0x0020E863 [(1#5, 0x1#32), (2#5, 0xFFFFFFFF#32)]) = (0x0#32, 0x50#32, .running) ∧
    seen 0#5 (at40 0x0020E863 [(1#5, 0xFFFFFFFF#32), (2#5, 0x1#32)]) = (0x0#32, 0x44#32, .running) := by decide

/-- L2.7. -/
theorem test_bgeu :
    seen 0#5 (at40 0x0020F863 [(1#5, 0xFFFFFFFF#32), (2#5, 0x1#32)]) = (0x0#32, 0x50#32, .running) ∧
    seen 0#5 (at40 0x0000F863 [(1#5, 0x0#32)]) = (0x0#32, 0x50#32, .running) := by decide

/-- L2.8. -/
theorem test_lui :
    seen 3#5 (at40 0x800001B7 []) = (0x80000000#32, 0x44#32, .running) ∧
    seen 3#5 (at40 0x000001B7 [(3#5, 0x1234#32)]) = (0x0#32, 0x44#32, .running) := by decide

/-- L2.8. -/
theorem test_auipc :
    seen 3#5 (at40 0x00001197 []) = (0x1040#32, 0x44#32, .running) ∧
    seen 3#5 (start 0xE00#32 0xFFFFF197 [] (0, [])) = (0xFFFFFE00#32, 0xE04#32, .running) := by decide

/-- L2.9. -/
theorem test_jal :
    seen 1#5 (at40 0x010000EF []) = (0x44#32, 0x50#32, .running) ∧
    seen 0#5 (at40 0xFC1FF06F []) = (0x0#32, 0x0#32, .running) := by decide

/-- L2.9: bit 0 cleared; the target from the old x1; a misaligned target. -/
theorem test_jalr :
    seen 1#5 (at40 0x000280E7 [(5#5, 0x101#32)]) = (0x44#32, 0x100#32, .running) ∧
    seen 1#5 (at40 0x000080E7 [(1#5, 0x80#32)]) = (0x44#32, 0x80#32, .running) ∧
    seen 1#5 (at40 0x000280E7 [(5#5, 0x102#32)]) = (0x44#32, 0x102#32, .running) := by decide

/-- L2.10. -/
theorem test_ebreak :
    seen 10#5 (at40 0x00100073 [(10#5, 0x7#32)]) = (0x7#32, 0x40#32, .halted (.breakpoint 0x40#32)) := by decide

/-- L2.10: PRINT, in bounds, empty, ending at mem_size, and out of range. -/
theorem test_ecall_print :
    (stepped (at40m 0x00000073 [(17#5, 0x1#32), (10#5, 0x800#32), (11#5, 0x2#32)] 0x800 [0x48, 0x69])).console = [bytesOf [0x48, 0x69]] ∧
    (stepped (at40 0x00000073 [(17#5, 0x1#32), (10#5, 0x800#32)])).console = [[]] ∧
    seen 10#5 (at40 0x00000073 [(17#5, 0x1#32), (10#5, 0xF1E#32), (11#5, 0x2#32)]) = (0x0#32, 0x44#32, .running) ∧
    seen 10#5 (at40 0x00000073 [(17#5, 0x1#32), (10#5, 0xF1E#32), (11#5, 0x3#32)]) = (0xF1E#32, 0x40#32, .halted (.loadFault 0x40#32 0xF1E#32)) := by decide

set_option maxRecDepth 8000 in
/-- L2.10: DRAW publishes the 800 bytes of VRAM. -/
theorem test_ecall_draw :
    (stepped (at40m 0x00000073 [(17#5, 0x2#32)] 0xC00 [0x1, 0x2, 0x3, 0x4])).frames.map (fun f => (f.length, f.take 5)) =
      [(800, bytesOf [1, 2, 3, 4, 0])] := by decide

/-- L2.10: numbers of no service; all 32 bits select. -/
theorem test_ecall_unknown :
    seen 10#5 (at40 0x00000073 [(17#5, 0x3#32), (10#5, 0x7#32)]) = (0xFFFFFFFF#32, 0x44#32, .running) ∧
    seen 10#5 (at40 0x00000073 [(17#5, 0xDEAD#32)]) = (0xFFFFFFFF#32, 0x44#32, .running) ∧
    seen 10#5 (at40 0x00000073 [(17#5, 0x10#32)]) = (0xFFFFFFFF#32, 0x44#32, .running) ∧
    seen 10#5 (at40 0x00000073 [(17#5, 0x80000001#32)]) = (0xFFFFFFFF#32, 0x44#32, .running) := by decide

/-- L2.10: RESET, and its transport failure. -/
theorem test_ecall_reset :
    called (answered (at40 0x00000073 [(17#5, 0x0#32)]) 0x0#32 []) =
      (0x0#32, 0x44#32, [bytesOf [0x0, 0x0, 0x0, 0x0]], bytesOf [0x0, 0x0, 0x0, 0x0]) ∧
    called (answered (at40 0x00000073 [(17#5, 0x0#32)]) 0xFFFFFFFF#32 []) =
      (0xFFFFFFFF#32, 0x44#32, [bytesOf [0x0, 0x0, 0x0, 0x0]], bytesOf [0x0, 0x0, 0x0, 0x0]) := by decide

/-- L2.10: OPEN, the path NUL-terminated and with a length. -/
theorem test_ecall_open :
    called (answered (at40m 0x00000073 [(17#5, 0xA#32), (10#5, 0x800#32), (12#5, 0x41#32)] 0x800 [0x66, 0x2E, 0x74, 0x78, 0x74, 0x0]) 0x3#32 []) =
      (0x3#32, 0x44#32, [bytesOf [0xA, 0x0, 0x0, 0x0, 0x66, 0x2E, 0x74, 0x78, 0x74, 0x0, 0x41, 0x0, 0x0, 0x0]], bytesOf [0x0, 0x0, 0x0, 0x0]) ∧
    called (answered (at40m 0x00000073 [(17#5, 0xA#32), (10#5, 0x800#32), (11#5, 0x3#32)] 0x800 [0x66, 0x2E, 0x74, 0x78, 0x74, 0x0]) 0x4#32 []) =
      (0x4#32, 0x44#32, [bytesOf [0xA, 0x0, 0x0, 0x0, 0x66, 0x2E, 0x74, 0x0, 0x0, 0x0, 0x0, 0x0]], bytesOf [0x0, 0x0, 0x0, 0x0]) := by decide

/-- L2.10: no NUL before mem_size; READ and WRITE out of range. -/
theorem test_ecall_open_no_nul :
    seen 10#5 (at40m 0x00000073 [(17#5, 0xA#32), (10#5, 0xF1E#32)] 0xF1E [0x61, 0x62]) = (0xF1E#32, 0x40#32, .halted (.loadFault 0x40#32 0xF1E#32)) ∧
    seen 10#5 (at40 0x00000073 [(17#5, 0xD#32), (10#5, 0x3#32), (11#5, 0xF1E#32), (12#5, 0x4#32)]) = (0x3#32, 0x40#32, .halted (.storeFault 0x40#32 0xF1E#32)) ∧
    seen 10#5 (at40 0x00000073 [(17#5, 0xE#32), (10#5, 0x3#32), (11#5, 0xF1E#32), (12#5, 0x4#32)]) = (0x3#32, 0x40#32, .halted (.loadFault 0x40#32 0xF1E#32)) := by decide

/-- L2.10: CLOSE and SEEK. -/
theorem test_ecall_close_seek :
    called (answered (at40 0x00000073 [(17#5, 0xB#32), (10#5, 0x3#32)]) 0x0#32 []) =
      (0x0#32, 0x44#32, [bytesOf [0xB, 0x0, 0x0, 0x0, 0x3, 0x0, 0x0, 0x0]], bytesOf [0x0, 0x0, 0x0, 0x0]) ∧
    called (answered (at40 0x00000073 [(17#5, 0xC#32), (10#5, 0x3#32), (11#5, 0xFFFFFFFF#32), (12#5, 0x2#32)]) 0x63#32 []) =
      (0x63#32, 0x44#32, [bytesOf [0xC, 0x0, 0x0, 0x0, 0x3, 0x0, 0x0, 0x0, 0xFF, 0xFF, 0xFF, 0xFF, 0x2, 0x0, 0x0, 0x0]], bytesOf [0x0, 0x0, 0x0, 0x0]) := by decide

/-- L2.10: READ, and READ on an empty pipe. -/
theorem test_ecall_read :
    called (answered (at40 0x00000073 [(17#5, 0xD#32), (10#5, 0x4#32), (11#5, 0x900#32), (12#5, 0x4#32)]) 0x3#32 [0x61, 0x62, 0x63]) =
      (0x3#32, 0x44#32, [bytesOf [0xD, 0x0, 0x0, 0x0, 0x4, 0x0, 0x0, 0x0, 0x4, 0x0, 0x0, 0x0]], bytesOf [0x61, 0x62, 0x63, 0x0]) ∧
    called (answered (at40 0x00000073 [(17#5, 0xD#32), (10#5, 0x5#32), (11#5, 0x900#32), (12#5, 0x4#32)]) 0xFFFFFFC0#32 []) =
      (0xFFFFFFC0#32, 0x44#32, [bytesOf [0xD, 0x0, 0x0, 0x0, 0x5, 0x0, 0x0, 0x0, 0x4, 0x0, 0x0, 0x0]], bytesOf [0x0, 0x0, 0x0, 0x0]) := by decide

/-- L2.10: WRITE and SOCKET. -/
theorem test_ecall_write_socket :
    called (answered (at40m 0x00000073 [(17#5, 0xE#32), (10#5, 0x1#32), (11#5, 0x800#32), (12#5, 0x2#32)] 0x800 [0x48, 0x69]) 0x2#32 []) =
      (0x2#32, 0x44#32, [bytesOf [0xE, 0x0, 0x0, 0x0, 0x1, 0x0, 0x0, 0x0, 0x48, 0x69]], bytesOf [0x0, 0x0, 0x0, 0x0]) ∧
    called (answered (at40m 0x00000073 [(17#5, 0xF#32), (10#5, 0x800#32)] 0x800 [0x68, 0x3A, 0x31, 0x0]) 0x6#32 []) =
      (0x6#32, 0x44#32, [bytesOf [0xF, 0x0, 0x0, 0x0, 0x68, 0x3A, 0x31, 0x0]], bytesOf [0x0, 0x0, 0x0, 0x0]) := by decide

/-- L2.11: fetch faults, pc unchanged. -/
theorem test_fetch_faults :
    [0x42#32, 0x41#32, 0xF20#32, 0xF1E#32, 0xFFFFFFFC#32].all (fun pc =>
      seen 0#5 { State.reset with pc := pc } == (0#32, pc, .halted (.fetchFault pc))) = true := by decide

/-- L2.11: the last word in bounds executes; CSR words, FENCE and MRET halt. -/
theorem test_illegal_steps :
    seen 0#5 (start 0xF1C#32 0x00000013 [] (0, [])) = (0#32, 0xF20#32, .running) ∧
    [0x30001073, 0x0FF0000F, 0x30200073].all (fun w =>
      seen 0#5 (at40 w []) == (0#32, 0x40#32, .halted (.illegalInstruction 0x40#32 (BitVec.ofNat 32 w)))) = true := by decide

/-- R270: the loader strips white space, refuses an odd length and a character that is no digit, and the image must fit. -/
theorem test_loader :
    loadHex "93 02\na0 FF".toList = some (bytesOf [0x93, 0x02, 0xA0, 0xFF]) ∧
    loadHex "930".toList = none ∧ loadHex "9g".toList = none ∧
    (launchHex "9302A000".toList { LaunchInputs.default with loadBase := 3868#32 }).isSome = true ∧
    (launchHex "9302A000".toList { LaunchInputs.default with loadBase := 3869#32 }).isNone = true := by decide

/-- R86 and R87: assembler text, and expansions. -/
theorem test_assembly :
    asmInstr (.addi 5 0 10#32) = "addi t0, zero, 10" ∧ asmInstr (.sw 2 1 0xFFFFFFFC#32) = "sw sp, -4(ra)" ∧
    asmInstr (.lui 1 0xFFFFF000#32) = "lui ra, 1048575" ∧ asmInstr .ecall = "ecall" ∧
    Pseudo.nop.expand = [.addi 0 0 0#32] ∧ (Pseudo.li 1 0x80007F80#32).expand = [.lui 1 0x80008000#32, .addi 1 1 0xFFFFFF80#32] ∧
    Pseudo.ret.expand = [.jalr 0 1 0#32] := by decide

/-! ### Witnesses: states and operands that meet the hypotheses of each obligation -/

/-- The words and instructions of `DecodeOfEncode`, `EncodeOfDecode`: the ends of every immediate's range. -/
theorem witness_DecodeOfEncode :
    (Instr.jal 31 0xFFFFE#32).wellFormed = true ∧ (Instr.beq 31 0 0xFFFFF000#32).wellFormed = true ∧
    (Instr.sw 31 31 0x7FF#32).wellFormed = true ∧ (Instr.lui 0 0xFFFFF000#32).wellFormed = true ∧
    (Instr.addi 0 31 0xFFFFF800#32).wellFormed = true ∧ (Instr.srai 1 2 31).wellFormed = true := by decide

theorem witness_EncodeOfDecode :
    decode 0x7FFFF0EF#32 = .ok (.jal 1 0xFFFFE#32) ∧ decode 0x00100073#32 = .ok .ebreak := ⟨rfl, rfl⟩

/-- `DecodeMatchesOpcodeTable`, `OpcodeRowsNeverOverlap`: a row that covers a word, and one that does not. -/
theorem witness_OpcodeRows :
    (Instr.srai 0 0 0).row ∈ opcodeRows ∧ (Instr.srai 0 0 0).row.covers 0x41F15093#32 = true ∧
    (Instr.srli 0 0 0).row ∈ opcodeRows ∧ (Instr.srli 0 0 0).row.covers 0x41F15093#32 = false := by decide

/-- `ClassFollowsOpcode`: a word of each class. -/
theorem witness_ClassFollowsOpcode :
    [0x002081B3, 0x00108193, 0x000280E7, 0x00008183, 0x0020A023, 0x00208863, 0x800001B7, 0x00000197, 0x010000EF,
      0x00000073].map (fun w => (decode (BitVec.ofNat 32 w)).toOption.map Instr.cls) =
    [some .r, some .iArith, some .iArith, some .iLoad, some .s, some .b, some .u, some .u, some .j, some .system] := by
  decide

/-- `ClassFollowsOpcode`: the record of `srai x1, x2, 31`, whose immediate is all of inst[31:20] and whose rs2 is unused
(R61, R63, R68 read on the word 0x41F15093), and a word that has none. -/
theorem witness_decodeRecord :
    decodeRecord 0x41F15093#32 = .ok ⟨.iArith, .srai, 5, 0x20, 1, 2, 31, 0x41F⟩ ∧
    decodeRecord 0x00100073#32 = .ok ⟨.system, .ebreak, 0, 0, 0, 0, 1, 1⟩ ∧
    decodeRecord 0x0FF0000F#32 = .error .unknownOpcode ∧ decode 0x0FF0000F#32 = .error .unknownOpcode := by decide

/-- A running state with an aligned pc in range, and the word there. -/
def fetches (s : State) (w : Word) : Bool :=
  s.status == .running && decide (s.pc.toNat % 4 = 0) && s.memRead s.pc 4 == some w

/-- `UnlistedOpcodesHalt`: an unlisted opcode, and SYSTEM words that are neither ECALL nor EBREAK. -/
theorem witness_UnlistedOpcodesHalt :
    fetches (at40 0x0FF0000F []) 0x0FF0000F#32 = true ∧ opcodeOf 0x0FF0000F#32 = 0x0F#7 ∧
    fetches (at40 0x30200073 []) 0x30200073#32 = true ∧ opcodeOf 0x30200073#32 = 0x73#7 := by decide

/-- `UnlistedFunctionCodesHalt`: a word for each of its cases. -/
theorem witness_UnlistedFunctionCodesHalt :
    [0x80000033, 0x40001033, 0x40001013, 0x02005013, 0x00003003, 0x00003023, 0x00002063, 0x00001067].all (fun w =>
      fetches (at40 w []) (BitVec.ofNat 32 w)) = true ∧
    (funct7Of 0x80000033#32 = 0x40#7 ∧ funct7Of 0x40001033#32 = 0x20#7 ∧ funct3Of 0x40001033#32 = 1#3) ∧
    (funct3Of 0x40001013#32 = 1#3 ∧ funct7Of 0x40001013#32 = 0x20#7) ∧
    (funct3Of 0x02005013#32 = 5#3 ∧ funct7Of 0x02005013#32 = 0x01#7) ∧ funct3Of 0x00003003#32 = 3#3 ∧
    funct3Of 0x00003023#32 = 3#3 ∧ funct3Of 0x00002063#32 = 2#3 ∧ funct3Of 0x00001067#32 = 1#3 := by decide

/-- `FetchFollowsItsRule`: misaligned, the first pc out of range, the last in range with a legal and an illegal word. -/
theorem witness_FetchFollowsItsRule :
    (start 0xF1A#32 0x13 [] (0, [])).pc.toNat % 4 ≠ 0 ∧ (start 0xF1A#32 0x13 [] (0, [])).status = .running ∧
    State.reset.params.memSize < (start 0xF20#32 0x13 [] (0, [])).pc.toNat + 4 ∧
    fetches (start 0xF1C#32 0x13 [] (0, [])) 0x13#32 = true ∧ decode 0x13#32 = .ok (.addi 0 0 0#32) ∧
    fetches (start 0xF1C#32 0 [] (0, [])) 0#32 = true ∧ decode 0#32 = .error .unknownOpcode :=
  ⟨by decide, by decide, by decide, by decide, rfl, by decide, rfl⟩

theorem witness_StepRunsDecodedInstruction :
    fetches (at40 0x01F0D193 []) 0x01F0D193#32 = true ∧ decode 0x01F0D193#32 = .ok (.srli 3 1 31) := ⟨by decide, rfl⟩

theorem witness_HaltedStepChangesNothing : (State.reset.halt (.breakpoint 0#32)).status = .halted (.breakpoint 0#32) := rfl

/-- `HaltsArePrecise`: a running state whose step halts, for each reason. -/
theorem witness_HaltsArePrecise :
    (stepped (start 0xF20#32 0 [] (0, []))).status = .halted (.fetchFault 0xF20#32) ∧
    (stepped (at40 0 [])).status = .halted (.illegalInstruction 0x40#32 0#32) ∧
    (stepped (at40 0x00008183 [(1, 0xFFFFFFFF#32)])).status = .halted (.loadFault 0x40#32 0xFFFFFFFF#32) ∧
    (stepped (at40 0x0020A023 [(1, 0xF1D#32)])).status = .halted (.storeFault 0x40#32 0xF1D#32) ∧
    (stepped (at40 0x00100073 [])).status = .halted (.breakpoint 0x40#32) := by decide

/-- A step that stores, from a state with the invariant. -/
theorem witness_StepKeepsInvariant :
    (at40 0x0020A023 [(1, 0xF1C#32), (2, 1#32)]).Inv ∧ ∃ t, step (at40 0x0020A023 [(1, 0xF1C#32), (2, 1#32)]) = .next t := by
  refine ⟨⟨by decide, by decide, by decide, by decide, ?_, ?_⟩, ⟨_, rfl⟩⟩
  · intro f hf; cases hf
  · intro h hh; exact absurd hh (by simp [at40, start, State.reset, State.setReg])

/-- `LaunchFollowsItsRule`: an image that ends at mem_size, and one that ends past it; mem_size at and below its least. -/
theorem witness_LaunchFollowsItsRule :
    (launch { LaunchInputs.default with image := [0x13#8, 0#8, 0#8, 0#8], loadBase := 3868#32 }).isSome = true ∧
    (launch { LaunchInputs.default with image := [0x13#8, 0#8, 0#8, 0#8], loadBase := 3869#32 }).isNone = true ∧
    (launch { LaunchInputs.default with params := { Params.default with memSize := 4 } }).isSome = true ∧
    (launch { LaunchInputs.default with params := { Params.default with memSize := 3 } }).isNone = true := by decide

theorem witness_LaunchMeetsInvariant :
    ∃ t, launch { LaunchInputs.default with image := [0x13#8], mem := [(3871, 7#8), (3872, 7#8)] } = some t := ⟨_, rfl⟩

/-- `PcStaysEven`: an even pc whose step goes to an odd multiple of 2. -/
theorem witness_PcStaysEven :
    (at40 0x00000163 []).pc.toNat % 2 = 0 ∧ ∃ t, step (at40 0x00000163 []) = .next t ∧ t.pc = 0x42#32 := ⟨by decide, _, rfl, rfl⟩

theorem witness_ZeroRegisterIsHardWired :
    destOf (.jal 0 8#32) = some 0#5 ∧ (∃ t, exec (.jal 0 8#32) State.reset = .next t) ∧
      ∃ t, step State.reset = .next t := ⟨rfl, ⟨_, rfl⟩, ⟨_, rfl⟩⟩

/-- `StepWritesOnlyItsDestination`: a register that a step changes, a0 by ECALL among them. -/
theorem witness_StepWritesOnlyItsDestination :
    (∃ t, step (at40 0x00108193 []) = .next t ∧ t.getReg 3#5 ≠ (at40 0x00108193 []).getReg 3#5) ∧
    ∃ t, step (at40 0x00000073 [(17, 3#32)]) = .next t ∧ t.getReg 10#5 ≠ (at40 0x00000073 [(17, 3#32)]).getReg 10#5 :=
  ⟨⟨_, rfl, by decide⟩, ⟨_, rfl, by decide⟩⟩

/-- READ of 4 bytes to 0x900, the environment's answer settled. -/
def reading (status : Word) (payload : List Nat) : State :=
  answered (at40 0x00000073 [(17, 13#32), (10, 4#32), (11, 0x900#32), (12, 4#32)]) status payload

/-- `OnlyStoresAndReadWriteMemory`: a byte changed by a store, and by READ. -/
theorem witness_OnlyStoresAndReadWriteMemory :
    (∃ t, step (at40 0x00208023 [(1, 0x200#32), (2, 1#32)]) = .next t ∧
      t.mem.read 0x200 ≠ (at40 0x00208023 [(1, 0x200#32), (2, 1#32)]).mem.read 0x200) ∧
    ∃ t, step (reading 4#32 [1, 2, 3, 4]) = .next t ∧ t.mem.read 0x903 ≠ (reading 4#32 [1, 2, 3, 4]).mem.read 0x903 :=
  ⟨⟨_, rfl, by decide⟩, ⟨_, rfl, by decide⟩⟩

/-- A state with a two-byte VRAM slice that ends at mem_size. -/
def smallVram (s : State) : State := { s with params := { s.params with vramBase := 3870#32, vramLen := 2#32 } }

/-- `OutputLogsOnlyGrow`: a console and frames that a step changes. -/
theorem witness_OutputLogsOnlyGrow :
    (∃ t, step (at40 0x00000073 [(17, 1#32)]) = .next t ∧ t.console ≠ (at40 0x00000073 [(17, 1#32)]).console) ∧
    ∃ t, step (smallVram (at40 0x00000073 [(17, 2#32)])) = .next t ∧
      t.frames ≠ (smallVram (at40 0x00000073 [(17, 2#32)])).frames := ⟨⟨_, rfl, by decide⟩, ⟨_, rfl, by decide⟩⟩

theorem witness_ParametersNeverChange : ∃ t, step (smallVram (at40 0x00000073 [(17, 2#32)])) = .next t := ⟨_, rfl⟩

/-- `PcAdvancesOrGoesToItsTarget`: a step that advances, a branch taken, JAL and JALR, none halting. -/
theorem witness_PcAdvancesOrGoesToItsTarget :
    [0x00108193, 0x00000163, 0x010000EF, 0x000280E7].all (fun w =>
      (at40 w []).status == .running && (stepped (at40 w [])).status == .running) = true := by decide

/-- `MemReadFollowsItsRule`, `MemWriteFollowsItsRule`: for each width the last address in bounds and the first that is not. -/
theorem witness_memory_bounds :
    State.reset.mem.wf = true ∧
    [(3871#32, 1), (3870#32, 2), (3868#32, 4)].all (fun p => decide (p.1.toNat + p.2 ≤ State.reset.params.memSize)) = true ∧
    [(3872#32, 1), (3871#32, 2), (3869#32, 4)].all (fun p =>
      decide (State.reset.params.memSize < p.1.toNat + p.2)) = true := by decide

/-- `RangesFollowTheirRule`: no bytes out of range, a range that ends at mem_size, one that ends past it. -/
theorem witness_RangesFollowTheirRule :
    State.reset.readRange 0xFFFFFFFF#32 0 = some [] ∧ State.reset.readRange 3870#32 2 = some [0#8, 0#8] ∧
    State.reset.readRange 3870#32 3 = none ∧ (State.reset.writeRange 0xFFFFFFFF#32 []).isSome = true ∧
    (State.reset.writeRange 3870#32 [1#8, 2#8]).isSome = true ∧
    (State.reset.writeRange 3870#32 [1#8, 2#8, 3#8]).isNone = true := by decide

/-- `MixedWidthsSeeTheSameBytes`: the last word of memory, and its last byte. -/
theorem witness_MixedWidthsSeeTheSameBytes :
    State.reset.mem.wf = true ∧ State.reset.params.memSize ≤ 2 ^ 32 ∧ (3868#32).toNat + 4 ≤ State.reset.params.memSize ∧
    (3871#32).toNat + 1 ≤ State.reset.params.memSize ∧ (∃ t, State.reset.memWrite 3868#32 4 0x11223344#32 = some t) ∧
    (∃ t, State.reset.memWrite (3868#32 + 1#32) 1 0xAB#32 = some t) ∧ State.reset.memRead 3868#32 4 = some 0#32 :=
  ⟨by decide, by decide, by decide, by decide, ⟨_, rfl⟩, ⟨_, rfl⟩, by decide⟩

/-- SW at pc 0xF18, to the next instruction's address, which is the last in bounds. -/
def patching (v : Word) : State := start 0xF18#32 0x0020A023 [(1, 0xF1C#32), (2, v)] (0, [])

/-- `StoreIsSeenByTheNextFetch`: a stored word that decodes, and one that does not. -/
theorem witness_StoreIsSeenByTheNextFetch :
    (patching 0x00100073#32).Inv ∧ (patching 0x00100073#32).status = .running ∧
    (patching 0x00100073#32).fetchInstr = .ok (.sw 2 1 0#32) ∧
    (patching 0x00100073#32).getReg 1#5 + 0#32 = (patching 0x00100073#32).pc + 4#32 ∧
    (patching 0x00100073#32).pc.toNat + 8 ≤ (patching 0x00100073#32).params.memSize ∧
    (∃ t, step (patching 0x00100073#32) = .next t) ∧ decode 0x00100073#32 = .ok .ebreak ∧
    (patching 0#32).fetchInstr = .ok (.sw 2 1 0#32) ∧ decode 0#32 = .error .unknownOpcode := by
  refine ⟨⟨by decide, by decide, by decide, by decide, ?_, ?_⟩, by decide, rfl, by decide, by decide, ⟨_, rfl⟩, rfl, rfl, rfl⟩
  · intro f hf; cases hf
  · intro h hh; exact absurd hh (by simp [patching, start, State.reset, State.setReg])

/-- `DivisionLawsHold`: the four instructions complete; a zero divisor, the overflow, a dividend below zero, one above. -/
theorem witness_DivisionLawsHold :
    [(5#32, 0#32), (0x80000000#32, 0xFFFFFFFF#32), (0xFFFFFFF9#32, 2#32), (7#32, 0xFFFFFFFE#32)].all (fun p =>
      (State.reset.setReg 1 p.1 |>.setReg 2 p.2).getReg 1 == p.1 && (State.reset.setReg 1 p.1 |>.setReg 2 p.2).getReg 2 == p.2)
      = true ∧
    ∀ s : State, (∃ t, exec (.div 3 1 2) s = .next t) ∧ (∃ t, exec (.rem 3 1 2) s = .next t) ∧
      (∃ t, exec (.divu 3 1 2) s = .next t) ∧ ∃ t, exec (.remu 3 1 2) s = .next t :=
  ⟨by decide, fun _ => ⟨⟨_, rfl⟩, ⟨_, rfl⟩, ⟨_, rfl⟩, ⟨_, rfl⟩⟩⟩

/-- A state whose x1 is an effective address. -/
def based (ea : Word) : State := State.reset.setReg 1 ea

/-- `LoadsExtendTheirBytes`, `StoresWriteTheirBytesAndNoOthers`: for each width the last effective address in bounds and the
first that is not. -/
theorem witness_effective_addresses :
    (based 3871#32).mem.wf = true ∧
    [(3871#32, 1), (3870#32, 2), (3868#32, 4)].all (fun p =>
      p.1 == (based p.1).getReg 1 + 0#32 && decide (p.1.toNat + p.2 ≤ (based p.1).params.memSize)) = true ∧
    [(3872#32, 1), (3871#32, 2), (3869#32, 4)].all (fun p =>
      p.1 == (based p.1).getReg 1 + 0#32 && decide ((based p.1).params.memSize < p.1.toNat + p.2)) = true := by decide

theorem witness_UpperImmediatesWriteTheirValue :
    0xFFFFF0B7#32 &&& 0x7F#32 = 0x37#32 ∧ 0x80000097#32 &&& 0x7F#32 = 0x17#32 ∧ ¬ 0x0000006F#32 &&& 0x7F#32 = 0x37#32 := by
  decide

/-- `BadTargetFaultsAtTheNextFetch`: a misaligned target, the first out of range, and their instructions. -/
theorem witness_BadTargetFaultsAtTheNextFetch :
    State.reset.status = .running ∧ isTransfer (.jal 0 2#32) = true ∧ isTransfer (.beq 0 0 3872#32) = true ∧
    (∃ t, exec (.jal 0 2#32) State.reset = .next t ∧ t.pc.toNat % 4 ≠ 0) ∧
    ∃ t, exec (.beq 0 0 3872#32) State.reset = .next t ∧ State.reset.params.memSize < t.pc.toNat + 4 :=
  ⟨rfl, rfl, rfl, ⟨_, rfl, by decide⟩, ⟨_, rfl, by decide⟩⟩

/-- A state with the service number and arguments given. -/
def calling (n a0 a1 a2 : Word) : State :=
  (((State.reset.setReg 17 n).setReg 10 a0).setReg 11 a1).setReg 12 a2

/-- `PrintAppendsOneRecord`: no bytes at an address out of range, a range that ends at mem_size, one that ends past it. -/
theorem witness_PrintAppendsOneRecord :
    ((calling 1 0xFFFFFFFF 0 0).getReg 17#5 = 0x01#32 ∧ (calling 1 0xFFFFFFFF 0 0).getReg 11#5 = 0#32) ∧
    ((calling 1 3870 2 0).getReg 17#5 = 0x01#32 ∧ ((calling 1 3870 2 0).getReg 10#5).toNat +
      ((calling 1 3870 2 0).getReg 11#5).toNat ≤ (calling 1 3870 2 0).params.memSize) ∧
    ((calling 1 3870 3 0).getReg 17#5 = 0x01#32 ∧ (calling 1 3870 3 0).getReg 11#5 ≠ 0#32 ∧
      (calling 1 3870 3 0).params.memSize < ((calling 1 3870 3 0).getReg 10#5).toNat +
        ((calling 1 3870 3 0).getReg 11#5).toNat) := by decide

/-- `WriteHandsOverItsBytes`: the same three ranges. -/
theorem witness_WriteHandsOverItsBytes :
    ((calling 14 1 0xFFFFFFFF 0).getReg 17#5 = 0x0E#32 ∧ (calling 14 1 0xFFFFFFFF 0).getReg 12#5 = 0#32) ∧
    ((calling 14 1 3870 2).getReg 17#5 = 0x0E#32 ∧ ((calling 14 1 3870 2).getReg 11#5).toNat +
      ((calling 14 1 3870 2).getReg 12#5).toNat ≤ (calling 14 1 3870 2).params.memSize) ∧
    ((calling 14 1 3870 3).getReg 17#5 = 0x0E#32 ∧ (calling 14 1 3870 3).getReg 12#5 ≠ 0#32 ∧
      (calling 14 1 3870 3).params.memSize < ((calling 14 1 3870 3).getReg 11#5).toNat +
        ((calling 14 1 3870 3).getReg 12#5).toNat) := by decide

/-- `ReadStoresTheHostsPayload`: the same three ranges; the answers are `witness_read_duty`. -/
theorem witness_ReadStoresTheHostsPayload :
    (calling 13 1 0xFFFFFFFF 0).mem.wf = true ∧
    ((calling 13 1 0xFFFFFFFF 0).getReg 17#5 = 0x0D#32 ∧ (calling 13 1 0xFFFFFFFF 0).getReg 12#5 = 0#32) ∧
    ((calling 13 1 3870 2).getReg 17#5 = 0x0D#32 ∧ ((calling 13 1 3870 2).getReg 11#5).toNat +
      ((calling 13 1 3870 2).getReg 12#5).toNat ≤ (calling 13 1 3870 2).params.memSize) ∧
    ((calling 13 1 3870 3).getReg 17#5 = 0x0D#32 ∧ (calling 13 1 3870 3).getReg 12#5 ≠ 0#32 ∧
      (calling 13 1 3870 3).params.memSize < ((calling 13 1 3870 3).getReg 11#5).toNat +
        ((calling 13 1 3870 3).getReg 12#5).toNat) := by decide

/-- A DRAW with the VRAM slice given. -/
def drawing (base len : Word) : State :=
  { calling 2 0 0 0 with params := { Params.default with vramBase := base, vramLen := len } }

/-- `DrawPublishesTheVramSlice`: an empty slice out of range, one that ends at mem_size, and one that ends past it. -/
theorem witness_DrawPublishesTheVramSlice :
    ((drawing 4000 0).getReg 17#5 = 0x02#32 ∧ (drawing 4000 0).params.vramLen = 0#32) ∧
    ((drawing 3072 800).getReg 17#5 = 0x02#32 ∧ (drawing 3072 800).params.vramBase.toNat +
      (drawing 3072 800).params.vramLen.toNat ≤ (drawing 3072 800).params.memSize) ∧
    ((drawing 3072 801).getReg 17#5 = 0x02#32 ∧ (drawing 3072 801).params.vramLen ≠ 0#32 ∧
      (drawing 3072 801).params.memSize < (drawing 3072 801).params.vramBase.toNat +
        (drawing 3072 801).params.vramLen.toNat) := by decide

theorem witness_UnknownServicesAnswerMinusOne :
    [3#32, 9#32, 0x10#32, 0xDEAD#32, 0x80000001#32].all (fun n => (calling n 7 0 0).getReg 17 == n) = true ∧
    [3#32, 9#32, 0x10#32, 0xDEAD#32, 0x80000001#32].all (fun n => decide (n ∉ [0x00#32, 0x01#32, 0x02#32, 0x0A#32, 0x0B#32,
      0x0C#32, 0x0D#32, 0x0E#32, 0x0F#32])) = true := by decide

theorem witness_ResetCloseAndSeekCallTheHost :
    (calling 0 0 0 0).getReg 17#5 = 0x00#32 ∧ (calling 0xB 3 0 0).getReg 17#5 = 0x0B#32 ∧
    (calling 0xC 3 0 0).getReg 17#5 = 0x0C#32 := by decide

/-- A state whose memory ends in the bytes 'a', 0 (or 'a', 'b'). -/
def stringAtEnd (n a1 : Word) (last : Byte) : State :=
  (calling n 3870 a1 0).setMem (Memory.write (Memory.write [] 3870 0x61#8) 3871 last)

/-- `OpenAndSocketHandOverTheirString`: a string that ends at the last byte, none that ends, and a length in and out of range. -/
theorem witness_OpenAndSocketHandOverTheirString :
    NulString (stringAtEnd 0xA 0 0#8) ((stringAtEnd 0xA 0 0#8).getReg 10#5).toNat [0x61#8] ∧
    NulString (stringAtEnd 0xF 0 0#8) ((stringAtEnd 0xF 0 0#8).getReg 10#5).toNat [0x61#8] ∧
    NoNul (stringAtEnd 0xA 0 0x62#8) 3870 ∧ NoNul (stringAtEnd 0xF 0 0x62#8) 3870 ∧
    (stringAtEnd 0xA 2 0#8).getReg 17#5 = 0x0A#32 ∧ (stringAtEnd 0xF 0 0#8).getReg 17#5 = 0x0F#32 ∧
    (stringAtEnd 0xA 2 0#8).inBounds 3870 ((stringAtEnd 0xA 2 0#8).getReg 11#5).toNat = true ∧
    (stringAtEnd 0xA 3 0#8).inBounds 3870 ((stringAtEnd 0xA 3 0#8).getReg 11#5).toNat = false := by
  have none : ∀ n, NoNul (stringAtEnd n 0 0x62#8) 3870 := by
    intro n x h1 h2
    have h2 : x < 3872 := h2
    obtain rfl | rfl : x = 3870 ∨ x = 3871 := by omega
    · exact (by decide : (0x61#8 : Byte) ≠ 0#8)
    · exact (by decide : (0x62#8 : Byte) ≠ 0#8)
  refine ⟨⟨?_, by decide, by decide, by decide⟩, ⟨?_, by decide, by decide, by decide⟩, none _, none _, by decide, by decide,
    by decide, by decide⟩
  · unfold BytesAt; decide
  · unfold BytesAt; decide

/-- The premise `HostKeepsDuty` of `ReadStoresTheHostsPayload`: a READ of no bytes, of all, and one that fails keep it; one
longer than asked for does not. -/
theorem witness_read_duty :
    [(0#32, []), (4#32, [1, 2, 3, 4]), (0xFFFFFFFF#32, [])].all (fun p =>
      hostMeetsDuty Params.default [] (.read 4#32 4#32) ((reading p.1 p.2).hostResponse (.read 4#32 4#32))) = true ∧
    hostMeetsDuty Params.default [] (.read 4#32 4#32) ⟨5#32, bytesOf [1, 2, 3, 4, 5]⟩ = false ∧
    (reading 0#32 []).mem.wf = true := by decide

/-- A host call with its answer's status. -/
def answer (req : HostRequest) (status : Word) : HostCall := ⟨req, ⟨status, []⟩⟩

/-- R244's statuses at their bounds: OPEN from descriptor_start up, never a descriptor given out before, by OPEN or by SOCKET,
closed or not, until a RESET; SOCKET never fd 0 (R248), and any negative error. -/
theorem test_host_duties :
    [(3#32, true), (2#32, false), (0xFFFFFFFF#32, true), (0xFFFFFFFE#32, false)].all (fun p =>
      hostMeetsDuty Params.default [] (.openFile [] 0#32) ⟨p.1, []⟩ == p.2) = true ∧
    [(3#32, true), (0#32, false), (0xFFFFFFC0#32, true)].all (fun p =>
      hostMeetsDuty Params.default [] (.socket []) ⟨p.1, []⟩ == p.2) = true ∧
    callsMeetDuty Params.default [] [answer (.openFile [] 0) 3, answer (.socket []) 4, answer (.openFile [] 0) 5] = true ∧
    callsMeetDuty Params.default [] [answer (.openFile [] 0) 3, answer (.socket []) 3] = false ∧
    callsMeetDuty Params.default [] [answer (.openFile [] 0) 3, answer (.close 3) 0, answer (.openFile [] 0) 3] = false ∧
    callsMeetDuty Params.default [] [answer (.openFile [] 0) 3, answer .reset 0, answer (.openFile [] 0) 3] = true ∧
    [(0#32, true), (1#32, false)].all (fun p =>
      hostMeetsDuty Params.default [] .reset ⟨p.1, []⟩ == p.2 && hostMeetsDuty Params.default [] (.close 3) ⟨p.1, []⟩ == p.2) = true ∧
    hostMeetsDuty Params.default [] (.seek 3 0 0) ⟨0x63#32, []⟩ = true := by decide

/-- R244's EAGAIN, pipes only: from a descriptor SOCKET gave, until it is closed; not from one OPEN gave, nor from fd 0; and
from one that a SOCKET whose answer was lost may have given. -/
theorem test_eagain_for_pipes_only :
    [([answer (.socket []) 5], 5, true), ([answer (.openFile [] 0) 5], 5, false), ([answer (.socket []) 5], 0, false),
      ([], 5, false), ([answer (.socket []) 5, answer (.close 5) 0], 5, false),
      ([answer (.socket []) 5, answer .reset 0], 5, false), ([answer (.socket []) 5, answer .reset 0xFFFFFFFF], 5, true),
      ([answer (.openFile [] 0) 3, answer (.socket []) 0xFFFFFFFF], 3, false),
      ([answer (.openFile [] 0) 3, answer (.socket []) 0xFFFFFFFF], 4, true)].all (fun q =>
      hostMeetsDuty Params.default q.1 (.read q.2.1 4) ⟨0xFFFFFFC0, []⟩ == q.2.2) = true := by decide

/-- The state of an ECALL with its settled answer. -/
def asking (n a0 a1 a2 status : Word) : State := answered (calling n a0 a1 a2) status []

/-- `HostAnswersKeepTheirDuties`: for each service a call that is made, with an answer within its duty (an OPEN of the empty
string at address 0, a SOCKET that fails); no call before, so `HostKeptDuties` holds. -/
theorem witness_HostAnswersKeepTheirDuties :
    [(asking 0x00 0 0 0 0, HostRequest.reset), (asking 0x0A 0 0 0 3, .openFile [] 0), (asking 0x0B 3 0 0 0, .close 3),
      (asking 0x0C 3 0 0 0, .seek 3 0 0), (asking 0x0D 3 0 4 0, .read 3 4), (asking 0x0E 3 0 0 0, .write 3 []),
      (asking 0x0F 0 0 0 0xFFFFFFFE, .socket [])].all (fun p =>
        (match exec .ecall p.1 with
          | .next t => t.hostCalls == p.1.hostCalls ++ [⟨p.2, p.1.hostResponse p.2⟩]
          | _ => false) &&
        hostMeetsDuty p.1.params p.1.hostCalls p.2 (p.1.hostResponse p.2) &&
        callsMeetDuty p.1.params [] p.1.hostCalls) = true := by decide

/-- `HostAnswersKeepTheirDuties`: a READ of an empty pipe that SOCKET gave. -/
theorem witness_empty_pipe :
    hostMeetsDuty Params.default [answer (.socket []) 5] (.read 5 4)
      (State.hostResponse { asking 0x0D 5 0x900 4 0xFFFFFFC0 with hostCalls := [answer (.socket []) 5] } (.read 5 4)) = true ∧
    callsMeetDuty Params.default [] [answer (.socket []) 5] = true := by decide

/-- `RequestsBeginWithTheServiceNumber`, `HostAnswersReachTheCoreUnchecked`: an ECALL that makes a host call, with no answer
settled. -/
theorem witness_RequestsBeginWithTheServiceNumber :
    ∃ t c, exec .ecall (calling 0xB 3 0 0) = .next t ∧ t.hostCalls = (calling 0xB 3 0 0).hostCalls ++ [c] ∧
      (calling 0xB 3 0 0).hostReplies = [] := ⟨_, _, rfl, rfl, rfl⟩

/-- `HostAnswersReachTheCoreUnchecked`: an answer outside RESET's duty is settled, and reaches a0 as it is. -/
theorem witness_HostAnswersReachTheCoreUnchecked :
    ((stepped (answered (at40 0x00000073 [(17, 0)]) 7 [])).getReg 10#5,
      (stepped (answered (at40 0x00000073 [(17, 0)]) 7 [])).hostCalls) = (7#32, [answer .reset 7]) := by decide

end Sys2Proof.Tests
end

section
/-! PROOFS. Family 00_scope: every step keeps the invariant of the state. Each update of the state keeps it, under the one
condition that the update needs; what `exec` and `step` can do is then composed of these updates. -/

namespace Sys2Proof.Machine

variable {s t : State}

/-! ### Each update of the state -/

/-- x0's slot is out of a register write's reach (R22), and nothing else of the invariant reads registers. -/
theorem State.Inv.setReg (h : s.Inv) (r : RegIdx) (v : Word) : (s.setReg r v).Inv where
  params_wf := by simpa using h.params_wf
  x0_slot := by simpa using h.x0_slot
  mem_wf := by simpa using h.mem_wf
  mem_within := by simpa using h.mem_within
  frames_length := by simpa using h.frames_length
  halt_pc := by simpa using h.halt_pc

/-- Only a running core may move its pc: a halt has recorded the pc it stopped at (R221). -/
theorem State.Inv.setPc (h : s.Inv) (hr : s.status = .running) (v : Word) : (s.setPc v).Inv :=
  { h with halt_pc := fun _ hh => by simp [hr] at hh }

theorem State.Inv.advance (h : s.Inv) (hr : s.status = .running) : s.advance.Inv := h.setPc hr _

/-- How every instruction with a destination ends (R261, R263). -/
theorem State.Inv.setReg_advance (h : s.Inv) (hr : s.status = .running) (r : RegIdx) (v : Word) :
    (s.setReg r v).advance.Inv :=
  (h.setReg r v).advance (by simpa using hr)

/-- A write that is in bounds lists no byte outside `[0, mem_size)` and keeps the canonical form (R27, R43). -/
theorem State.Inv.setMem_writeBytes (h : s.Inv) {a : Nat} {bs : List Byte} (hb : s.inBounds a bs.length = true) :
    (s.setMem (s.mem.writeBytes a bs)).Inv :=
  have hfit : bs = [] ∨ a + bs.length ≤ s.params.memSize := by simpa using (s.inBounds_iff a bs.length).mp hb
  { h with
    mem_wf := Memory.wf_writeBytes bs s.mem h.mem_wf a
    mem_within := Memory.within_writeBytes s.params.memSize bs s.mem h.mem_within a hfit }

theorem State.Inv.print (h : s.Inv) (bs : List Byte) : (s.print bs).Inv := { h with }

/-- A published frame must be one VRAM slice long (R28, R242). -/
theorem State.Inv.publish (h : s.Inv) {f : List Byte} (hf : f.length = s.params.vramLen.toNat) : (s.publish f).Inv :=
  { h with
    frames_length := fun g hg => by
      rcases List.mem_append.mp hg with hg | hg
      · exact h.frames_length g hg
      · rw [List.mem_singleton.mp hg]; exact hf }

/-- A halt must record the pc (R221). -/
theorem State.Inv.halt (h : s.Inv) {k : Halt} (hk : k.pc = s.pc) : (s.halt k).Inv :=
  { h with
    halt_pc := fun k' hk' => by
      rw [State.halt_status, Status.halted.injEq] at hk'
      rw [← hk']; exact hk }

theorem State.Inv.afterHostCall (h : s.Inv) (req : HostRequest) : (s.afterHostCall req).Inv := { h with }

/-! ### Instructions and steps -/

/-- ECALL keeps the invariant, whatever the host answers (R236 to R245): the bytes READ stores have passed the bound check. -/
theorem State.Inv.execEcall (h : s.Inv) (hr : s.status = .running) (ht : execEcall s = .next t) : t.Inv := by
  rcases execEcall_cases s with ⟨bs, he, -⟩ | ⟨f, hf, he, -⟩ | he | ⟨k, hk, he⟩ | ⟨req, he⟩ | ⟨req, bs, hb, -, he⟩ <;>
    cases he.symm.trans ht
  · exact (h.print bs).setReg_advance hr _ _
  · exact (h.publish hf).setReg_advance hr _ _
  · exact h.setReg_advance hr _ _
  · exact h.halt hk
  · exact (h.afterHostCall req).setReg_advance hr _ _
  · exact ((h.afterHostCall req).setMem_writeBytes hb).setReg_advance hr _ _

/-- Every instruction run on a running core keeps the invariant (R261). -/
theorem State.Inv.exec (h : s.Inv) (hr : s.status = .running) (i : Instr) (ht : exec i s = .next t) : t.Inv := by
  by_cases hi : i = .ecall
  · subst hi; exact h.execEcall hr ht
  · rcases exec_cases i s hi with ⟨rd, v, pc, -, he⟩ | ⟨pc, he⟩ | ⟨-, a, bs, hb, he⟩ | ⟨k, hk, he⟩ <;>
      cases he.symm.trans ht
    · exact (h.setReg rd v).setPc (by simpa using hr) pc
    · exact h.setPc hr pc
    · exact (h.setMem_writeBytes hb).advance hr
    · exact h.halt hk

/-- Settles O15: a halted core's step is the identity, a failed fetch or decode halts at the pc, and a decoded instruction
runs on a running core. -/
theorem stepKeepsInvariant : Obligations.StepKeepsInvariant := by
  intro s t h ht
  rcases step_cases s with ⟨k, -, he⟩ | ⟨-, k, hk, he⟩ | ⟨hr, i, -, he⟩
  · cases he.symm.trans ht; exact h
  · cases he.symm.trans ht; exact h.halt (State.pc_of_fetchInstr_error hk)
  · exact h.exec hr i (he.symm.trans ht)

end Sys2Proof.Machine
end

section
/-! PROOFS. Family 10_state: what a step may change. An instruction acts on memory, logs or the host, writes at most its
destination, and sets the pc; every whole-machine rule is read from that one inversion (`exec_next_cases`), and the rules
about the pc from `exec_pc`. -/

namespace Sys2Proof.Machine

variable {s t u : State} {i : Instr}

/-! ### Reset (R33) -/

/-- Settles O16: every clause is about the fields of one concrete state, which is running and has no frame. -/
theorem resetMeetsInvariant : Obligations.ResetMeetsInvariant where
  params_wf := rfl
  x0_slot := rfl
  mem_wf := rfl
  mem_within := rfl
  frames_length := fun _ hf => nomatch hf
  halt_pc := fun _ hh => nomatch hh

/-- Settles O17, by evaluating the default launch. -/
theorem resetIsTheDefaultLaunch : Obligations.ResetIsTheDefaultLaunch :=
  ⟨by decide, rfl, rfl, rfl, rfl, rfl, rfl, rfl, rfl⟩

/-! ### Where an instruction may leave the pc (R25, R263) -/

theorem pc_of_retireReg {rd : RegIdx} {v : Word} (ht : retireReg rd v s = .next t) : t.pc = s.pc + 4#32 := by
  cases ht; simp

theorem pc_of_branchIf {c : Bool} {imm : Word} (ht : branchIf c imm s = .next t) :
    t.pc = s.pc + imm ∨ t.pc = s.pc + 4#32 := by
  cases ht
  cases c
  · exact .inr rfl
  · exact .inl rfl

theorem pc_of_jumpTo {rd : RegIdx} {target : Word} (ht : jumpTo rd target s = .next t) : t.pc = target := by
  cases ht; rfl

theorem pc_of_loadTo {rd rs1 : RegIdx} {imm : Word} {n : Nat} {f : Word → Word} (ht : loadTo rd rs1 imm n f s = .next t) :
    (∃ h, t = s.halt h) ∨ t.pc = s.pc + 4#32 := by
  rw [loadTo_eq] at ht
  split at ht
  · exact .inr (pc_of_retireReg ht)
  · cases ht; exact .inl ⟨_, rfl⟩

theorem pc_of_storeFrom {rs2 rs1 : RegIdx} {imm : Word} {n : Nat} (ht : storeFrom rs2 rs1 imm n s = .next t) :
    (∃ h, t = s.halt h) ∨ t.pc = s.pc + 4#32 := by
  rw [storeFrom_eq] at ht
  split at ht
  · cases ht; exact .inr rfl
  · cases ht; exact .inl ⟨_, rfl⟩

theorem pc_of_execEcall (ht : execEcall s = .next t) :
    (∃ h, t = s.halt h) ∨ t.pc = s.pc + 4#32 := by
  rcases execEcall_cases s with ⟨bs, he, -⟩ | ⟨f, -, he, -⟩ | he | ⟨k, -, he⟩ | ⟨req, he⟩ | ⟨req, bs, -, -, he⟩ <;>
    rw [he] at ht
  case inr.inr.inr.inl => cases ht; exact .inl ⟨_, rfl⟩
  all_goals cases ht; exact .inr (by simp)

/-- Every instruction halts, or leaves the pc where R25 and R263 allow. -/
theorem exec_pc (ht : exec i s = .next t) : (∃ h, t = s.halt h) ∨ MayGoTo s i t.pc := by
  cases i
  case ecall => exact pc_of_execEcall ht
  case ebreak => cases ht; exact .inl ⟨_, rfl⟩
  case lb | lh | lw | lbu | lhu => exact pc_of_loadTo ht
  case sb | sh | sw => exact pc_of_storeFrom ht
  case beq | bne | blt | bge | bltu | bgeu => exact .inr (pc_of_branchIf ht)
  case jal | jalr => exact .inr (pc_of_jumpTo ht)
  all_goals exact .inr (pc_of_retireReg ht)

/-- Settles O26: a running core that is still running has fetched an instruction and not halted in it. -/
theorem pcAdvancesOrGoesToItsTarget : Obligations.PcAdvancesOrGoesToItsTarget := by
  intro s t hs ht hr
  rcases step_cases s with ⟨k, hk, -⟩ | ⟨-, k, -, he⟩ | ⟨-, i, hi, he⟩
  · simp [hs] at hk
  · cases he.symm.trans ht; simp at hr
  · rcases exec_pc (he.symm.trans ht) with ⟨k, rfl⟩ | hgo
    · simp at hr
    · exact ⟨i, hi, hgo⟩

/-! ### The pc stays even (R69, R196) -/

theorem even_add {a b : Word} (ha : a.toNat % 2 = 0) (hb : b.toNat % 2 = 0) : (a + b).toNat % 2 = 0 := by
  rw [BitVec.toNat_add]; omega

/-- Only branches, JAL and JALR go anywhere but to `pc + 4`: the offsets of the first two are even when they can be encoded
(R65, R67), and JALR clears bit 0 of its target. -/
theorem MayGoTo.even {pc : Word} (h : MayGoTo s i pc) (hi : i.wellFormed = true) (hs : s.pc.toNat % 2 = 0) :
    pc.toNat % 2 = 0 := by
  have next : (s.pc + 4#32).toNat % 2 = 0 := even_add hs rfl
  have branch {imm : Word} (hf : fitsB imm = true) (h : pc = s.pc + imm ∨ pc = s.pc + 4#32) : pc.toNat % 2 = 0 := by
    rcases h with rfl | rfl
    · exact even_add hs (even_of_getLsbD (range_of_fitsB hf).2)
    · exact next
  cases i
  case beq | bne | blt | bge | bltu | bgeu => exact branch hi h
  case jal => cases h; exact even_add hs (even_of_getLsbD (range_of_fitsJ hi).2)
  case jalr => cases h; exact even_of_getLsbD (by simp)
  all_goals cases h; exact next

/-- What a two-way choice answers, one of its branches answers. -/
theorem of_ite_ok {ε α : Type} {P c : Prop} [Decidable c] {x y : Except ε α} {a : α} (h : (if c then x else y) = .ok a)
    (hx : c → x = .ok a → P) (hy : ¬c → y = .ok a → P) : P := by
  split at h
  · exact hx ‹_› h
  · exact hy ‹_› h

/-- Every decoded immediate is in its format's range (R69); the cases are the opcodes in the order `decode` asks for them. -/
theorem wellFormed_of_decode {w : Word} (h : decode w = .ok i) : i.wellFormed = true := by
  unfold decode at h
  refine of_ite_ok h (fun _ h => (decodeArith_ok h).1) fun _ h => ?_
  refine of_ite_ok h (fun ho h => (decodeImm_ok ho h).1) fun _ h => ?_
  refine of_ite_ok h (fun ho h => (decodeLoad_ok ho h).1) fun _ h => ?_
  refine of_ite_ok h (fun ho h => (decodeStore_ok ho h).1) fun _ h => ?_
  refine of_ite_ok h (fun ho h => (decodeBranch_ok ho h).1) fun _ h => ?_
  refine of_ite_ok h (fun _ h => by cases h; exact fitsU_immU w) fun _ h => ?_
  refine of_ite_ok h (fun _ h => by cases h; exact fitsU_immU w) fun _ h => ?_
  refine of_ite_ok h (fun _ h => by cases h; exact fitsJ_immJ w) fun _ h => ?_
  refine of_ite_ok h (fun _ h => ?jalr) fun _ h => of_ite_ok h (fun _ h => ?system) fun _ h => nomatch h
  case jalr => exact of_ite_ok h (fun _ h => by cases h; exact fitsI_immI w) fun _ h => nomatch h
  case system =>
    refine of_ite_ok h (fun _ h => by cases h; rfl) fun _ h => ?_
    exact of_ite_ok h (fun _ h => by cases h; rfl) fun _ h => nomatch h

/-- The instruction fetched is what the word at the pc decodes to (R45, R79). -/
theorem State.decode_of_fetchInstr (h : s.fetchInstr = .ok i) : decode (leWord s.fetchBytes) = .ok i := by
  unfold State.fetchInstr at h
  split at h
  · split at h
    · rename_i hd
      cases h
      simp only [State.fetchBytes, Memory.readBytes, decodeBytes] at hd ⊢
      split at hd <;> cases hd
      assumption
    · cases h
  · cases h

/-- Settles O20: a halt keeps the pc, and an instruction that was decoded has an even offset or clears bit 0. -/
theorem pcStaysEven : Obligations.PcStaysEven := by
  intro s t hs ht
  rcases step_cases s with ⟨k, -, he⟩ | ⟨-, k, -, he⟩ | ⟨-, i, hi, he⟩
  · cases he.symm.trans ht; exact hs
  · cases he.symm.trans ht; exact hs
  · rcases exec_pc (he.symm.trans ht) with ⟨k, rfl⟩ | hgo
    · exact hs
    · exact hgo.even (wellFormed_of_decode (State.decode_of_fetchInstr hi)) hs

/-! ### What an instruction may change -/

/-- What instruction `i` may have done to `s` before it writes its destination and sets the pc: nothing, a store, or the
output or host call of an ECALL (R27, R28, R236). -/
inductive ActsOn (i : Instr) (s : State) : State → Prop
  | nothing : ActsOn i s s
  | store (a : Nat) (bs : List Byte) (hi : isStore i = true) : ActsOn i s (s.setMem (s.mem.writeBytes a bs))
  | print (bs : List Byte) (hi : i = .ecall) (h7 : s.getReg 17#5 = 0x01#32) : ActsOn i s (s.print bs)
  | publish (f : List Byte) (hi : i = .ecall) (h7 : s.getReg 17#5 = 0x02#32) : ActsOn i s (s.publish f)
  | call (req : HostRequest) (hi : i = .ecall) : ActsOn i s (s.afterHostCall req)
  | callRead (req : HostRequest) (a : Nat) (bs : List Byte) (hi : i = .ecall) (h7 : s.getReg 17#5 = 0x0D#32) :
      ActsOn i s ((s.afterHostCall req).setMem (s.mem.writeBytes a bs))

theorem ActsOn.regs (h : ActsOn i s u) : u.regs = s.regs := by cases h <;> rfl

theorem ActsOn.params (h : ActsOn i s u) : u.params = s.params := by cases h <;> rfl

/-- Only a store or READ acts on memory. -/
theorem ActsOn.of_mem_ne (h : ActsOn i s u) (hne : u.mem ≠ s.mem) :
    isStore i = true ∨ (i = .ecall ∧ s.getReg 17#5 = 0x0D#32) := by
  cases h
  case store hi => exact .inl hi
  case callRead hi h7 => exact .inr ⟨hi, h7⟩
  all_goals exact absurd rfl hne

/-- Only PRINT acts on the console, and extends it. -/
theorem ActsOn.console_cases (h : ActsOn i s u) :
    u.console = s.console ∨ (i = .ecall ∧ s.getReg 17#5 = 0x01#32 ∧ ∃ c, u.console = s.console ++ c) := by
  cases h
  case print bs hi h7 => exact .inr ⟨hi, h7, [bs], rfl⟩
  all_goals exact .inl rfl

/-- Only DRAW acts on the frames, and extends them. -/
theorem ActsOn.frames_cases (h : ActsOn i s u) :
    u.frames = s.frames ∨ (i = .ecall ∧ s.getReg 17#5 = 0x02#32 ∧ ∃ f, u.frames = s.frames ++ f) := by
  cases h
  case publish f hi h7 => exact .inr ⟨hi, h7, [f], rfl⟩
  all_goals exact .inl rfl

theorem ActsOn.hostCalls_grow (h : ActsOn i s u) : ∃ q, u.hostCalls = s.hostCalls ++ q := by
  cases h
  case call | callRead => exact ⟨_, rfl⟩
  all_goals exact ⟨[], (List.append_nil _).symm⟩

/-- Everything an instruction can do: halt, or act, then write at most its destination and set the pc (R261). -/
theorem exec_next_cases (ht : exec i s = .next t) :
    (∃ h, t = s.halt h) ∨
    ∃ u pc, ActsOn i s u ∧ (t = u.setPc pc ∨ ∃ rd v, destOf i = some rd ∧ t = (u.setReg rd v).setPc pc) := by
  by_cases hi : i = .ecall
  · subst hi
    have returns {u : State} {v : Word} (hu : ActsOn .ecall s u) (he : execEcall s = .next (u.setReg 10#5 v).advance) :
        ∃ u pc, ActsOn .ecall s u ∧ (t = u.setPc pc ∨ ∃ rd v, destOf .ecall = some rd ∧ t = (u.setReg rd v).setPc pc) := by
      cases he.symm.trans ht
      exact ⟨u, _, hu, .inr ⟨10#5, v, rfl, rfl⟩⟩
    obtain ⟨print7, draw7, -, -, -, -, read7, -, -⟩ := serviceOf_eq s.serviceNumber
    rcases execEcall_cases s with ⟨bs, he, hs⟩ | ⟨f, -, he, hs⟩ | he | ⟨k, -, he⟩ | ⟨req, he⟩ | ⟨req, bs, -, hs, he⟩
    · exact .inr (returns (.print bs rfl (print7 hs)) he)
    · exact .inr (returns (.publish f rfl (draw7 hs)) he)
    · exact .inr (returns .nothing he)
    · cases he.symm.trans ht; exact .inl ⟨k, rfl⟩
    · exact .inr (returns (.call req rfl) he)
    · exact .inr (returns (.callRead req _ bs rfl (read7 hs)) he)
  · rcases exec_cases i s hi with ⟨rd, v, pc, hd, he⟩ | ⟨pc, he⟩ | ⟨hst, a, bs, -, he⟩ | ⟨k, -, he⟩ <;>
      cases he.symm.trans ht
    · exact .inr ⟨s, pc, .nothing, .inr ⟨rd, v, hd, rfl⟩⟩
    · exact .inr ⟨s, pc, .nothing, .inl rfl⟩
    · exact .inr ⟨_, _, .store a bs hst, .inl rfl⟩
    · exact .inl ⟨k, rfl⟩

/-- Beside registers, pc and status an instruction leaves the state as its action did. -/
theorem exec_actsOn (ht : exec i s = .next t) :
    ∃ u, ActsOn i s u ∧ t.mem = u.mem ∧ t.console = u.console ∧ t.frames = u.frames ∧ t.hostCalls = u.hostCalls ∧
      t.params = u.params := by
  rcases exec_next_cases ht with ⟨k, rfl⟩ | ⟨u, pc, hu, rfl | ⟨rd, v, -, rfl⟩⟩
  · exact ⟨s, .nothing, rfl, rfl, rfl, rfl, rfl⟩
  · exact ⟨u, hu, rfl, rfl, rfl, rfl, rfl⟩
  · exact ⟨u, hu, by simp⟩

/-- A part of the state that a halt leaves alone changes only when the step runs the instruction at the pc (R261, R264). -/
theorem exec_of_step_ne {α : Type} (f : State → α) (hf : ∀ h, f (s.halt h) = f s) (ht : step s = .next t)
    (hne : f t ≠ f s) : ∃ i, s.fetchInstr = .ok i ∧ exec i s = .next t := by
  rcases step_cases s with ⟨k, -, he⟩ | ⟨-, k, -, he⟩ | ⟨-, i, hi, he⟩
  · cases he.symm.trans ht; exact absurd rfl hne
  · cases he.symm.trans ht; exact absurd (hf k) hne
  · exact ⟨i, hi, he.symm.trans ht⟩

/-! ### Registers (R22, R23) -/

/-- A register write leaves every other register alone (R23). -/
theorem State.getReg_setReg_of_ne {r q : RegIdx} (h : q ≠ r) (v : Word) : (s.setReg r v).getReg q = s.getReg q := by
  rw [State.getReg_setReg, if_neg h]
  split
  · subst q; rfl
  · rfl

/-- An instruction changes no register but its destination (R23, R237). -/
theorem destOf_of_getReg_ne {r : RegIdx} (ht : exec i s = .next t) (hne : t.getReg r ≠ s.getReg r) :
    destOf i = some r := by
  rcases exec_next_cases ht with ⟨k, rfl⟩ | ⟨u, pc, hu, rfl | ⟨rd, v, hd, rfl⟩⟩
  · exact absurd rfl hne
  · exact absurd (State.getReg_congr hu.regs r) hne
  · by_cases hr : r = rd
    · rw [hr]; exact hd
    · rw [State.getReg_setPc, State.getReg_setReg_of_ne hr] at hne
      exact absurd (State.getReg_congr hu.regs r) hne

/-- An instruction whose destination is x0 leaves the register file as it was (R22). -/
theorem regs_of_destOf_zero (hd : destOf i = some 0#5) (ht : exec i s = .next t) : t.regs = s.regs := by
  rcases exec_next_cases ht with ⟨k, rfl⟩ | ⟨u, pc, hu, rfl | ⟨rd, v, hrd, rfl⟩⟩
  · rfl
  · exact hu.regs
  · cases hd.symm.trans hrd; exact hu.regs

/-- Settles O21: a read of x0 looks at no register, and a write to it is none. -/
theorem zeroRegisterIsHardWired : Obligations.ZeroRegisterIsHardWired :=
  ⟨fun s v => ⟨s.getReg_zero, s.setReg_zero v⟩, fun _ t _ => t.getReg_zero, fun _ _ _ hd ht => regs_of_destOf_zero hd ht⟩

/-- Settles O22: halts change no register, so the instruction at the pc wrote this one. -/
theorem stepWritesOnlyItsDestination : Obligations.StepWritesOnlyItsDestination := by
  intro s t r ht hne
  obtain ⟨i, hi, he⟩ := exec_of_step_ne (·.getReg r) (fun h => s.getReg_halt h r) ht hne
  exact ⟨i, hi, destOf_of_getReg_ne he hne⟩

/-! ### Memory, logs and parameters (R27, R28, R34) -/

/-- Settles O23: halts change no byte, so the instruction at the pc acted on memory. -/
theorem onlyStoresAndReadWriteMemory : Obligations.OnlyStoresAndReadWriteMemory := by
  intro s t x ht hne
  obtain ⟨i, hi, he⟩ := exec_of_step_ne (·.mem.read x) (fun _ => rfl) ht hne
  obtain ⟨u, hu, hmem, -⟩ := exec_actsOn he
  exact ⟨i, hi, hu.of_mem_ne fun hsame => hne (by rw [hmem, hsame])⟩

/-- A step changes the console, if at all, by an ECALL with a7 = 1, which extends it (R28, R241). -/
theorem step_console (ht : step s = .next t) (hne : t.console ≠ s.console) :
    s.fetchInstr = .ok .ecall ∧ s.getReg 17#5 = 0x01#32 ∧ ∃ c, t.console = s.console ++ c := by
  obtain ⟨i, hi, he⟩ := exec_of_step_ne (·.console) (fun _ => rfl) ht hne
  obtain ⟨u, hu, -, hc, -⟩ := exec_actsOn he
  rw [hc] at hne ⊢
  obtain ⟨rfl, h7, hgrow⟩ := hu.console_cases.resolve_left hne
  exact ⟨hi, h7, hgrow⟩

/-- A step changes the frames, if at all, by an ECALL with a7 = 2, which extends them (R28, R242). -/
theorem step_frames (ht : step s = .next t) (hne : t.frames ≠ s.frames) :
    s.fetchInstr = .ok .ecall ∧ s.getReg 17#5 = 0x02#32 ∧ ∃ f, t.frames = s.frames ++ f := by
  obtain ⟨i, hi, he⟩ := exec_of_step_ne (·.frames) (fun _ => rfl) ht hne
  obtain ⟨u, hu, -, -, hf, -⟩ := exec_actsOn he
  rw [hf] at hne ⊢
  obtain ⟨rfl, h7, hgrow⟩ := hu.frames_cases.resolve_left hne
  exact ⟨hi, h7, hgrow⟩

/-- A step changes the record of host calls, if at all, by extending it (R238). -/
theorem step_hostCalls (ht : step s = .next t) (hne : t.hostCalls ≠ s.hostCalls) :
    ∃ q, t.hostCalls = s.hostCalls ++ q := by
  obtain ⟨i, -, he⟩ := exec_of_step_ne (·.hostCalls) (fun _ => rfl) ht hne
  obtain ⟨u, hu, -, -, -, hq, -⟩ := exec_actsOn he
  rw [hq]; exact hu.hostCalls_grow

/-- A list that a change can only extend is extended in any case, by nothing if it did not change. -/
theorem exists_append_of_ne {α : Type} {l m : List α} (h : m ≠ l → ∃ c, m = l ++ c) : ∃ c, m = l ++ c := by
  by_cases he : m = l
  · exact ⟨[], by rw [he, List.append_nil]⟩
  · exact h he

/-- Settles O24: each log either stays or is extended by the one service that writes to it. -/
theorem outputLogsOnlyGrow : Obligations.OutputLogsOnlyGrow := by
  intro s t ht
  refine ⟨exists_append_of_ne fun hne => ?_, exists_append_of_ne fun hne => ?_, exists_append_of_ne (step_hostCalls ht),
    fun hne => ?_, fun hne => ?_⟩
  · obtain ⟨-, -, hgrow⟩ := step_console ht hne; exact hgrow
  · obtain ⟨-, -, hgrow⟩ := step_frames ht hne; exact hgrow
  · obtain ⟨hi, h7, -⟩ := step_console ht hne; exact ⟨hi, h7⟩
  · obtain ⟨hi, h7, -⟩ := step_frames ht hne; exact ⟨hi, h7⟩

/-- Settles O25: if they changed, the instruction at the pc would have changed them, and no action does. -/
theorem parametersNeverChange : Obligations.ParametersNeverChange := by
  intro s t ht
  by_contra hne
  obtain ⟨i, -, he⟩ := exec_of_step_ne (·.params) (fun _ => rfl) ht hne
  obtain ⟨u, hu, -, -, -, -, hp⟩ := exec_actsOn he
  exact hne (hp.trans hu.params)

end Sys2Proof.Machine
end

section
/-! PROOFS. Family 20_memory: accesses and fetch. A read is told from its bytes and a write by the bytes it sets; `n` bytes
read from inside a word written are a slice of its value, and a fetch is a word read that is decoded. -/

namespace Sys2Proof.Machine

variable {s t : State} {i : Instr} {a : Word} {n : Nat}

/-! ### Bounds and values (R41, R42) -/

/-- Bytes that end at or below mem_size are in bounds (R41). -/
theorem State.inBounds_of_le (h : a.toNat + n ≤ s.params.memSize) : s.inBounds a.toNat n = true :=
  (s.inBounds_iff _ n).mpr (.inr h)

/-- At least one byte that ends past mem_size is out of bounds, in the integers (R41, D6). -/
theorem State.inBounds_of_lt (hn : 0 < n) (h : s.params.memSize < a.toNat + n) : s.inBounds a.toNat n = false := by
  rw [Bool.eq_false_iff, Ne, s.inBounds_iff]; omega

/-- An address that is in range of a memory of at most 2^32 bytes does not wrap (D5, D6). -/
theorem toNat_add_ofNat_of_lt {m : Nat} (hm : m ≤ 2 ^ 32) (h : a.toNat + n < m) :
    (a + BitVec.ofNat 32 n).toNat = a.toNat + n := by
  rw [BitVec.toNat_add, BitVec.toNat_ofNat]; omega

/-- A read that succeeds is in bounds and answers the value of its bytes (R42). -/
theorem State.memRead_some {w : Word} (h : s.memRead a n = some w) :
    s.inBounds a.toNat n = true ∧ w = leWord (s.mem.readBytes a.toNat n) := by
  unfold State.memRead at h
  split at h
  · rename_i hb; cases h; exact ⟨hb, rfl⟩
  · cases h

/-- The value of four bytes, unsigned (R42). -/
theorem toNat_leWord_readBytes_4 (m : Memory) (x : Nat) :
    (leWord (m.readBytes x 4)).toNat = (m.read x).toNat + (m.read (x + 1)).toNat * 2 ^ 8 +
      (m.read (x + 2)).toNat * 2 ^ 16 + (m.read (x + 3)).toNat * 2 ^ 24 := by
  simp only [Memory.readBytes, leWord, leNat, BitVec.toNat_ofNat, Nat.add_assoc, Nat.reduceAdd]
  omega

/-- Settles O27: the bound check decides, and the bytes in bounds are summed by their value's rule. -/
theorem memReadFollowsItsRule : Obligations.MemReadFollowsItsRule := by
  intro s a
  refine ⟨fun n hn h => State.memRead_of_outside (State.inBounds_of_lt (by omega) h), fun h => ?_, fun h => ?_, fun h => ?_⟩
  · exact ⟨_, State.memRead_of_inBounds (State.inBounds_of_le h), toNat_leWord_readBytes_1 _ _⟩
  · refine ⟨_, State.memRead_of_inBounds (State.inBounds_of_le h), ?_⟩
    rw [toNat_leWord_readBytes_2]; omega
  · exact ⟨_, State.memRead_of_inBounds (State.inBounds_of_le h), toNat_leWord_readBytes_4 _ _⟩

/-! ### What a write changes (R43, R44) -/

theorem State.sameOutputs_setMem (s : State) (m : Memory) : SameOutputs s (s.setMem m) := by constructor <;> rfl

/-- A byte string written reads back, and nothing but its bytes changed. -/
theorem State.setMem_writeBytes_changes (s : State) (hm : s.mem.wf = true) (x : Nat) (bs : List Byte) :
    BytesAt (s.setMem (s.mem.writeBytes x bs)) x bs ∧
      (∀ y, y < x ∨ x + bs.length ≤ y → (s.setMem (s.mem.writeBytes x bs)).mem.read y = s.mem.read y) ∧
      (s.setMem (s.mem.writeBytes x bs)).regs = s.regs ∧ (s.setMem (s.mem.writeBytes x bs)).pc = s.pc ∧
      SameOutputs s (s.setMem (s.mem.writeBytes x bs)) :=
  ⟨fun k hk => (Memory.read_writeBytes bs s.mem hm x k hk).symm, fun y hy => Memory.read_writeBytes_ne bs s.mem x y hy,
    rfl, rfl, s.sameOutputs_setMem _⟩

theorem State.writeRange_of_inBounds {bs : List Byte} (h : s.inBounds a.toNat bs.length = true) :
    s.writeRange a bs = some (s.setMem (s.mem.writeBytes a.toNat bs)) := by simp [State.writeRange, h]

theorem State.writeRange_of_outside {bs : List Byte} (h : s.inBounds a.toNat bs.length = false) :
    s.writeRange a bs = none := by simp [State.writeRange, h]

/-- Settles O28: in bounds, it is the write of the value's low bytes. -/
theorem memWriteFollowsItsRule : Obligations.MemWriteFollowsItsRule := by
  intro s a v n hm hn
  refine ⟨fun h => State.memWrite_of_outside v (State.inBounds_of_lt (by omega) h), fun h => ?_⟩
  obtain ⟨hbytes, hothers, hframe⟩ := s.setMem_writeBytes_changes hm a.toNat (leBytes n v)
  rw [length_leBytes] at hothers
  refine ⟨_, State.memWrite_of_inBounds v (State.inBounds_of_le h), fun k hk => ?_, hothers, hframe⟩
  rw [← hbytes k (by simpa using hk), getElem_leBytes]

/-- Settles O29: an empty range is in bounds anywhere, and any other is decided by its end. -/
theorem rangesFollowTheirRule : Obligations.RangesFollowTheirRule := by
  intro s a len bytes hm
  refine ⟨fun hl h => State.readRange_of_outside (State.inBounds_of_lt hl h), fun h => ?_,
    fun hl h => State.writeRange_of_outside (State.inBounds_of_lt hl h), fun h => ?_⟩
  · exact ⟨_, State.readRange_of_inBounds ((s.inBounds_iff _ _).mpr h), Memory.length_readBytes _ _ _,
      Memory.getElem_readBytes s.mem a.toNat len⟩
  · exact ⟨_, State.writeRange_of_inBounds ((s.inBounds_iff _ _).mpr h), s.setMem_writeBytes_changes hm _ _⟩

/-! ### Accesses of different widths to the same bytes (R47) -/

/-- Bytes read from inside a byte string just written are a slice of it. -/
theorem Memory.readBytes_writeBytes {m : Memory} (hm : m.wf = true) (bs : List Byte) (x j : Nat)
    (h : j + n ≤ bs.length) : (m.writeBytes x bs).readBytes (x + j) n = (bs.drop j).take n := by
  refine List.ext_getElem (by simp; omega) fun k hk _ => ?_
  have hjk : j + k < bs.length := by rw [Memory.length_readBytes] at hk; omega
  rw [Memory.getElem_readBytes, Nat.add_assoc, Memory.read_writeBytes bs m hm x (j + k) hjk]
  simp

/-- The bytes of a value from byte `j` up are the low bytes of the value shifted down by `j` bytes. -/
theorem take_drop_leBytes (v : Word) {m j : Nat} (h : j + n ≤ m) :
    ((leBytes m v).drop j).take n = leBytes n (v >>> (8 * j)) := by
  refine List.ext_getElem (by simp; omega) fun k _ _ => ?_
  simp only [List.getElem_take, List.getElem_drop, getElem_leBytes]
  apply BitVec.eq_of_getLsbD_eq
  intro b _
  simp [Nat.mul_add, Nat.add_assoc]

/-- The low `n` bytes of a value, first and rest. -/
theorem leBytes_succ (n : Nat) (v : Word) : leBytes (n + 1) v = v.extractLsb' 0 8 :: leBytes n (v >>> 8) := by
  refine List.ext_getElem (by simp) fun k _ _ => ?_
  cases k with
  | zero => simp [leBytes]
  | succ k =>
    rw [List.getElem_cons_succ, getElem_leBytes, getElem_leBytes]
    apply BitVec.eq_of_getLsbD_eq
    intro b _
    simp [Nat.mul_add, Nat.add_comm, Nat.add_left_comm]

/-- The low `n` bytes of a value sum to what is left of it modulo 256^n (R42, R43). -/
theorem leNat_leBytes (n : Nat) (v : Word) : leNat (leBytes n v) = v.toNat % 2 ^ (8 * n) := by
  induction n generalizing v with
  | zero => simp [leBytes, leNat, Nat.mod_one]
  | succ n ih =>
    have hv : (v >>> 8).toNat = v.toNat / 2 ^ 8 := by rw [BitVec.toNat_ushiftRight, Nat.shiftRight_eq_div_pow]
    rw [leBytes_succ, leNat, ih, hv, BitVec.extractLsb'_toNat, Nat.shiftRight_zero, Nat.mul_succ, Nat.add_comm _ 8, Nat.pow_add,
      Nat.mod_mul]

/-- The word of `n` bytes of a value from byte `j` up is that slice of its bits, zero above. -/
theorem leWord_leBytes_ushiftRight (n j : Nat) (v : Word) :
    leWord (leBytes n (v >>> (8 * j))) = (v.extractLsb' (8 * j) (8 * n)).setWidth 32 := by
  apply BitVec.eq_of_toNat_eq
  rw [leWord, leNat_leBytes, BitVec.toNat_ofNat, BitVec.toNat_setWidth, BitVec.extractLsb'_toNat, BitVec.toNat_ushiftRight]

/-- A change of memory leaves the bounds of a read as they were (R34). -/
theorem State.memRead_setMem (m : Memory) (h : a.toNat + n ≤ s.params.memSize) :
    (s.setMem m).memRead a n = some (leWord (m.readBytes a.toNat n)) :=
  State.memRead_of_inBounds (s := s.setMem m) (State.inBounds_of_le (s := s.setMem m) h)

@[simp] theorem State.memRead_advance (s : State) (a : Word) (n : Nat) : s.advance.memRead a n = s.memRead a n := rfl

/-- After a write, a read of some of its bytes, `n` from the one `j` above its address, gives that slice of the value
written, zero above. -/
theorem State.memRead_of_memWrite {v c : Word} {w j : Nat} (hm : s.mem.wf = true) (hb : a.toNat + w ≤ s.params.memSize)
    (hc : c.toNat = a.toNat + j) (hj : j + n ≤ w) (ht : s.memWrite a w v = some t) :
    t.memRead c n = some ((v.extractLsb' (8 * j) (8 * n)).setWidth 32) := by
  rw [State.memWrite_of_inBounds v (State.inBounds_of_le hb)] at ht
  cases ht
  have hin : c.toNat + n ≤ s.params.memSize := by omega
  rw [State.memRead_setMem _ hin, hc, Memory.readBytes_writeBytes hm _ _ j (by rw [length_leBytes]; exact hj),
    take_drop_leBytes v hj, leWord_leBytes_ushiftRight]

/-- A word written reads back. -/
theorem State.memRead_of_memWrite_word {v : Word} (hm : s.mem.wf = true) (hb : a.toNat + 4 ≤ s.params.memSize)
    (ht : s.memWrite a 4 v = some t) : t.memRead a 4 = some v := by
  simpa using State.memRead_of_memWrite hm hb (j := 0) (n := 4) rfl (by decide) ht

/-- The low byte of a value, zero above, is the value under the mask 0xFF. -/
theorem setWidth_extractLsb'_byte0 (b : Word) : (b.extractLsb' 0 8).setWidth 32 = b &&& 0xFF#32 := by
  apply BitVec.eq_of_toNat_eq
  have hmask : b.toNat &&& 255 = b.toNat % 2 ^ 8 := Nat.and_two_pow_sub_one_eq_mod b.toNat 8
  rw [BitVec.toNat_setWidth, BitVec.extractLsb'_toNat, BitVec.toNat_and, Nat.shiftRight_zero]
  exact (Nat.mod_eq_of_lt (by omega)).trans hmask.symm

/-- One byte of a word put in by masking: the word with bits 15:8 replaced by the low byte of `b`. -/
theorem append_byte1_eq (c3 c2 c1 c0 : Byte) (b : Word) :
    c3 ++ c2 ++ b.extractLsb' 0 8 ++ c0 = ((c3 ++ c2 ++ c1 ++ c0 : Word) &&& 0xFFFF00FF#32) ||| ((b &&& 0xFF#32) <<< 8) := by
  apply BitVec.eq_of_getLsbD_eq
  intro k hk
  simp only [BitVec.getLsbD_or, BitVec.getLsbD_and, BitVec.getLsbD_shiftLeft, BitVec.getLsbD_append,
    BitVec.getLsbD_extractLsb']
  interval_cases k <;> simp

/-- The word at an address after a write to its byte 1 has its other three bytes as before. -/
theorem Memory.leWord_readBytes_4_write_byte1 {m : Memory} (hm : m.wf = true) (x : Nat) (c : Byte) :
    leWord ((m.write (x + 1) c).readBytes x 4) = m.read (x + 3) ++ m.read (x + 2) ++ c ++ m.read x := by
  rw [leWord_readBytes_4, Memory.read_write_self m hm, Memory.read_write_ne m (x + 1) c (x + 3) (by omega),
    Memory.read_write_ne m (x + 1) c (x + 2) (by omega), Memory.read_write_ne m (x + 1) c x (by omega)]

/-- A byte written over byte 1 of a word replaces bits 15:8 of the word. -/
theorem State.memRead_of_memWrite_byte1 {b w : Word} (hm : s.mem.wf = true) (hs : s.params.memSize ≤ 2 ^ 32)
    (hb : a.toNat + 4 ≤ s.params.memSize) (ht : s.memWrite (a + 1#32) 1 b = some t) (hw : s.memRead a 4 = some w) :
    t.memRead a 4 = some ((w &&& 0xFFFF00FF#32) ||| ((b &&& 0xFF#32) <<< 8)) := by
  have haddr : (a + 1#32).toNat = a.toNat + 1 := toNat_add_ofNat_of_lt hs (by omega)
  have hone : s.mem.writeBytes (a.toNat + 1) (leBytes 1 b) = s.mem.write (a.toNat + 1) (b.extractLsb' 0 8) := rfl
  rw [State.memRead_of_inBounds (State.inBounds_of_le hb), leWord_readBytes_4] at hw
  rw [State.memWrite_of_inBounds b (State.inBounds_of_le (by omega)), haddr, hone] at ht
  cases ht
  cases hw
  rw [State.memRead_setMem _ hb, Memory.leWord_readBytes_4_write_byte1 hm, append_byte1_eq]

/-- Settles O30: a read is a slice of the value that the write before it left, or the word with one byte replaced. -/
theorem mixedWidthsSeeTheSameBytes : Obligations.MixedWidthsSeeTheSameBytes := by
  intro s a v b hm hs
  refine ⟨fun hb => ⟨fun t ht => ?_, fun t w ht hw => State.memRead_of_memWrite_byte1 hm hs hb ht hw⟩, fun hb => ?_⟩
  · have read {n : Nat} (c : Word) (j : Nat) (hc : c.toNat = a.toNat + j) (hj : j + n ≤ 4) :=
      State.memRead_of_memWrite hm hb hc hj ht
    have h1 : (a + 1#32).toNat = a.toNat + 1 := toNat_add_ofNat_of_lt hs (by omega)
    have h2 : (a + 2#32).toNat = a.toNat + 2 := toNat_add_ofNat_of_lt hs (by omega)
    exact ⟨read a 0 rfl (by decide), read _ 1 h1 (by decide), read a 0 rfl (by decide), read _ 2 h2 (by decide)⟩
  · have ht := State.memWrite_of_inBounds b (State.inBounds_of_le hb)
    refine ⟨_, ht, ?_⟩
    rw [State.memRead_of_memWrite hm hb (j := 0) rfl (by decide) ht, ← setWidth_extractLsb'_byte0]

/-! ### Fetch (R45, R53) -/

/-- A pc that the fetch accepts is a multiple of 4 with four bytes in bounds (R45, D7). -/
theorem State.fetchable_iff (s : State) : s.fetchable = true ↔ s.pc.toNat % 4 = 0 ∧ s.pc.toNat + 4 ≤ s.params.memSize := by
  simp [State.fetchable]

theorem State.fetchInstr_of_not_fetchable (h : ¬s.fetchable = true) : s.fetchInstr = .error (.fetchFault s.pc) := if_neg h

/-- An instruction is fetched only at a pc that the fetch accepts (R223). -/
theorem State.fetchable_of_fetchInstr_ok (hf : s.fetchInstr = .ok i) : s.fetchable = true := by
  by_contra h
  rw [State.fetchInstr_of_not_fetchable h] at hf
  cases hf

/-- At an aligned pc the fetch is MemRead(pc, 4) and answers what that word decodes to (R45, R79). -/
theorem State.fetchInstr_of_memRead {w : Word} (h4 : s.pc.toNat % 4 = 0) (hw : s.memRead s.pc 4 = some w) :
    s.fetchInstr = (decode w).mapError fun _ => .illegalInstruction s.pc w := by
  obtain ⟨hb, rfl⟩ := State.memRead_some hw
  have hle : s.pc.toNat + 4 ≤ s.params.memSize := ((s.inBounds_iff _ _).mp hb).resolve_left (by decide)
  rw [State.fetchInstr, if_pos (s.fetchable_iff.mpr ⟨h4, hle⟩)]
  simp only [State.fetchBytes, Memory.readBytes, decodeBytes]
  cases decode (leWord _) <;> rfl

theorem step_of_fetchInstr_error {k : Halt} (hr : s.status = .running) (hf : s.fetchInstr = .error k) :
    step s = .next (s.halt k) := by simp [step, hr, hf, raise_eq]

theorem step_of_fetchInstr_ok (hr : s.status = .running) (hf : s.fetchInstr = .ok i) : step s = exec i s := by
  simp [step, hr, hf]

/-- Settles O10: the step is settled by the fetch, and the fetch by the pc and the word there. -/
theorem fetchFollowsItsRule : Obligations.FetchFollowsItsRule := by
  intro s hr
  refine ⟨fun hbad => ?_, fun h4 hb => ?_⟩
  · have hf : ¬s.fetchable = true := by rw [s.fetchable_iff]; omega
    exact ⟨_, step_of_fetchInstr_error hr (State.fetchInstr_of_not_fetchable hf), s.haltedWith_halt _⟩
  · have hw := State.memRead_of_inBounds (State.inBounds_of_le hb)
    have hf := State.fetchInstr_of_memRead h4 hw
    refine ⟨_, hw, fun i hd => ?_, fun e hd => ?_⟩ <;> rw [hd] at hf
    · exact step_of_fetchInstr_ok hr hf
    · exact ⟨_, step_of_fetchInstr_error hr hf, s.haltedWith_halt _⟩

/-- The invariant bounds mem_size by the range of R7. -/
theorem State.Inv.memSize_le (h : s.Inv) : s.params.memSize ≤ 2 ^ 32 := by
  have hrange : 4 ≤ s.params.memSize ∧ s.params.memSize ≤ 2 ^ 32 := of_decide_eq_true h.params_wf
  exact hrange.2

/-- Settles O31: the word stored reads back at the new pc, where the fetch reads it. -/
theorem storeIsSeenByTheNextFetch : Obligations.StoreIsSeenByTheNextFetch := by
  intro s t rs2 rs1 imm hinv hr hf haddr hb ht
  have hpc : (s.pc + 4#32).toNat = s.pc.toNat + 4 := toNat_add_ofNat_of_lt hinv.memSize_le (by omega)
  have hin : (s.pc + 4#32).toNat + 4 ≤ s.params.memSize := by omega
  obtain ⟨u, hu, hupc⟩ : ∃ u, s.memWrite (s.pc + 4#32) 4 (s.getReg rs2) = some u ∧ u.pc = s.pc :=
    ⟨_, State.memWrite_of_inBounds _ (State.inBounds_of_le hin), rfl⟩
  have hsw : exec (.sw rs2 rs1 imm) s = storeFrom rs2 rs1 imm 4 s := rfl
  rw [step_of_fetchInstr_ok hr hf, hsw, storeFrom, State.effAddr, haddr, hu] at ht
  cases ht
  have hnext : u.advance.pc = s.pc + 4#32 := by rw [State.advance_pc, hupc]
  have hread : u.advance.memRead u.advance.pc 4 = some (s.getReg rs2) := by
    rw [hnext, State.memRead_advance]
    exact State.memRead_of_memWrite_word hinv.mem_wf hin hu
  obtain ⟨h4, -⟩ := s.fetchable_iff.mp (State.fetchable_of_fetchInstr_ok hf)
  have hfetch := State.fetchInstr_of_memRead (by rw [hnext]; omega) hread
  exact ⟨hnext, fun i hd => by rw [hfetch, hd]; rfl, fun e hd => by rw [hfetch, hd]; rfl⟩

end Sys2Proof.Machine
end

section
/-! PROOFS. Family 30_encoding: decoding. One equation of `decode` for each opcode; with the fields and immediates read back
from an encoded word they give the round trip one way, and the parts of the decoder, each inverted, give it the other way. -/

namespace Sys2Proof

open Machine

variable {w : Word} {i : Instr}

/-! ### The decode function, one equation for each opcode (R70, R79) -/

theorem decode_of_opcode_arith (h : opcodeOf w = 0x33#7) :
    decode w = decodeArith (funct7Of w) (funct3Of w) (rdOf w) (rs1Of w) (rs2Of w) := by simp [decode, h]

theorem decode_of_opcode_imm (h : opcodeOf w = 0x13#7) :
    decode w = decodeImm (funct7Of w) (funct3Of w) (rdOf w) (rs1Of w) (immI w) (shamtOf w) := by simp [decode, h]

theorem decode_of_opcode_load (h : opcodeOf w = 0x03#7) :
    decode w = decodeLoad (funct3Of w) (rdOf w) (rs1Of w) (immI w) := by simp [decode, h]

theorem decode_of_opcode_store (h : opcodeOf w = 0x23#7) :
    decode w = decodeStore (funct3Of w) (rs2Of w) (rs1Of w) (immS w) := by simp [decode, h]

theorem decode_of_opcode_branch (h : opcodeOf w = 0x63#7) :
    decode w = decodeBranch (funct3Of w) (rs1Of w) (rs2Of w) (immB w) := by simp [decode, h]

theorem decode_of_opcode_lui (h : opcodeOf w = 0x37#7) : decode w = .ok (.lui (rdOf w) (immU w)) := by simp [decode, h]

theorem decode_of_opcode_auipc (h : opcodeOf w = 0x17#7) : decode w = .ok (.auipc (rdOf w) (immU w)) := by simp [decode, h]

theorem decode_of_opcode_jal (h : opcodeOf w = 0x6F#7) : decode w = .ok (.jal (rdOf w) (immJ w)) := by simp [decode, h]

theorem decode_of_opcode_jalr (h : opcodeOf w = 0x67#7) :
    decode w = if funct3Of w = 0#3 then .ok (.jalr (rdOf w) (rs1Of w) (immI w)) else .error .badJalr := by simp [decode, h]

/-! ### Decoding an encoded word, format by format (R62) -/

theorem decode_encodeR_arith (f7 : BitVec 7) (rs2 rs1 : RegIdx) (f3 : BitVec 3) (rd : RegIdx) :
    decode (encodeR f7 rs2 rs1 f3 rd 0x33#7) = decodeArith f7 f3 rd rs1 rs2 := by simp [decode_of_opcode_arith]

theorem decode_encodeR_shift (f7 : BitVec 7) (shamt : Shamt) (rs1 : RegIdx) (f3 : BitVec 3) (rd : RegIdx) :
    decode (encodeR f7 shamt rs1 f3 rd 0x13#7) =
      decodeImm f7 f3 rd rs1 (immI (encodeR f7 shamt rs1 f3 rd 0x13#7)) shamt := by simp [decode_of_opcode_imm]

theorem decode_encodeI_imm {imm : Word} (h : fitsI imm = true) (rs1 : RegIdx) (f3 : BitVec 3) (rd : RegIdx) :
    decode (encodeI imm rs1 f3 rd 0x13#7) =
      decodeImm (funct7Of (encodeI imm rs1 f3 rd 0x13#7)) f3 rd rs1 imm (shamtOf (encodeI imm rs1 f3 rd 0x13#7)) := by
  simp [decode_of_opcode_imm, immI_encodeI h]

theorem decode_encodeI_load {imm : Word} (h : fitsI imm = true) (rs1 : RegIdx) (f3 : BitVec 3) (rd : RegIdx) :
    decode (encodeI imm rs1 f3 rd 0x03#7) = decodeLoad f3 rd rs1 imm := by simp [decode_of_opcode_load, immI_encodeI h]

theorem decode_encodeS {imm : Word} (h : fitsI imm = true) (rs2 rs1 : RegIdx) (f3 : BitVec 3) :
    decode (encodeS imm rs2 rs1 f3 0x23#7) = decodeStore f3 rs2 rs1 imm := by simp [decode_of_opcode_store, immS_encodeS h]

theorem decode_encodeB {imm : Word} (h : fitsB imm = true) (rs2 rs1 : RegIdx) (f3 : BitVec 3) :
    decode (encodeB imm rs2 rs1 f3 0x63#7) = decodeBranch f3 rs1 rs2 imm := by simp [decode_of_opcode_branch, immB_encodeB h]

/-- Settles O1: the opcode an encoder writes selects its part of the decoder, which reads the function codes and operands back. -/
theorem decodeOfEncode : Obligations.DecodeOfEncode := by
  intro i h
  cases i with
  | add | sub | sll | slt | sltu | xor | srl | sra | or | and | mul | mulh | mulhsu | mulhu | div | divu | rem | remu =>
    exact decode_encodeR_arith ..
  | addi | slti | sltiu | xori | ori | andi => exact decode_encodeI_imm h ..
  | slli | srli | srai => exact decode_encodeR_shift ..
  | lb | lh | lw | lbu | lhu => exact decode_encodeI_load h ..
  | sb | sh | sw => exact decode_encodeS h ..
  | beq | bne | blt | bge | bltu | bgeu => exact decode_encodeB h ..
  | lui => simp [encode, decode_of_opcode_lui, immU_encodeU h]
  | auipc => simp [encode, decode_of_opcode_auipc, immU_encodeU h]
  | jal => simp [encode, decode_of_opcode_jal, immJ_encodeJ h]
  | jalr => simp [encode, decode_of_opcode_jalr, immI_encodeI h]
  | ecall | ebreak => rfl

/-! ### Inverting the decoder (R79, R83) -/

/-- The opcodes of each class (R70, R80). -/
def InstrClass.opcodes : InstrClass → List (BitVec 7)
  | .r => [0x33#7]
  | .iArith => [0x13#7, 0x67#7]
  | .iLoad => [0x03#7]
  | .s => [0x23#7]
  | .b => [0x63#7]
  | .u => [0x37#7, 0x17#7]
  | .j => [0x6F#7]
  | .system => [0x73#7]

/-- An encoded instruction has an opcode of its class. -/
theorem opcodeOf_encode_mem (i : Instr) : opcodeOf (encode i) ∈ i.cls.opcodes := by
  cases i with
  | ecall | ebreak => decide
  | _ => simp [encode, Instr.cls, InstrClass.opcodes]

/-- A word that decodes is the encoding of its instruction; the cases are the opcodes in the order `decode` asks for them. -/
theorem encode_of_decode (h : decode w = .ok i) : encode i = w := by
  have hR := encodeR_fields w
  have hI := encodeI_fields w
  have hU := encodeU_fields w
  have hJ := encodeJ_fields w
  unfold decode at h
  refine of_ite_ok h (fun ho h => ?arith) fun _ h => ?_
  case arith => rw [(decodeArith_ok h).2.1, ← ho, hR]
  refine of_ite_ok h (fun ho h => (decodeImm_ok ho h).2.1) fun _ h => ?_
  refine of_ite_ok h (fun ho h => (decodeLoad_ok ho h).2.1) fun _ h => ?_
  refine of_ite_ok h (fun ho h => (decodeStore_ok ho h).2.1) fun _ h => ?_
  refine of_ite_ok h (fun ho h => (decodeBranch_ok ho h).2.1) fun _ h => ?_
  refine of_ite_ok h (fun ho h => by cases h; rwa [ho] at hU) fun _ h => ?_
  refine of_ite_ok h (fun ho h => by cases h; rwa [ho] at hU) fun _ h => ?_
  refine of_ite_ok h (fun ho h => by cases h; rwa [ho] at hJ) fun _ h => ?_
  refine of_ite_ok h (fun ho h => ?jalr) fun _ h => of_ite_ok h (fun _ h => ?system) fun _ h => nomatch h
  case jalr => exact of_ite_ok h (fun h3 h => by cases h; rwa [ho, h3] at hI) fun _ h => nomatch h
  case system =>
    refine of_ite_ok h (fun hw h => by cases h; exact hw.symm) fun _ h => ?_
    exact of_ite_ok h (fun hw h => by cases h; exact hw.symm) fun _ h => nomatch h

/-- Settles O2: the immediates of a decoded instruction fit its format, and the word is put together again from its fields. -/
theorem encodeOfDecode : Obligations.EncodeOfDecode :=
  fun _ _ h => ⟨wellFormed_of_decode h, encode_of_decode h⟩

/-! ### Classes and records (R80) -/

/-- A word that decodes has an opcode of its instruction's class. -/
theorem opcodeOf_mem_of_decode (h : decode w = .ok i) : opcodeOf w ∈ i.cls.opcodes :=
  encode_of_decode h ▸ opcodeOf_encode_mem i

/-- No opcode belongs to two classes. -/
theorem InstrClass.eq_of_mem_opcodes (c d : InstrClass) : ∀ op ∈ c.opcodes, op ∈ d.opcodes → c = d := by
  cases c <;> cases d <;> decide

/-- The record of an encoded well-formed instruction gives the instruction back (R62, R80). -/
theorem instr_record_encode (h : i.wellFormed = true) :
    DecodedInstr.instr ⟨i.cls, i.mnemonic, funct3Of (encode i), funct7Of (encode i), rdOf (encode i), rs1Of (encode i),
      rs2Of (encode i), immOfClass (encode i) i.cls⟩ = i := by
  cases i with
  | add | sub | sll | slt | sltu | xor | srl | sra | or | and | mul | mulh | mulhsu | mulhu | div | divu | rem | remu =>
    simp [DecodedInstr.instr, Instr.mnemonic, encode]
  | addi | slti | sltiu | xori | ori | andi | lb | lh | lw | lbu | lhu | jalr =>
    simp [DecodedInstr.instr, Instr.mnemonic, encode, Instr.cls, immOfClass, immI_encodeI h]
  | slli | srli | srai =>
    simp [DecodedInstr.instr, Instr.mnemonic, encode, Instr.cls, immOfClass, shamtOf_eq_immI]
  | sb | sh | sw => simp [DecodedInstr.instr, Instr.mnemonic, encode, Instr.cls, immOfClass, immS_encodeS h]
  | beq | bne | blt | bge | bltu | bgeu =>
    simp [DecodedInstr.instr, Instr.mnemonic, encode, Instr.cls, immOfClass, immB_encodeB h]
  | lui | auipc => simp [DecodedInstr.instr, Instr.mnemonic, encode, Instr.cls, immOfClass, immU_encodeU h]
  | jal => simp [DecodedInstr.instr, Instr.mnemonic, encode, Instr.cls, immOfClass, immJ_encodeJ h]
  | ecall | ebreak => rfl

/-- Settles O7: a word that decodes is its instruction's encoding, so its opcode is one of the class's and its record holds the
operands; the immediate is chosen by class. -/
theorem classFollowsOpcode : Obligations.ClassFollowsOpcode := by
  refine ⟨fun w e h => decodeRecord_error.mpr h, fun w i h => ?_⟩
  have hmem := opcodeOf_mem_of_decode h
  have hcls (c : InstrClass) : i.cls = c ↔ opcodeOf w ∈ c.opcodes :=
    ⟨fun hc => hc ▸ hmem, InstrClass.eq_of_mem_opcodes _ c _ hmem⟩
  have hinstr := instr_record_encode (wellFormed_of_decode h)
  rw [encode_of_decode h] at hinstr
  refine ⟨(hcls .r).trans List.mem_singleton, (hcls .iArith).trans List.mem_pair, (hcls .iLoad).trans List.mem_singleton,
    (hcls .s).trans List.mem_singleton, (hcls .b).trans List.mem_singleton, (hcls .u).trans List.mem_pair,
    (hcls .j).trans List.mem_singleton, (hcls .system).trans List.mem_singleton, _, decodeRecord_of_decode h, rfl, rfl, rfl, rfl,
    rfl, rfl, rfl, congrArg (immOfClass w), ?immI, congrArg (immOfClass w), congrArg (immOfClass w), congrArg (immOfClass w),
    congrArg (immOfClass w), hinstr⟩
  case immI => rintro (hc | hc | hc) <;> exact congrArg (immOfClass w) hc

end Sys2Proof
end

section
/-! PROOFS. Family 30_encoding: the opcode table. A row's mask leaves the fields that the decoder selects by, so a word the row
covers decodes as its pattern does; back, a word that decodes is an encoding, and those have their row's fixed bits. -/

namespace Sys2Proof

variable {w m p : Word} {i : Instr} {r r' : OpcodeRow}

theorem OpcodeRow.covers_iff : r.covers w = true ↔ w &&& r.mask = r.pattern := by simp [OpcodeRow.covers]

/-! ### The table's rows (R2) -/

/-- Every instruction's row stands in the table, and its words have the row's fixed bits. -/
theorem row_statement (i : Instr) : Laws.Row.Statement i := by
  open Laws.Row in
  exact Instr.casesOn i add sub sll slt sltu xor srl sra or and mul mulh mulhsu mulhu div divu rem remu addi slti sltiu xori ori
    andi slli srli srai lb lh lw lbu lhu sb sh sw beq bne blt bge bltu bgeu lui auipc jal jalr ecall ebreak

theorem row_covers_encode (i : Instr) : i.row.covers (encode i) = true := OpcodeRow.covers_iff.mpr (row_statement i).2

/-! ### What a row's fixed bits say of the fields (R61) -/

/-- A field that a mask leaves whole is the masked word's. -/
theorem extractLsb'_of_masked {start len : Nat} (h : w &&& m = p) (hm : m.extractLsb' start len = BitVec.allOnes len) :
    w.extractLsb' start len = p.extractLsb' start len := by
  rw [← h, BitVec.extractLsb'_and, hm, BitVec.and_allOnes]

theorem opcodeOf_of_masked (h : w &&& m = p) (hm : opcodeOf m = 0x7F#7) : opcodeOf w = opcodeOf p := extractLsb'_of_masked h hm

theorem funct3Of_of_masked (h : w &&& m = p) (hm : funct3Of m = 7#3) : funct3Of w = funct3Of p := extractLsb'_of_masked h hm

theorem funct7Of_of_masked (h : w &&& m = p) (hm : funct7Of m = 0x7F#7) : funct7Of w = funct7Of p := extractLsb'_of_masked h hm

/-! ### A covered word decodes as its row's pattern selects, part by part of the decoder -/

theorem decode_of_masked_arith (h : w &&& 0xFE00707F#32 = p) (hp : opcodeOf p = 0x33#7) :
    decode w = decodeArith (funct7Of p) (funct3Of p) (rdOf w) (rs1Of w) (rs2Of w) := by
  rw [decode_of_opcode_arith ((opcodeOf_of_masked h rfl).trans hp), funct7Of_of_masked h rfl, funct3Of_of_masked h rfl]

theorem decode_of_masked_shift (h : w &&& 0xFE00707F#32 = p) (hp : opcodeOf p = 0x13#7) :
    decode w = decodeImm (funct7Of p) (funct3Of p) (rdOf w) (rs1Of w) (immI w) (shamtOf w) := by
  rw [decode_of_opcode_imm ((opcodeOf_of_masked h rfl).trans hp), funct7Of_of_masked h rfl, funct3Of_of_masked h rfl]

theorem decode_of_masked_imm (h : w &&& 0x0000707F#32 = p) (hp : opcodeOf p = 0x13#7) :
    decode w = decodeImm (funct7Of w) (funct3Of p) (rdOf w) (rs1Of w) (immI w) (shamtOf w) := by
  rw [decode_of_opcode_imm ((opcodeOf_of_masked h rfl).trans hp), funct3Of_of_masked h rfl]

theorem decode_of_masked_load (h : w &&& 0x0000707F#32 = p) (hp : opcodeOf p = 0x03#7) :
    decode w = decodeLoad (funct3Of p) (rdOf w) (rs1Of w) (immI w) := by
  rw [decode_of_opcode_load ((opcodeOf_of_masked h rfl).trans hp), funct3Of_of_masked h rfl]

theorem decode_of_masked_store (h : w &&& 0x0000707F#32 = p) (hp : opcodeOf p = 0x23#7) :
    decode w = decodeStore (funct3Of p) (rs2Of w) (rs1Of w) (immS w) := by
  rw [decode_of_opcode_store ((opcodeOf_of_masked h rfl).trans hp), funct3Of_of_masked h rfl]

theorem decode_of_masked_branch (h : w &&& 0x0000707F#32 = p) (hp : opcodeOf p = 0x63#7) :
    decode w = decodeBranch (funct3Of p) (rs1Of w) (rs2Of w) (immB w) := by
  rw [decode_of_opcode_branch ((opcodeOf_of_masked h rfl).trans hp), funct3Of_of_masked h rfl]

theorem decode_of_masked_jalr (h : w &&& 0x0000707F#32 = p) (hp : opcodeOf p = 0x67#7) (h3 : funct3Of p = 0#3) :
    decode w = .ok (.jalr (rdOf w) (rs1Of w) (immI w)) := by
  rw [decode_of_opcode_jalr ((opcodeOf_of_masked h rfl).trans hp), funct3Of_of_masked h rfl, if_pos h3]

theorem decode_of_masked_all (h : w &&& 0xFFFFFFFF#32 = p) : decode w = decode p := by
  rw [← h, show w &&& 0xFFFFFFFF#32 = w from BitVec.and_allOnes]

/-! ### Each block of the table -/

/-- A word decodes to an instruction of a row. -/
def DecodesToRow (w : Word) (r : OpcodeRow) : Prop := ∃ i, decode w = .ok i ∧ i.row = r

theorem decodesToRow_arith (hr : r ∈ opcodeRowsArith ++ opcodeRowsMulDiv) (hc : w &&& r.mask = r.pattern) : DecodesToRow w r := by
  fin_cases hr <;> exact ⟨_, decode_of_masked_arith hc rfl, rfl⟩

theorem decodesToRow_mem (hr : r ∈ opcodeRowsMem) (hc : w &&& r.mask = r.pattern) : DecodesToRow w r := by
  fin_cases hr
  iterate 5 exact ⟨_, decode_of_masked_load hc rfl, rfl⟩
  iterate 3 exact ⟨_, decode_of_masked_store hc rfl, rfl⟩

theorem decodesToRow_imm (hr : r ∈ opcodeRowsImm) (hc : w &&& r.mask = r.pattern) : DecodesToRow w r := by
  fin_cases hr
  iterate 6 exact ⟨_, decode_of_masked_imm hc rfl, rfl⟩
  iterate 3 exact ⟨_, decode_of_masked_shift hc rfl, rfl⟩

theorem decodesToRow_control (hr : r ∈ opcodeRowsControl) (hc : w &&& r.mask = r.pattern) : DecodesToRow w r := by
  fin_cases hr
  iterate 6 exact ⟨_, decode_of_masked_branch hc rfl, rfl⟩
  · exact ⟨_, decode_of_opcode_lui (opcodeOf_of_masked hc rfl), rfl⟩
  · exact ⟨_, decode_of_opcode_auipc (opcodeOf_of_masked hc rfl), rfl⟩
  · exact ⟨_, decode_of_opcode_jal (opcodeOf_of_masked hc rfl), rfl⟩
  · exact ⟨_, decode_of_masked_jalr hc rfl rfl, rfl⟩
  · exact ⟨.ecall, decode_of_masked_all hc, rfl⟩
  · exact ⟨.ebreak, decode_of_masked_all hc, rfl⟩

/-- A row of the table covers a word exactly when the word decodes to an instruction of the row. -/
theorem covers_iff_decodesToRow (hr : r ∈ opcodeRows) : r.covers w = true ↔ DecodesToRow w r := by
  constructor
  · intro h
    have hc := OpcodeRow.covers_iff.mp h
    simp only [opcodeRows, List.mem_append] at hr
    rcases hr with ((hr | hr) | hr) | hr
    · exact decodesToRow_arith (List.mem_append.mpr hr) hc
    · exact decodesToRow_imm hr hc
    · exact decodesToRow_mem hr hc
    · exact decodesToRow_control hr hc
  · rintro ⟨i, hd, rfl⟩
    exact encode_of_decode hd ▸ row_covers_encode i

/-- Settles O3: a covered word decodes as its row selects, and a word that decodes is an encoding, which its row covers. -/
theorem decodeMatchesOpcodeTable : Obligations.DecodeMatchesOpcodeTable :=
  ⟨fun i => (row_statement i).1, fun _ _ hr => covers_iff_decodesToRow hr⟩

/-- Settles O4: two rows that cover a word are the row of the one instruction it decodes to. -/
theorem opcodeRowsNeverOverlap : Obligations.OpcodeRowsNeverOverlap := by
  intro w r hr r' hr' h h'
  obtain ⟨i, hi, rfl⟩ := (covers_iff_decodesToRow hr).mp h
  obtain ⟨j, hj, rfl⟩ := (covers_iff_decodesToRow hr').mp h'
  cases hi.symm.trans hj
  rfl

/-- Settles O5: the model decodes each of the words. -/
theorem wordsOfTheSpecDecode : Obligations.WordsOfTheSpecDecode := by
  unfold Obligations.WordsOfTheSpecDecode
  decide

end Sys2Proof
end

section
/-! PROOFS. Family 30_encoding: immediates. A field read signed counts its top bit negative, and bits put together from fields
are read as the sum of their places. -/

namespace Sys2Proof

open Machine

variable (w : Word)

/-- A field of a word as a number (R8). -/
theorem bitField_eq_toNat (lo n : Nat) : bitField w lo n = (w.extractLsb' lo n).toNat := by
  rw [bitField, BitVec.extractLsb'_toNat, Nat.shiftRight_eq_div_pow]

/-- Two strings of bits put together, read signed: the upper one is read signed (R10). -/
theorem toInt_append_of_pos {n m : Nat} (hn : 0 < n) (x : BitVec n) (y : BitVec m) :
    (x ++ y).toInt = 2 ^ m * x.toInt + y.toNat := by
  rw [BitVec.toInt_append, if_neg (by simpa using hn.ne')]

/-- Bit 31 read signed. -/
theorem toInt_bit31 : (w.extractLsb' 31 1).toInt = -bitField w 31 1 := by
  rw [bitField_eq_toNat]
  generalize w.extractLsb' 31 1 = b
  decide +revert

/-- The upper `n + 1` bits of a word read signed. -/
theorem toInt_extractLsb'_upper {lo n : Nat} (h : 31 = lo + n) :
    (w.extractLsb' lo (1 + n)).toInt = -2 ^ n * bitField w 31 1 + bitField w lo n := by
  rw [← BitVec.extractLsb'_append_extractLsb'_eq_extractLsb' h, toInt_append_of_pos Nat.one_pos, toInt_bit31, ← bitField_eq_toNat]
  ring

theorem toInt_immI : (immI w).toInt = -2048 * bitField w 31 1 + bitField w 20 11 := by
  rw [immI, BitVec.toInt_signExtend_of_le (by decide)]
  exact toInt_extractLsb'_upper w (lo := 20) (n := 11) rfl

theorem toInt_immS :
    (immS w).toInt = -2048 * bitField w 31 1 + 32 * bitField w 25 6 + bitField w 7 5 := by
  have htop := toInt_extractLsb'_upper w (lo := 25) (n := 6) rfl
  rw [immS, BitVec.toInt_signExtend_of_le (by decide)]
  simp (disch := decide) only [toInt_append_of_pos, ← bitField_eq_toNat]
  rw [htop]
  ring

theorem toInt_immB : (immB w).toInt =
    -4096 * bitField w 31 1 + 2048 * bitField w 7 1 + 32 * bitField w 25 6 + 2 * bitField w 8 4 := by
  rw [immB, BitVec.toInt_signExtend_of_le (by decide)]
  simp (disch := decide) only [toInt_append_of_pos, toInt_bit31, ← bitField_eq_toNat, BitVec.toNat_ofNat, Nat.zero_mod]
  ring

theorem toInt_immJ : (immJ w).toInt =
    -1048576 * bitField w 31 1 + 4096 * bitField w 12 8 + 2048 * bitField w 20 1 + 2 * bitField w 21 10 := by
  rw [immJ, BitVec.toInt_signExtend_of_le (by decide)]
  simp (disch := decide) only [toInt_append_of_pos, toInt_bit31, ← bitField_eq_toNat, BitVec.toNat_ofNat, Nat.zero_mod]
  ring

theorem toNat_immU : (immU w).toNat = 4096 * (w.toNat / 2 ^ 12 % 2 ^ 20) := by
  rw [immU, BitVec.toNat_append, BitVec.extractLsb'_toNat, Nat.shiftLeft_eq, Nat.shiftRight_eq_div_pow, mul_comm]
  simp

/-- Settles O6: each immediate read as the sum of its fields. -/
theorem immediatesReadTheirBits : Obligations.ImmediatesReadTheirBits :=
  fun w => ⟨toInt_immI w, toInt_immS w, toInt_immB w, congrArg Nat.cast (toNat_immU w), toInt_immJ w⟩

end Sys2Proof
end

section
/-! PROOFS. Family 30_encoding: words that are no instruction. Each of them is named by the decoder, and at a pc the fetch
accepts its step is the halt. -/

namespace Sys2Proof

variable {w : Word}

theorem decode_of_unlisted_opcode
    (h : opcodeOf w ∉ [0x33#7, 0x13#7, 0x03#7, 0x23#7, 0x63#7, 0x37#7, 0x17#7, 0x6F#7, 0x67#7, 0x73#7]) :
    decode w = .error .unknownOpcode := by
  simp only [List.mem_cons, List.not_mem_nil, or_false, not_or] at h
  simp [decode, h]

theorem decode_of_unlisted_system (ho : opcodeOf w = 0x73#7) (hc : w ≠ 0x00000073#32) (hb : w ≠ 0x00100073#32) :
    decode w = .error .unknownSystem := by simp [decode, ho, hc, hb]

theorem decode_of_unlisted_arith (ho : opcodeOf w = 0x33#7)
    (h : funct7Of w ∉ [0x00#7, 0x01#7, 0x20#7] ∨ (funct7Of w = 0x20#7 ∧ funct3Of w ∉ [0#3, 5#3])) :
    decode w = .error .unknownArith := by
  rw [decode_of_opcode_arith ho]
  rcases h with h7 | ⟨h7, h3⟩
  · simp only [List.mem_cons, List.not_mem_nil, or_false, not_or] at h7
    simp [decodeArith, h7]
  · simp only [List.mem_cons, List.not_mem_nil, or_false, not_or] at h3
    simp [decodeArith, h7, h3]

theorem decode_of_unlisted_load (ho : opcodeOf w = 0x03#7) (h : funct3Of w ∈ [3#3, 6#3, 7#3]) :
    decode w = .error .unknownLoad := by
  rw [decode_of_opcode_load ho]
  generalize funct3Of w = f3 at h
  fin_cases h <;> rfl

theorem decode_of_unlisted_store (ho : opcodeOf w = 0x23#7) (h : funct3Of w ∉ [0#3, 1#3, 2#3]) :
    decode w = .error .unknownStore := by
  simp only [List.mem_cons, List.not_mem_nil, or_false, not_or] at h
  simp [decode_of_opcode_store ho, decodeStore, h]

theorem decode_of_unlisted_branch (ho : opcodeOf w = 0x63#7) (h : funct3Of w ∈ [2#3, 3#3]) :
    decode w = .error .unknownBranch := by
  rw [decode_of_opcode_branch ho]
  generalize funct3Of w = f3 at h
  fin_cases h <;> rfl

theorem decode_of_unlisted_slli (ho : opcodeOf w = 0x13#7) (h3 : funct3Of w = 1#3) (h7 : funct7Of w ≠ 0x00#7) :
    decode w = .error .badShiftImmediate := by
  simp [decode_of_opcode_imm ho, decodeImm, h3, h7]

theorem decode_of_unlisted_shiftRight (ho : opcodeOf w = 0x13#7) (h3 : funct3Of w = 5#3)
    (h7 : funct7Of w ∉ [0x00#7, 0x20#7]) : decode w = .error .badShiftImmediate := by
  simp only [List.mem_cons, List.not_mem_nil, or_false, not_or] at h7
  simp [decode_of_opcode_imm ho, decodeImm, h3, h7]

theorem decode_of_unlisted_jalr (ho : opcodeOf w = 0x67#7) (h3 : funct3Of w ≠ 0#3) : decode w = .error .badJalr := by
  rw [decode_of_opcode_jalr ho, if_neg h3]

namespace Machine

variable {s : State}

/-- At an aligned pc a word that does not decode halts the step with IllegalInstruction (R79, R221). -/
theorem step_of_decode_error {e : DecodeError} (hr : s.status = .running) (h4 : s.pc.toNat % 4 = 0)
    (hw : s.memRead s.pc 4 = some w) (hd : decode w = .error e) :
    ∃ t, step s = .next t ∧ HaltedWith s t (.illegalInstruction s.pc w) := by
  have hf := State.fetchInstr_of_memRead h4 hw
  rw [hd] at hf
  exact ⟨_, step_of_fetchInstr_error hr hf, s.haltedWith_halt _⟩

/-- Settles O8: the decoder rejects such a word as an unknown opcode or an unknown SYSTEM word. -/
theorem unlistedOpcodesHalt : Obligations.UnlistedOpcodesHalt := by
  intro s w hr h4 hw h
  rcases h with ho | ⟨ho, hc, hb⟩
  · exact step_of_decode_error hr h4 hw (decode_of_unlisted_opcode ho)
  · exact step_of_decode_error hr h4 hw (decode_of_unlisted_system ho hc hb)

/-- Settles O9: each case is a rejection of its class's part of the decoder. -/
theorem unlistedFunctionCodesHalt : Obligations.UnlistedFunctionCodesHalt := by
  intro s w hr h4 hw h
  have halts {e : DecodeError} := step_of_decode_error (e := e) hr h4 hw
  rcases h with ⟨ho, h⟩ | ⟨ho, h3, h7⟩ | ⟨ho, h3, h7⟩ | ⟨ho, h3⟩ | ⟨ho, h3⟩ | ⟨ho, h3⟩ | ⟨ho, h3⟩
  · exact halts (decode_of_unlisted_arith ho h)
  · exact halts (decode_of_unlisted_slli ho h3 h7)
  · exact halts (decode_of_unlisted_shiftRight ho h3 h7)
  · exact halts (decode_of_unlisted_load ho h3)
  · exact halts (decode_of_unlisted_store ho h3)
  · exact halts (decode_of_unlisted_branch ho h3)
  · exact halts (decode_of_unlisted_jalr ho h3)

end Machine
end Sys2Proof
end

section
/-! PROOFS. Family 30_encoding: pseudo-instructions. The upper and the lower part of a constant add up to it, and two
instructions that write the same register leave what the second one wrote. -/

namespace Sys2Proof.Machine

variable {s t u : State} {rd : RegIdx} {v v' pc pc' : Word}

/-- The two parts of a 32-bit value add up to it (R87). -/
theorem hiPart_add_loPart (v : Word) : hiPart v + loPart v = v := by
  have hhi : (hiPart v).toNat = 4096 * ((v.toNat + 0x800) % 2 ^ 32 / 4096 % 2 ^ 20) := by
    rw [hiPart, ← immU_eq, toNat_immU, BitVec.toNat_add]
    rfl
  have hlo : (loPart v).toNat = v.toNat % 4096 + if 0x800 ≤ v.toNat % 4096 then 2 ^ 32 - 4096 else 0 := by
    rw [loPart, BitVec.toNat_signExtend, BitVec.msb_eq_decide]
    simpa using (by omega : v.toNat % 4096 < 4294967296)
  apply BitVec.eq_of_toNat_eq
  rw [BitVec.toNat_add, hhi, hlo]
  have := v.isLt
  split_ifs <;> omega

/-- Of two writes to a register the second stays. -/
theorem WroteReg.trans (h : WroteReg s t rd v pc) (h' : WroteReg t u rd v' pc') : WroteReg s u rd v' pc' where
  regs r := by
    rw [h'.regs r, h.regs r]
    split_ifs <;> rfl
  pc := h'.pc
  bytes a := (h'.bytes a).trans (h.bytes a)
  outputs := {
    status := h'.outputs.status.trans h.outputs.status
    console := h'.outputs.console.trans h.outputs.console
    frames := h'.outputs.frames.trans h.outputs.frames
    hostCalls := h'.outputs.hostCalls.trans h.outputs.hostCalls
    hostReplies := h'.outputs.hostReplies.trans h.outputs.hostReplies
    hostDraws := h'.outputs.hostDraws.trans h.outputs.hostDraws
    params := h'.outputs.params.trans h.outputs.params }

/-- The value written matters only when the register is not x0 (R22). -/
theorem WroteReg.of_ne_zero (h : WroteReg s t rd v pc) (hv : rd ≠ 0#5 → v = v') : WroteReg s t rd v' pc := by
  refine { h with regs := fun r => ?_ }
  rw [h.regs r]
  split_ifs with h0 hr
  · rfl
  · exact hv (hr ▸ h0)
  · rfl

/-- The register written reads the value, unless it is x0. -/
theorem WroteReg.getReg (h : WroteReg s t rd v pc) (hrd : rd ≠ 0#5) : t.getReg rd = v := by
  rw [h.regs rd, if_neg hrd, if_pos rfl]

theorem State.wroteReg_setReg_advance (s : State) (rd : RegIdx) (v : Word) :
    WroteReg s (s.setReg rd v).advance rd v (s.pc + 4#32) := by
  rw [State.advance, State.setReg_pc]
  exact s.wroteReg_setReg_setPc ..

theorem exec_lui (s : State) (rd : RegIdx) (imm : Word) : exec (.lui rd imm) s = .next (s.setReg rd imm).advance := rfl

theorem exec_auipc (s : State) (rd : RegIdx) (imm : Word) :
    exec (.auipc rd imm) s = .next (s.setReg rd (s.pcTarget imm)).advance := rfl

/-! ### Expansions of two instructions -/

theorem execAll_pair {i j : Instr} (hi : exec i s = .next t) (hj : exec j t = .next u) : execAll [i, j] s = .next u := by
  simp [execAll, hi, hj]

/-- Writing a register and adding to it with ADDI writes the sum to it. -/
theorem execAll_addi {i : Instr} (hi : exec i s = .next t) (h : WroteReg s t rd v pc) (imm : Word) :
    ∃ u, execAll [i, .addi rd rd imm] s = .next u ∧ WroteReg s u rd (v + imm) (pc + 4#32) := by
  have hadd := t.wroteReg_setReg_advance rd (t.getReg rd + imm)
  rw [h.pc] at hadd
  exact ⟨_, execAll_pair hi rfl, (h.trans hadd).of_ne_zero fun hrd => by rw [h.getReg hrd]⟩

/-- `li` writes its value, in one instruction or in two (R87). -/
theorem execAll_li (s : State) (rd : RegIdx) (v : Word) :
    ∃ t pc, execAll (Pseudo.li rd v).expand s = .next t ∧ WroteReg s t rd v pc := by
  rw [Pseudo.expand]
  split
  · have haddi := s.wroteReg_setReg_advance rd (s.getReg 0 + v)
    exact ⟨_, _, rfl, haddi.of_ne_zero fun _ => BitVec.zero_add v⟩
  · obtain ⟨t, ht, hw⟩ := execAll_addi (exec_lui s rd _) (s.wroteReg_setReg_advance rd (hiPart v)) (loPart v)
    exact ⟨t, _, ht, hiPart_add_loPart v ▸ hw⟩

/-- `la` writes the address `v` bytes from its own (R87). -/
theorem execAll_la (s : State) (rd : RegIdx) (v : Word) :
    ∃ t, execAll (Pseudo.la rd v).expand s = .next t ∧ WroteReg s t rd (s.pc + v) (s.pc + 8#32) := by
  obtain ⟨t, ht, hw⟩ := execAll_addi (exec_auipc s rd _) (s.wroteReg_setReg_advance ..) (loPart v)
  rw [State.pcTarget, BitVec.add_assoc, hiPart_add_loPart, BitVec.add_assoc] at hw
  exact ⟨t, ht, hw⟩

/-- `call` links the address after it and goes `v` bytes from its own (R87). -/
theorem execAll_call (s : State) (v : Word) :
    ∃ t, execAll (Pseudo.call v).expand s = .next t ∧
      WroteReg s t 1#5 (s.pc + 8#32) ((s.pc + v) &&& 0xFFFFFFFE#32) := by
  have hauipc := s.wroteReg_setReg_advance 1#5 (s.pcTarget (hiPart v))
  have hexec := exec_auipc s 1#5 (hiPart v)
  generalize (s.setReg 1#5 (s.pcTarget (hiPart v))).advance = t at hauipc hexec
  have hlink : t.linkValue = s.pc + 8#32 := by rw [State.linkValue, hauipc.pc, BitVec.add_assoc]; rfl
  have htarget : t.regTarget 1#5 (loPart v) = (s.pc + v) &&& 0xFFFFFFFE#32 := by
    rw [State.regTarget, hauipc.getReg (by decide), State.pcTarget, BitVec.add_assoc, hiPart_add_loPart]
  refine ⟨_, execAll_pair hexec rfl, hauipc.trans ?_⟩
  rw [← hlink, ← htarget]
  exact t.wroteReg_setReg_setPc ..

/-- Settles O59: each expansion writes one register, and the upper and lower parts add up to the operand. -/
theorem expandedPseudoInstructionsReachTheirValue : Obligations.ExpandedPseudoInstructionsReachTheirValue := by
  intro s rd v
  obtain ⟨li, _, hli, wli⟩ := execAll_li s rd v
  obtain ⟨la, hla, wla⟩ := execAll_la s rd v
  obtain ⟨call, hcall, wcall⟩ := execAll_call s v
  exact ⟨⟨li, hli, wli.regs, wli.bytes, wli.outputs⟩, ⟨la, hla, wla.regs, wla.pc, wla.bytes, wla.outputs⟩,
    ⟨call, hcall, wcall.regs, wcall.pc, wcall.bytes, wcall.outputs⟩⟩

end Sys2Proof.Machine
end

section
/-! PROOFS. Family 40_register_arith: register-register arithmetic. Every such instruction ends in one writeback, so each
clause is an equation of words: what the model computes is what the statement says in numbers or bit by bit. -/

namespace Sys2Proof.Machine

variable {i : Instr} {s : State} {rd : RegIdx} {v w : Word}

/-! ### Completion and encoding -/

/-- An instruction that ends in a writeback of `v` completes, and changes nothing but its destination and the pc (R261, R263). -/
theorem wroteReg_of_exec_eq_retireReg (he : exec i s = retireReg rd v s) (hv : v = w) :
    ∃ t, exec i s = .next t ∧ WroteReg s t rd w (s.pc + 4#32) :=
  ⟨_, he, hv ▸ s.wroteReg_setReg_advance rd v⟩

/-- The same for a value that the statement gives bit by bit. -/
theorem wroteReg_bits_of_exec_eq_retireReg {f : Nat → Bool} (he : exec i s = retireReg rd v s)
    (hv : ∀ k, v.getLsbD k = f k) :
    ∃ t v, exec i s = .next t ∧ WroteReg s t rd v (s.pc + 4#32) ∧ ∀ k, k < 32 → v.getLsbD k = f k := by
  obtain ⟨t, ht, hw⟩ := wroteReg_of_exec_eq_retireReg he rfl
  exact ⟨t, v, ht, hw, fun k _ => hv k⟩

/-- An instruction's word has the match of its row under the row's mask (spec/opcode_table.json). -/
theorem encoded_row (i : Instr) : Encoded i i.row.mask i.row.pattern := (row_statement i).2

/-! ### Results as numbers -/

/-- A difference of words is the integer difference modulo 2^32 (R102). -/
theorem sub_eq_ofInt (a b : Word) : a - b = BitVec.ofInt 32 ((a.toNat : Int) - b.toNat) := by
  rw [Int.sub_eq_add_neg, BitVec.ofInt_add, BitVec.ofInt_neg, ← BitVec.sub_eq_add_neg]
  simp only [BitVec.ofInt_natCast, BitVec.ofNat_toNat, BitVec.setWidth_eq]

/-- The amount of a register shift is the register modulo 32 (R100). -/
theorem toNat_shiftAmount (v : Word) : (shiftAmount v).toNat = v.toNat % 32 := by
  rw [shiftAmount, BitVec.extractLsb'_toNat, Nat.shiftRight_zero]

theorem shiftLeft_eq_ofNat (a : Word) (n : Shamt) : shiftLeft a n = BitVec.ofNat 32 (a.toNat * 2 ^ n.toNat) := by
  apply BitVec.eq_of_toNat_eq
  rw [shiftLeft, BitVec.toNat_shiftLeft, Nat.shiftLeft_eq, BitVec.toNat_ofNat]

theorem shiftRightLogical_eq_ofNat (a : Word) (n : Shamt) :
    shiftRightLogical a n = BitVec.ofNat 32 (a.toNat / 2 ^ n.toNat) := by
  rw [shiftRightLogical, ← Nat.shiftRight_eq_div_pow, ← BitVec.toNat_ushiftRight, BitVec.ofNat_toNat, BitVec.setWidth_eq]

theorem shiftRightArith_eq_ofInt (a : Word) (n : Shamt) :
    shiftRightArith a n = BitVec.ofInt 32 (a.toInt / 2 ^ n.toNat) := by
  rw [shiftRightArith, BitVec.sshiftRight, Int.shiftRight_eq_div_pow]
  norm_cast

theorem truthWord_signedLess (a b : Word) : truthWord (signedLess a b) = if a.toInt < b.toInt then 1#32 else 0#32 := by
  simp [truthWord, signedLess]

theorem truthWord_unsignedLess (a b : Word) :
    truthWord (unsignedLess a b) = if a.toNat < b.toNat then 1#32 else 0#32 := by
  simp [truthWord, unsignedLess]

/-! ### The family -/

/-- Settles O32: the sum and the difference of words are the integers' modulo 2^32. -/
theorem addAndSubWrap : Obligations.AddAndSubWrap :=
  fun _ rd rs1 rs2 => ⟨encoded_row (.add rd rs1 rs2), encoded_row (.sub rd rs1 rs2),
    wroteReg_of_exec_eq_retireReg rfl (BitVec.add_def ..), wroteReg_of_exec_eq_retireReg rfl (sub_eq_ofInt ..)⟩

/-- Settles O33: the low five bits of x[rs2] are its value modulo 32, and a shift is a product or a floor. -/
theorem registerShiftsUseFiveBits : Obligations.RegisterShiftsUseFiveBits := by
  intro s rd rs1 rs2
  rw [← toNat_shiftAmount]
  exact ⟨encoded_row (.sll rd rs1 rs2), encoded_row (.srl rd rs1 rs2), encoded_row (.sra rd rs1 rs2),
    wroteReg_of_exec_eq_retireReg rfl (shiftLeft_eq_ofNat ..),
    wroteReg_of_exec_eq_retireReg rfl (shiftRightLogical_eq_ofNat ..),
    wroteReg_of_exec_eq_retireReg rfl (shiftRightArith_eq_ofInt ..)⟩

/-- Settles O34: the comparison's truth value is the word 1 or 0. -/
theorem registerComparisonsWriteZeroOrOne : Obligations.RegisterComparisonsWriteZeroOrOne :=
  fun _ rd rs1 rs2 => ⟨encoded_row (.slt rd rs1 rs2), encoded_row (.sltu rd rs1 rs2),
    wroteReg_of_exec_eq_retireReg rfl (truthWord_signedLess ..),
    wroteReg_of_exec_eq_retireReg rfl (truthWord_unsignedLess ..)⟩

/-- Settles O35: each bit of a bitwise operation on words is the operation on the two bits. -/
theorem bitwiseOperationsActBitByBit : Obligations.BitwiseOperationsActBitByBit :=
  fun _ rd rs1 rs2 => ⟨encoded_row (.xor rd rs1 rs2), encoded_row (.or rd rs1 rs2), encoded_row (.and rd rs1 rs2),
    wroteReg_bits_of_exec_eq_retireReg rfl fun _ => BitVec.getLsbD_xor,
    wroteReg_bits_of_exec_eq_retireReg rfl fun _ => BitVec.getLsbD_or,
    wroteReg_bits_of_exec_eq_retireReg rfl fun _ => BitVec.getLsbD_and⟩

end Sys2Proof.Machine
end

section
/-! PROOFS. Family 41_mul_div: multiplication and division. The high word of an exact product is the product's floor over
2^32, cut to a word; outside DIV's and DIVU's zero divisor the model's divisions are the library's on words, whose readings
are the quotients and remainders of integers. -/

namespace Sys2Proof.Machine

variable {i : Instr} {s t : State} {rd : RegIdx} {v a b : Word}

/-! ### Completion -/

/-- An instruction that ends in a writeback of `v` completes with a value of any property that `v` has. -/
theorem wroteReg_value_of_exec_eq_retireReg {P : Word → Prop} (he : exec i s = retireReg rd v s) (hv : P v) :
    ∃ t v, exec i s = .next t ∧ WroteReg s t rd v (s.pc + 4#32) ∧ P v := by
  obtain ⟨t, ht, hw⟩ := wroteReg_of_exec_eq_retireReg he rfl
  exact ⟨t, v, ht, hw, hv⟩

/-- What an instruction that ends in a writeback leaves in its destination, unless that is x0. -/
theorem getReg_of_exec_eq_retireReg (he : exec i s = retireReg rd v s) (hrd : rd ≠ 0#5) (ht : exec i s = .next t) :
    t.getReg rd = v := by
  obtain ⟨u, hu, hw⟩ := wroteReg_of_exec_eq_retireReg he rfl
  cases ht.symm.trans hu
  exact hw.getReg hrd

/-! ### Products (R121 to R124) -/

/-- The low word does not depend on how the factors are read (R121). -/
theorem productLow_toInt_mul_toInt (a b : Word) : productLow (a.toInt * b.toInt) = BitVec.ofNat 32 (a.toNat * b.toNat) := by
  rw [productLow, BitVec.ofInt_mul, BitVec.ofInt_toInt, BitVec.ofInt_toInt, BitVec.mul_def]
  rfl

/-- The high word of a product is its floor over 2^32, modulo 2^32 (R122 to R124). -/
theorem productHigh_eq_ofInt (p : Int) : productHigh p = BitVec.ofInt 32 (p / 2 ^ 32) := by
  apply BitVec.eq_of_toNat_eq
  rw [productHigh, BitVec.extractLsb'_toNat, Nat.shiftRight_eq_div_pow, BitVec.toNat_ofInt, BitVec.toNat_ofInt]
  omega

/-- A signed word times a factor of less than 2^32 in size is a 64-bit two's-complement value (R122, R123). -/
theorem toInt_productHigh (a : Word) {c : Int} (hc : |c| < 2 ^ 32) :
    (productHigh (a.toInt * c)).toInt = a.toInt * c / 2 ^ 32 := by
  have ha : |a.toInt| ≤ 2 ^ 31 := abs_le.mpr ⟨a.le_toInt, a.toInt_lt.le⟩
  have hp : |a.toInt * c| < 2 ^ 31 * 2 ^ 32 := by
    rw [abs_mul]
    exact mul_lt_mul' ha hc (abs_nonneg c) (by decide)
  obtain ⟨hlo, hhi⟩ := abs_lt.mp hp
  rw [productHigh_eq_ofInt, BitVec.toInt_ofInt_eq_self (by decide)] <;> omega

/-- The product of unsigned words is below 2^64 (R124). -/
theorem toNat_productHigh (a b : Word) : (productHigh ((a.toNat : Int) * b.toNat)).toNat = a.toNat * b.toNat / 2 ^ 32 := by
  have hp : a.toNat * b.toNat < 2 ^ 32 * 2 ^ 32 := Nat.mul_lt_mul'' a.isLt b.isLt
  rw [productHigh_eq_ofInt, BitVec.toNat_ofInt]
  norm_cast
  omega

theorem abs_toInt_lt (a : Word) : |a.toInt| < 2 ^ 32 := by
  have hlo := a.le_toInt
  have hhi := a.toInt_lt
  rw [abs_lt]
  omega

theorem abs_toNat_lt (a : Word) : |(a.toNat : Int)| < 2 ^ 32 := by
  rw [Nat.abs_cast]
  exact_mod_cast a.isLt

/-! ### Signed division (R125, R127) -/

theorem divSigned_of_zero (hb : b = 0#32) : divSigned a b = 0xFFFFFFFF#32 := if_pos hb

theorem divSigned_of_overflow (h : a = 0x80000000#32 ∧ b = 0xFFFFFFFF#32) : divSigned a b = 0x80000000#32 := by
  obtain ⟨rfl, rfl⟩ := h
  rfl

/-- Apart from the corner cases DIV's quotient fits a word (R125, R130). -/
theorem toInt_divSigned (hb : b ≠ 0#32) (ho : ¬(a = 0x80000000#32 ∧ b = 0xFFFFFFFF#32)) :
    (divSigned a b).toInt = a.toInt.tdiv b.toInt := by
  have hq : (a.sdiv b).toInt = a.toInt.tdiv b.toInt := BitVec.toInt_sdiv_of_ne_or_ne a b (not_and_or.mp ho)
  rw [divSigned, if_neg hb, if_neg ho, ← hq, BitVec.ofInt_toInt]

/-- REM is the library's remainder of words, the corner cases included. -/
theorem remSigned_eq_srem (a b : Word) : remSigned a b = a.srem b := by
  rw [remSigned]
  split_ifs with hb ho
  · rw [hb, BitVec.srem_zero]
  · obtain ⟨rfl, rfl⟩ := ho
    rfl
  · rw [mul_comm, ← Int.tmod_def, ← BitVec.toInt_srem, BitVec.ofInt_toInt]

theorem toInt_remSigned (a b : Word) : (remSigned a b).toInt = a.toInt.tmod b.toInt := by
  rw [remSigned_eq_srem, BitVec.toInt_srem]

theorem remSigned_of_zero (hb : b = 0#32) : remSigned a b = a := if_pos hb

theorem remSigned_of_overflow (h : a = 0x80000000#32 ∧ b = 0xFFFFFFFF#32) : remSigned a b = 0#32 := by
  obtain ⟨rfl, rfl⟩ := h
  rfl

theorem toInt_remSigned_eq_sub (a b : Word) :
    (remSigned a b).toInt = a.toInt - a.toInt.tdiv b.toInt * b.toInt := by
  rw [toInt_remSigned, Int.tmod_def, mul_comm]

/-- The remainder is smaller than the divisor (R130). -/
theorem natAbs_toInt_remSigned_lt (a : Word) (hb : b ≠ 0#32) : (remSigned a b).toInt.natAbs < b.toInt.natAbs := by
  rw [toInt_remSigned, Int.natAbs_tmod]
  exact Nat.mod_lt _ (Int.natAbs_pos.mpr fun h => hb (BitVec.eq_of_toInt_eq h))

/-- The remainder is zero or has the dividend's sign (R130). -/
theorem toInt_remSigned_eq_zero_or_sign (a b : Word) :
    (remSigned a b).toInt = 0 ∨ (remSigned a b).toInt.sign = a.toInt.sign := by
  rw [toInt_remSigned]
  by_cases hdvd : b.toInt ∣ a.toInt
  · exact .inl (Int.tmod_eq_zero_of_dvd hdvd)
  · exact .inr (by rw [Int.sign_tmod, if_neg hdvd])

/-! ### Unsigned division (R126, R128) -/

theorem divUnsigned_of_zero (hb : b = 0#32) : divUnsigned a b = 0xFFFFFFFF#32 := if_pos hb

theorem divUnsigned_of_ne_zero (hb : b ≠ 0#32) : divUnsigned a b = a / b := by
  rw [divUnsigned, if_neg hb, BitVec.udiv_def]

/-- REMU is the library's remainder of words, the zero divisor included. -/
theorem remUnsigned_eq_umod (a b : Word) : remUnsigned a b = a % b := by
  rw [remUnsigned]
  split_ifs with hb
  · rw [hb, BitVec.umod_zero]
  · rw [BitVec.umod_def]

theorem remUnsigned_of_zero (hb : b = 0#32) : remUnsigned a b = a := if_pos hb

theorem toNat_divUnsigned (a b : Word) :
    (divUnsigned a b).toNat = if b.toNat = 0 then 2 ^ 32 - 1 else a.toNat / b.toNat := by
  split_ifs with hb
  · rw [divUnsigned_of_zero (BitVec.eq_of_toNat_eq hb)]
    rfl
  · rw [divUnsigned_of_ne_zero (fun h => hb (congrArg BitVec.toNat h)), BitVec.toNat_udiv]

theorem toNat_remUnsigned (a b : Word) :
    (remUnsigned a b).toNat = if b.toNat = 0 then a.toNat else a.toNat % b.toNat := by
  rw [remUnsigned_eq_umod, BitVec.toNat_umod]
  split_ifs with hb
  · rw [hb, Nat.mod_zero]
  · rfl

/-! ### The family -/

/-- Settles O36: the exact product of the readings fits 64 bits, and its words are its remainder and floor over 2^32. -/
theorem productsAreCutFromTheExactOne : Obligations.ProductsAreCutFromTheExactOne :=
  fun _ rd rs1 rs2 => ⟨encoded_row (.mul rd rs1 rs2), encoded_row (.mulh rd rs1 rs2), encoded_row (.mulhsu rd rs1 rs2),
    encoded_row (.mulhu rd rs1 rs2),
    wroteReg_of_exec_eq_retireReg rfl (productLow_toInt_mul_toInt ..),
    wroteReg_value_of_exec_eq_retireReg rfl (toInt_productHigh _ (abs_toInt_lt _)),
    wroteReg_value_of_exec_eq_retireReg rfl (toInt_productHigh _ (abs_toNat_lt _)),
    wroteReg_value_of_exec_eq_retireReg rfl (toNat_productHigh ..)⟩

/-- Settles O37: a lemma for each corner case, and the readings of quotient and remainder in the others. -/
theorem divisionsWriteTheirQuotientsAndRemainders : Obligations.DivisionsWriteTheirQuotientsAndRemainders :=
  fun _ rd rs1 rs2 => ⟨encoded_row (.div rd rs1 rs2), encoded_row (.divu rd rs1 rs2), encoded_row (.rem rd rs1 rs2),
    encoded_row (.remu rd rs1 rs2),
    wroteReg_value_of_exec_eq_retireReg rfl ⟨divSigned_of_zero, divSigned_of_overflow, toInt_divSigned⟩,
    wroteReg_value_of_exec_eq_retireReg rfl (toNat_divUnsigned ..),
    wroteReg_value_of_exec_eq_retireReg rfl
      ⟨remSigned_of_zero, remSigned_of_overflow, fun _ _ => toInt_remSigned_eq_sub ..⟩,
    wroteReg_value_of_exec_eq_retireReg rfl (toNat_remUnsigned ..)⟩

/-- Settles O38: what the four leave in rd is the model's arithmetic, and the laws are the integers' and naturals' own. -/
theorem divisionLawsHold : Obligations.DivisionLawsHold := by
  intro s tq tr uq ur rd rs1 rs2 hrd hq hr hqu hru
  rw [getReg_of_exec_eq_retireReg rfl hrd hq, getReg_of_exec_eq_retireReg rfl hrd hr,
    getReg_of_exec_eq_retireReg rfl hrd hqu, getReg_of_exec_eq_retireReg rfl hrd hru]
  refine ⟨fun hb => ⟨divSigned_of_zero hb, remSigned_of_zero hb, divUnsigned_of_zero hb, remUnsigned_of_zero hb⟩,
    fun ho => ⟨divSigned_of_overflow ho, remSigned_of_overflow ho⟩, fun hb ho => ⟨?_, ?_, ?_⟩, fun hb => ?_⟩
  · rw [toInt_divSigned hb ho, toInt_remSigned, Int.tdiv_mul_add_tmod]
  · exact natAbs_toInt_remSigned_lt _ hb
  · exact toInt_remSigned_eq_zero_or_sign ..
  · rw [divUnsigned_of_ne_zero hb, remUnsigned_eq_umod, BitVec.toNat_udiv, BitVec.toNat_umod]
    exact ⟨(Nat.div_add_mod' ..).symm, Nat.mod_lt _ (Nat.pos_of_ne_zero fun h => hb (BitVec.eq_of_toNat_eq h))⟩

end Sys2Proof.Machine
end

section
/-! PROOFS. Family 42_immediate_arith: register-immediate arithmetic. The second operand is the decoded immediate or the
shift amount, so the lemmas on words of the register-register family say what each result is. -/

namespace Sys2Proof.Machine

/-- Settles O39: the sum of words is the integers' modulo 2^32, and a comparison's truth value is the word 1 or 0. -/
theorem immediateAddAndComparisons : Obligations.ImmediateAddAndComparisons :=
  fun _ rd rs1 imm => ⟨encoded_row (.addi rd rs1 imm), encoded_row (.slti rd rs1 imm), encoded_row (.sltiu rd rs1 imm),
    wroteReg_of_exec_eq_retireReg rfl (BitVec.add_def ..),
    wroteReg_of_exec_eq_retireReg rfl (truthWord_signedLess ..),
    wroteReg_of_exec_eq_retireReg rfl (truthWord_unsignedLess ..)⟩

/-- Settles O40: each bit of a bitwise operation on x[rs1] and the immediate is the operation on their two bits. -/
theorem immediateBitwiseOperations : Obligations.ImmediateBitwiseOperations :=
  fun _ rd rs1 imm => ⟨encoded_row (.xori rd rs1 imm), encoded_row (.ori rd rs1 imm), encoded_row (.andi rd rs1 imm),
    wroteReg_bits_of_exec_eq_retireReg rfl fun _ => BitVec.getLsbD_xor,
    wroteReg_bits_of_exec_eq_retireReg rfl fun _ => BitVec.getLsbD_or,
    wroteReg_bits_of_exec_eq_retireReg rfl fun _ => BitVec.getLsbD_and⟩

/-- Settles O41: a shift by the instruction's own amount is a product or a floor, as it is by a register's. -/
theorem immediateShifts : Obligations.ImmediateShifts :=
  fun _ rd rs1 shamt => ⟨encoded_row (.slli rd rs1 shamt), encoded_row (.srli rd rs1 shamt),
    encoded_row (.srai rd rs1 shamt),
    wroteReg_of_exec_eq_retireReg rfl (shiftLeft_eq_ofNat ..),
    wroteReg_of_exec_eq_retireReg rfl (shiftRightLogical_eq_ofNat ..),
    wroteReg_of_exec_eq_retireReg rfl (shiftRightArith_eq_ofInt ..)⟩

end Sys2Proof.Machine
end

section
/-! PROOFS. Family 43_loads: loads. All five are the shared load with a size and an extension of their own, so the bound check
decides between a writeback and a LoadFault once for all; each width then says which bytes its extension keeps. -/

namespace Sys2Proof.Machine

variable {i : Instr} {s : State} {rd rs1 : RegIdx} {imm ea w : Word} {n : Nat} {extend : Word → Word}

/-- A load whose bytes are in bounds completes, and writes the extended value of the bytes at its effective address (R160). -/
theorem wroteReg_of_exec_eq_loadTo (he : exec i s = loadTo rd rs1 imm n extend s) (hea : ea = s.effAddr rs1 imm)
    (hv : extend (leWord (s.mem.readBytes ea.toNat n)) = w) (hb : ea.toNat + n ≤ s.params.memSize) :
    ∃ t, exec i s = .next t ∧ WroteReg s t rd w (s.pc + 4#32) := by
  subst hea
  rw [loadTo_eq, if_pos (State.inBounds_of_le hb)] at he
  exact wroteReg_of_exec_eq_retireReg he hv

/-- A load with a byte past mem_size halts with LoadFault at its effective address, whatever its destination is (R160). -/
theorem haltedWith_of_exec_eq_loadTo (he : exec i s = loadTo rd rs1 imm n extend s) (hea : ea = s.effAddr rs1 imm)
    (hn : 0 < n) (hb : s.params.memSize < ea.toNat + n) :
    ∃ t, exec i s = .next t ∧ HaltedWith s t (.loadFault s.pc ea) := by
  subst hea
  rw [loadTo_eq, State.inBounds_of_lt hn hb] at he
  exact ⟨_, he, s.haltedWith_halt _⟩

/-- Settles O42: each load is the shared one, and extending the low byte or halfword of the value read extends the bytes. -/
theorem loadsExtendTheirBytes : Obligations.LoadsExtendTheirBytes :=
  fun _ rd rs1 imm _ hea => ⟨encoded_row (.lb rd rs1 imm), encoded_row (.lh rd rs1 imm), encoded_row (.lw rd rs1 imm),
    encoded_row (.lbu rd rs1 imm), encoded_row (.lhu rd rs1 imm),
    wroteReg_of_exec_eq_loadTo rfl hea (congrArg (BitVec.signExtend 32) (setWidth_leWord_readBytes_1 ..)),
    haltedWith_of_exec_eq_loadTo rfl hea (Nat.succ_pos _),
    wroteReg_of_exec_eq_loadTo rfl hea (congrArg (BitVec.signExtend 32) (setWidth_leWord_readBytes_2 ..)),
    haltedWith_of_exec_eq_loadTo rfl hea (Nat.succ_pos _),
    wroteReg_of_exec_eq_loadTo rfl hea (leWord_readBytes_4 ..),
    haltedWith_of_exec_eq_loadTo rfl hea (Nat.succ_pos _),
    wroteReg_of_exec_eq_loadTo rfl hea (congrArg (BitVec.setWidth 32) (setWidth_leWord_readBytes_1 ..)),
    haltedWith_of_exec_eq_loadTo rfl hea (Nat.succ_pos _),
    wroteReg_of_exec_eq_loadTo rfl hea (congrArg (BitVec.setWidth 32) (setWidth_leWord_readBytes_2 ..)),
    haltedWith_of_exec_eq_loadTo rfl hea (Nat.succ_pos _)⟩

end Sys2Proof.Machine
end

section
/-! PROOFS. Family 44_stores: stores. All three are the shared store with a size of their own, so the bound check decides
between a write of the low bytes and a StoreFault once for all. -/

namespace Sys2Proof.Machine

variable {i : Instr} {s : State} {rs2 rs1 : RegIdx} {imm ea : Word} {n : Nat}

/-- Writing the low bytes of a value and going on to the next instruction changes those bytes and no others (R43, R170). -/
theorem State.stored_setMem_writeBytes_advance (s : State) (hm : s.mem.wf = true) (x n : Nat) (v : Word) :
    Stored s (s.setMem (s.mem.writeBytes x (leBytes n v))).advance x n v := by
  obtain ⟨hbytes, hothers, -, -, hout⟩ := s.setMem_writeBytes_changes hm x (leBytes n v)
  rw [length_leBytes] at hothers
  refine ⟨fun k hk => ?_, hothers, fun _ => rfl, rfl, { hout with }⟩
  rw [State.advance_mem, ← hbytes k (by simpa using hk), getElem_leBytes]

/-- A store whose bytes are in bounds completes, and writes the low bytes of x[rs2] at its effective address (R170). -/
theorem stored_of_exec_eq_storeFrom (he : exec i s = storeFrom rs2 rs1 imm n s) (hm : s.mem.wf = true)
    (hea : ea = s.effAddr rs1 imm) (hb : ea.toNat + n ≤ s.params.memSize) :
    ∃ t, exec i s = .next t ∧ Stored s t ea.toNat n (s.getReg rs2) := by
  subst hea
  rw [storeFrom_eq, if_pos (State.inBounds_of_le hb)] at he
  exact ⟨_, he, s.stored_setMem_writeBytes_advance hm ..⟩

/-- A store with a byte past mem_size halts with StoreFault at its effective address, with no byte written (R170). -/
theorem haltedWith_of_exec_eq_storeFrom (he : exec i s = storeFrom rs2 rs1 imm n s) (hea : ea = s.effAddr rs1 imm)
    (hn : 0 < n) (hb : s.params.memSize < ea.toNat + n) :
    ∃ t, exec i s = .next t ∧ HaltedWith s t (.storeFault s.pc ea) := by
  subst hea
  rw [storeFrom_eq, State.inBounds_of_lt hn hb] at he
  exact ⟨_, he, s.haltedWith_halt _⟩

/-- Settles O43: each store is the shared one, with the size that its mnemonic names. -/
theorem storesWriteTheirBytesAndNoOthers : Obligations.StoresWriteTheirBytesAndNoOthers :=
  fun _ rs2 rs1 imm _ hm hea => ⟨encoded_row (.sb rs2 rs1 imm), encoded_row (.sh rs2 rs1 imm),
    encoded_row (.sw rs2 rs1 imm),
    stored_of_exec_eq_storeFrom rfl hm hea,
    haltedWith_of_exec_eq_storeFrom rfl hea (Nat.succ_pos _),
    stored_of_exec_eq_storeFrom rfl hm hea,
    haltedWith_of_exec_eq_storeFrom rfl hea (Nat.succ_pos _),
    stored_of_exec_eq_storeFrom rfl hm hea,
    haltedWith_of_exec_eq_storeFrom rfl hea (Nat.succ_pos _)⟩

end Sys2Proof.Machine
end

section
/-! PROOFS. Family 45_branches: conditional branches. All six are the shared branch with a condition of their own, so where a
branch goes is said once for every condition; each comparison then says when the branch is taken. -/

namespace Sys2Proof.Machine

variable {i : Instr} {s : State} {imm : Word} {taken : Bool} {P : Prop} [Decidable P]

/-- A branch completes, and changes nothing but the pc: to its target if its condition holds, else to the next instruction
(R180). -/
theorem wentTo_of_exec_eq_branchIf (he : exec i s = branchIf taken imm s) (hc : taken = true ↔ P) :
    ∃ t, exec i s = .next t ∧ WentTo s t (if P then s.pc + imm else s.pc + 4#32) := by
  cases taken with
  | true =>
    rw [if_pos (hc.mp rfl)]
    exact ⟨_, he, s.wentTo_setPc _⟩
  | false =>
    rw [if_neg fun h => Bool.false_ne_true (hc.mpr h)]
    exact ⟨_, he, s.wentTo_setPc _⟩

/-! ### When the ordered branches are taken -/

theorem signedLess_iff {a b : Word} : signedLess a b = true ↔ a.toInt < b.toInt := decide_eq_true_iff

theorem unsignedLess_iff {a b : Word} : unsignedLess a b = true ↔ a.toNat < b.toNat := decide_eq_true_iff

theorem not_signedLess_iff {a b : Word} : (!signedLess a b) = true ↔ b.toInt ≤ a.toInt := by
  rw [Bool.not_eq_true', ← Bool.not_eq_true, signedLess_iff, not_lt]

theorem not_unsignedLess_iff {a b : Word} : (!unsignedLess a b) = true ↔ b.toNat ≤ a.toNat := by
  rw [Bool.not_eq_true', ← Bool.not_eq_true, unsignedLess_iff, not_lt]

/-! ### The family -/

/-- Settles O44: each is the shared branch, taken when the two words are equal, or differ. -/
theorem equalityBranchesGoWhereTheySay : Obligations.EqualityBranchesGoWhereTheySay :=
  fun _ rs1 rs2 imm => ⟨encoded_row (.beq rs1 rs2 imm), encoded_row (.bne rs1 rs2 imm),
    wentTo_of_exec_eq_branchIf rfl beq_iff_eq,
    wentTo_of_exec_eq_branchIf rfl bne_iff_ne⟩

/-- Settles O45: each is the shared branch, and greater or equal is the negation of less in the same reading. -/
theorem orderedBranchesGoWhereTheySay : Obligations.OrderedBranchesGoWhereTheySay :=
  fun _ rs1 rs2 imm => ⟨encoded_row (.blt rs1 rs2 imm), encoded_row (.bge rs1 rs2 imm),
    encoded_row (.bltu rs1 rs2 imm), encoded_row (.bgeu rs1 rs2 imm),
    wentTo_of_exec_eq_branchIf rfl signedLess_iff,
    wentTo_of_exec_eq_branchIf rfl not_signedLess_iff,
    wentTo_of_exec_eq_branchIf rfl unsignedLess_iff,
    wentTo_of_exec_eq_branchIf rfl not_unsignedLess_iff⟩

end Sys2Proof.Machine
end

section
/-! PROOFS. Family 46_upper_immediate: LUI and AUIPC. Their rows fix the opcode alone, so a word the row covers always decodes;
both instructions end in a writeback. -/

namespace Sys2Proof.Machine

variable {w : Word}

/-- The words of a decoded instruction have its row's fixed bits. -/
theorem masked_of_decode {i : Instr} (h : decode w = .ok i) : w &&& i.row.mask = i.row.pattern :=
  encode_of_decode h ▸ encoded_row i

theorem masked_lui_iff_decode :
    w &&& 0x0000007F#32 = 0x00000037#32 ↔ decode w = .ok (.lui (rdOf w) (w &&& 0xFFFFF000#32)) :=
  ⟨fun h => immU_eq w ▸ decode_of_opcode_lui (opcodeOf_of_masked h rfl), masked_of_decode⟩

theorem masked_auipc_iff_decode :
    w &&& 0x0000007F#32 = 0x00000017#32 ↔ decode w = .ok (.auipc (rdOf w) (w &&& 0xFFFFF000#32)) :=
  ⟨fun h => immU_eq w ▸ decode_of_opcode_auipc (opcodeOf_of_masked h rfl), masked_of_decode⟩

/-- Settles O46: LUI writes the immediate itself, and AUIPC's target is the integers' sum modulo 2^32. -/
theorem upperImmediatesWriteTheirValue : Obligations.UpperImmediatesWriteTheirValue :=
  ⟨fun _ => ⟨masked_lui_iff_decode, masked_auipc_iff_decode⟩, fun _ _ _ =>
    ⟨wroteReg_of_exec_eq_retireReg rfl rfl, wroteReg_of_exec_eq_retireReg rfl (BitVec.add_def ..)⟩⟩

end Sys2Proof.Machine
end

section
/-! PROOFS. Family 47_jumps: JAL and JALR. Both are the shared jump with a target of their own; no transfer reads its target, so
a bad one is found by the fetch rule of the next step. -/

namespace Sys2Proof.Machine

variable {i : Instr} {s t : State} {rd : RegIdx} {imm target pc : Word} {taken : Bool}

/-- A jump completes, links the address after it, and goes to its target, which it does not check (R195, R196). -/
theorem wroteReg_of_exec_eq_jumpTo (he : exec i s = jumpTo rd target s) (hpc : target = pc) :
    ∃ t, exec i s = .next t ∧ WroteReg s t rd (BitVec.ofNat 32 (s.pc.toNat + 4)) pc := by
  have hlink : s.linkValue = BitVec.ofNat 32 (s.pc.toNat + 4) := BitVec.add_def ..
  subst hpc
  exact ⟨_, he, hlink ▸ s.wroteReg_setReg_setPc ..⟩

/-- Clearing bit 0 rounds down to an even number (R196). -/
theorem and_not_one_eq_ofNat (v : Word) : v &&& 0xFFFFFFFE#32 = BitVec.ofNat 32 (v.toNat / 2 * 2) := by
  have hshift : v >>> 1 <<< 1 = v &&& 0xFFFFFFFE#32 := BitVec.shiftLeft_ushiftRight
  apply BitVec.eq_of_toNat_eq
  rw [← hshift, BitVec.toNat_shiftLeft, BitVec.toNat_ushiftRight, Nat.shiftLeft_eq, Nat.shiftRight_eq_div_pow,
    BitVec.toNat_ofNat]

/-- Settles O47: each is the shared jump, whose link and target are computed from the state before it. -/
theorem jumpsLinkAndGo : Obligations.JumpsLinkAndGo :=
  fun _ rd rs1 imm => ⟨encoded_row (.jal rd imm), encoded_row (.jalr rd rs1 imm),
    wroteReg_of_exec_eq_jumpTo rfl rfl, wroteReg_of_exec_eq_jumpTo rfl (and_not_one_eq_ofNat _)⟩

/-! ### Targets that no fetch accepts (R197) -/

theorem status_of_branchIf (ht : branchIf taken imm s = .next t) : t.status = s.status := by
  cases ht
  cases taken <;> rfl

theorem status_of_jumpTo (ht : jumpTo rd target s = .next t) : t.status = s.status := by
  cases ht
  simp

/-- No control transfer halts, wherever it goes (R180, R197). -/
theorem status_of_isTransfer (hi : isTransfer i = true) (ht : exec i s = .next t) : t.status = s.status := by
  cases i
  case beq | bne | blt | bge | bltu | bgeu => exact status_of_branchIf ht
  case jal | jalr => exact status_of_jumpTo ht
  all_goals cases hi

/-- Settles O48: the transfer leaves a running core with the same mem_size, whose next fetch rejects the pc. -/
theorem badTargetFaultsAtTheNextFetch : Obligations.BadTargetFaultsAtTheNextFetch := by
  intro s t i hr hi ht hbad
  have hrun : t.status = .running := (status_of_isTransfer hi ht).trans hr
  obtain ⟨u, hu, -, -, -, -, hparams⟩ := exec_actsOn ht
  rw [← hu.params, ← hparams] at hbad
  obtain ⟨hfault, -⟩ := fetchFollowsItsRule t hrun
  exact ⟨hrun, hfault hbad⟩

end Sys2Proof.Machine
end

section
/-! PROOFS. Family 48_system: EBREAK. Its word is the whole word, and its step is the one halt that ends a run normally. -/

namespace Sys2Proof.Machine

/-- A word decodes to EBREAK when it is EBREAK's encoding (R81, R201). -/
theorem decode_ebreak_iff (w : Word) : decode w = .ok .ebreak ↔ w = 0x00100073#32 :=
  ⟨fun h => (encode_of_decode h).symm, fun h => h ▸ decodeOfEncode .ebreak rfl⟩

/-- A step request to a halted core changes nothing (R264, log 5). -/
theorem step_of_halted {s : State} {h : Halt} (hs : s.status = .halted h) : step s = .next s := by
  simp [step, hs]

/-- Settles O49: EBREAK's execution is the halt with Break at its own address, and a halted core stays as it is. -/
theorem ebreakHaltsWithBreak : Obligations.EbreakHaltsWithBreak :=
  ⟨decode_ebreak_iff, fun s => ⟨s.halt (.breakpoint s.pc), rfl, s.haltedWith_halt _, rfl, step_of_halted rfl⟩⟩

end Sys2Proof.Machine
end

section
/-! PROOFS. Family 60_exceptions: halts. An instruction halts at its own address or leaves the status alone, so a running core
that is halted after a step has changed nothing else. -/

namespace Sys2Proof.Machine

variable {i : Instr} {s t : State}

/-- An ECALL takes a halt at its own address, or leaves the status as it was (R222, R239). -/
theorem execEcall_halt_or_status (ht : execEcall s = .next t) : (∃ h, h.pc = s.pc ∧ t = s.halt h) ∨ t.status = s.status := by
  rcases execEcall_cases s with ⟨bs, he, -⟩ | ⟨f, -, he, -⟩ | he | ⟨h, hpc, he⟩ | ⟨req, he⟩ | ⟨req, bs, -, -, he⟩ <;>
    rw [he] at ht
  case inr.inr.inr.inl => cases ht; exact .inl ⟨h, hpc, rfl⟩
  all_goals cases ht; exact .inr (by simp)

/-- Every instruction takes a halt at its own address, or leaves the status as it was (R221, R222). -/
theorem exec_halt_or_status (ht : exec i s = .next t) : (∃ h, h.pc = s.pc ∧ t = s.halt h) ∨ t.status = s.status := by
  by_cases hi : i = .ecall
  · subst hi
    exact execEcall_halt_or_status ht
  · rcases exec_cases i s hi with ⟨rd, v, pc, -, he⟩ | ⟨pc, he⟩ | ⟨-, a, bs, -, he⟩ | ⟨h, hpc, he⟩ <;>
      cases he.symm.trans ht
    · exact .inr (by simp)
    · exact .inr rfl
    · exact .inr rfl
    · exact .inl ⟨h, hpc, rfl⟩

/-- A step of a running core that halts it takes the halt at its pc (R221, R222). -/
theorem step_eq_halt {h : Halt} (hr : s.status = .running) (ht : step s = .next t) (hh : t.status = .halted h) :
    h.pc = s.pc ∧ t = s.halt h := by
  have halts : (∃ k, k.pc = s.pc ∧ t = s.halt k) ∨ t.status = s.status := by
    rcases step_cases s with ⟨k, hk, -⟩ | ⟨-, k, hk, he⟩ | ⟨-, i, -, he⟩
    · cases hr.symm.trans hk
    · cases he.symm.trans ht
      exact .inl ⟨k, State.pc_of_fetchInstr_error hk, rfl⟩
    · exact exec_halt_or_status (he.symm.trans ht)
  rcases halts with ⟨k, hpc, rfl⟩ | hsame
  · cases hh
    exact ⟨hpc, rfl⟩
  · cases hh.symm.trans (hsame.trans hr)

/-- Settles O14: the state after the step is the one before it with the halt taken. -/
theorem haltsArePrecise : Obligations.HaltsArePrecise := by
  intro s t h hr ht hh
  obtain ⟨hpc, rfl⟩ := step_eq_halt hr ht hh
  exact ⟨s.haltedWith_halt h, hpc⟩

end Sys2Proof.Machine
end

section
/-! PROOFS. Family 60_exceptions: the ECALL services. The number in a7 selects one service, and a range or a string decides
whether it completes or halts; what completion and a halt change is said once for all services. -/

namespace Sys2Proof.Machine

variable {i : Instr} {s t : State} {req : HostRequest} {h : Halt} {a len : Word}

/-! ### Ranges given by two registers (R239) -/

theorem State.inBounds_word_iff (s : State) (a len : Word) :
    s.inBounds a.toNat len.toNat = true ↔ len = 0#32 ∨ a.toNat + len.toNat ≤ s.params.memSize := by
  rw [s.inBounds_iff, BitVec.toNat_eq, BitVec.toNat_ofNat, Nat.zero_mod]

theorem State.inBounds_word_of_lt (hne : len ≠ 0#32) (hlt : s.params.memSize < a.toNat + len.toNat) :
    s.inBounds a.toNat len.toNat = false := by
  rw [Bool.eq_false_iff, Ne, s.inBounds_word_iff, not_or, not_le]
  exact ⟨hne, hlt⟩

/-- A range that is empty or ends at or below mem_size is read (R44). -/
theorem State.readRange_of_fits (hb : len = 0#32 ∨ a.toNat + len.toNat ≤ s.params.memSize) :
    s.readRange a len.toNat = some (s.mem.readBytes a.toNat len.toNat) :=
  State.readRange_of_inBounds ((s.inBounds_word_iff a len).mpr hb)

/-- A range with a byte past mem_size is not (R44). -/
theorem State.readRange_of_past (hne : len ≠ 0#32) (hlt : s.params.memSize < a.toNat + len.toNat) :
    s.readRange a len.toNat = none :=
  State.readRange_of_outside (State.inBounds_word_of_lt hne hlt)

/-- The bytes read from memory are the bytes there (R44). -/
theorem State.bytesAt_readBytes (s : State) (x n : Nat) : BytesAt s x (s.mem.readBytes x n) :=
  fun k hk => Memory.getElem_readBytes s.mem x n k hk

/-! ### How a service ends -/

/-- A service that raises a halt changes nothing but the status (R222, R239). -/
theorem haltedWith_of_exec_eq_raise (he : exec i s = raise h s) : ∃ t, exec i s = .next t ∧ HaltedWith s t h :=
  ⟨_, he, s.haltedWith_halt h⟩

/-- A service that only returns the host's status makes one host call and leaves memory alone (R243). -/
theorem calledHost_of_exec_eq_serviceStatus (he : exec i s = serviceStatus req s) :
    ∃ t, exec i s = .next t ∧ CalledHost s t req (s.hostResponse req).status ∧ SameBytes s t :=
  ⟨_, he, s.calledHost_return req _⟩

/-! ### PRINT, DRAW and unknown numbers (R241, R242, R245) -/

/-- Settles O50: the range is read, printed as one record, and 0 returned; or the range check fails first. -/
theorem printAppendsOneRecord : Obligations.PrintAppendsOneRecord := by
  intro s h7
  have he : exec .ecall s = servicePrint s := execEcall_eq h7
  refine ⟨fun hb => ?_, fun hne hlt => ?_⟩
  · rw [servicePrint, State.readRange_of_fits (a := s.arg0) (len := s.arg1) hb] at he
    have hw := (s.print (s.mem.readBytes s.arg0.toNat s.arg1.toNat)).wroteReg_setReg_advance 10#5 0#32
    have hout := hw.outputs
    exact ⟨_, _, he, Memory.length_readBytes .., s.bytesAt_readBytes _ _, hout.console, hw.regs, hw.pc, hw.bytes, hout.status,
      hout.frames, hout.hostCalls, hout.hostReplies, hout.hostDraws, hout.params⟩
  · rw [servicePrint, State.readRange_of_past (a := s.arg0) (len := s.arg1) hne hlt] at he
    exact haltedWith_of_exec_eq_raise he

/-- Settles O51: the VRAM slice is read, published as one frame, and 0 returned; or the range check fails first. -/
theorem drawPublishesTheVramSlice : Obligations.DrawPublishesTheVramSlice := by
  intro s h7
  have he : exec .ecall s = serviceDraw s := execEcall_eq h7
  refine ⟨fun hb => ?_, fun hne hlt => ?_⟩
  · rw [serviceDraw, State.readRange_of_fits hb] at he
    have hw := (s.publish (s.mem.readBytes s.params.vramBase.toNat s.params.vramLen.toNat)).wroteReg_setReg_advance 10#5 0#32
    have hout := hw.outputs
    exact ⟨_, _, he, Memory.length_readBytes .., s.bytesAt_readBytes _ _, hout.frames, hw.regs, hw.pc, hw.bytes, hout.status,
      hout.console, hout.hostCalls, hout.hostReplies, hout.hostDraws, hout.params⟩
  · rw [serviceDraw, State.readRange_of_past hne hlt] at he
    exact haltedWith_of_exec_eq_raise he

theorem serviceOf_of_unlisted {n : Word}
    (hn : n ∉ [0x00#32, 0x01#32, 0x02#32, 0x0A#32, 0x0B#32, 0x0C#32, 0x0D#32, 0x0E#32, 0x0F#32]) :
    serviceOf n = .unknown := by
  simp only [List.mem_cons, List.not_mem_nil, or_false, not_or] at hn
  simp [serviceOf, hn]

/-- Settles O52: such a number selects no service, and the ECALL is a writeback of -1 to a0. -/
theorem unknownServicesAnswerMinusOne : Obligations.UnknownServicesAnswerMinusOne := by
  intro s hn
  have he : exec .ecall s = retireReg 10#5 hostFailed s := by
    change execEcall s = _
    rw [execEcall_eq rfl, serviceOf_of_unlisted hn]
    rfl
  obtain ⟨t, ht, hw⟩ := wroteReg_of_exec_eq_retireReg he rfl
  exact ⟨t, ht, hw.regs, hw.pc, hw.bytes, hw.outputs⟩

/-! ### The services that only return the host's status (R243) -/

/-- Settles O53: each number selects the host service that only returns a status, with its own request. -/
theorem resetCloseAndSeekCallTheHost : Obligations.ResetCloseAndSeekCallTheHost := by
  refine fun s => ⟨fun h7 => calledHost_of_exec_eq_serviceStatus (execEcall_eq h7),
    fun h7 => calledHost_of_exec_eq_serviceStatus (execEcall_eq h7), fun h7 => ?_⟩
  obtain ⟨t, ht, hcall⟩ := calledHost_of_exec_eq_serviceStatus
    (i := .ecall) (s := s)
    (req := .seek (s.getReg 10#5) (s.getReg 11#5) (s.getReg 12#5)) (execEcall_eq h7)
  exact ⟨t, _, rfl, ht, hcall⟩

/-- A number of bytes selects the range for OPEN's path, and 0 the string (R240, D16). -/
theorem State.openPath_of_ne_zero (hne : s.getReg 11#5 ≠ 0#32) :
    s.openPath = s.readRange (s.getReg 10#5) (s.getReg 11#5).toNat := if_neg hne

theorem State.openPath_of_zero (h0 : s.getReg 11#5 = 0#32) : s.openPath = s.readString (s.getReg 10#5) := if_pos h0

/-- An OPEN whose path is found hands it over (R243). -/
theorem calledHost_of_openPath_some {path : List Byte} (h7 : s.getReg 17#5 = 0x0A#32) (hp : s.openPath = some path) :
    ∃ t, exec .ecall s = .next t ∧ CalledHost s t (.openFile path (s.getReg 12#5))
      (s.hostResponse (.openFile path (s.getReg 12#5))).status ∧ SameBytes s t := by
  have he : exec .ecall s = serviceOpen s := execEcall_eq h7
  rw [serviceOpen, hp] at he
  exact calledHost_of_exec_eq_serviceStatus he

/-- An OPEN whose path is not found halts with LoadFault(a0) (R239, R240). -/
theorem haltedWith_of_openPath_none (h7 : s.getReg 17#5 = 0x0A#32) (hp : s.openPath = none) :
    ∃ t, exec .ecall s = .next t ∧ HaltedWith s t (.loadFault s.pc (s.getReg 10#5)) := by
  have he : exec .ecall s = serviceOpen s := execEcall_eq h7
  rw [serviceOpen, hp] at he
  exact haltedWith_of_exec_eq_raise he

/-- Settles O54: the path is the range or the string that a1 selects, and SOCKET's address always the string at a0. -/
theorem openAndSocketHandOverTheirString : Obligations.OpenAndSocketHandOverTheirString := by
  intro s str
  refine ⟨fun h7 hne => ⟨fun hb => ?_, fun hlt => ?_⟩, fun h7 h0 => ⟨fun hstr => ?_, fun hno => ?_⟩,
    fun h7 => ⟨fun hstr => ?_, fun hno => ?_⟩⟩
  · have hp := (State.openPath_of_ne_zero hne).trans (State.readRange_of_fits (.inr hb))
    obtain ⟨t, hcall⟩ := calledHost_of_openPath_some h7 hp
    exact ⟨t, _, Memory.length_readBytes .., s.bytesAt_readBytes _ _, hcall⟩
  · exact haltedWith_of_openPath_none h7 ((State.openPath_of_ne_zero hne).trans (State.readRange_of_past hne hlt))
  · exact calledHost_of_openPath_some h7 ((State.openPath_of_zero h0).trans (State.readString_of_string hstr))
  · exact haltedWith_of_openPath_none h7 ((State.openPath_of_zero h0).trans (State.readString_of_noNul hno))
  · have he : exec .ecall s = serviceSocket s := execEcall_eq h7
    rw [serviceSocket, State.arg0, State.readString_of_string hstr] at he
    exact calledHost_of_exec_eq_serviceStatus he
  · have he : exec .ecall s = serviceSocket s := execEcall_eq h7
    rw [serviceSocket, State.arg0, State.readString_of_noNul hno] at he
    exact haltedWith_of_exec_eq_raise he

/-- Settles O55: the range is read before the host call, or its check fails first. -/
theorem writeHandsOverItsBytes : Obligations.WriteHandsOverItsBytes := by
  intro s h7
  have he : exec .ecall s = serviceWrite s := execEcall_eq h7
  refine ⟨fun hb => ?_, fun hne hlt => ?_⟩
  · rw [serviceWrite, State.readRange_of_fits (a := s.arg1) (len := s.arg2) hb] at he
    obtain ⟨t, hcall⟩ := calledHost_of_exec_eq_serviceStatus he
    exact ⟨t, _, Memory.length_readBytes .., s.bytesAt_readBytes _ _, hcall⟩
  · rw [serviceWrite, State.readRange_of_past (a := s.arg1) (len := s.arg2) hne hlt] at he
    exact haltedWith_of_exec_eq_raise he

/-! ### READ (R243) -/

/-- A host call's return after any change of memory: apart from memory, the call and its status in a0 are all that changed. -/
theorem State.calledHost_setMem_return (s : State) (req : HostRequest) (m : Memory) (v : Word) :
    CalledHost s (((s.afterHostCall req).setMem m).setReg 10#5 v).advance req v :=
  { (s.calledHost_return req v).1 with }

/-- What a payload store leaves is the state with some memory. -/
theorem State.storePayload_eq_setMem (s : State) (buf : Word) (r : HostReply) :
    s.storePayload buf r = s.setMem (s.storePayload buf r).mem := by
  rcases s.storePayload_cases buf r with he | ⟨-, he⟩ <;> rw [he] <;> rfl

/-- READ's host call, whatever the host answers (R243). -/
theorem State.calledHost_storePayload_return (s : State) (req : HostRequest) (buf : Word) (r : HostReply) (v : Word) :
    CalledHost s (((s.afterHostCall req).storePayload buf r).setReg 10#5 v).advance req v := by
  rw [State.storePayload_eq_setMem]
  exact s.calledHost_setMem_return ..

/-- With a negative status nothing is stored (R243). -/
theorem State.mem_storePayload_of_neg {buf : Word} {r : HostReply} (hneg : r.status.toInt < 0) :
    (s.storePayload buf r).mem = s.mem := by rw [State.storePayload, if_neg (not_le.mpr hneg)]

/-- With another status a payload that fits is stored (R243). -/
theorem State.mem_storePayload_of_nonneg {buf : Word} {r : HostReply} (h0 : 0 ≤ r.status.toInt)
    (hb : s.inBounds buf.toNat r.payload.length = true) :
    (s.storePayload buf r).mem = s.mem.writeBytes buf.toNat r.payload := by
  rw [State.storePayload, if_pos h0, State.writeRange_of_inBounds hb, Option.getD_some, State.setMem_mem]

/-- A READ whose buffer is in bounds makes its host call, and its memory is what the payload store leaves (R243). -/
theorem exec_ecall_read (h7 : s.getReg 17#5 = 0x0D#32) (hreq : req = .read (s.getReg 10#5) (s.getReg 12#5))
    (hin : s.inBounds (s.getReg 11#5).toNat (s.getReg 12#5).toNat = true) :
    ∃ t, exec .ecall s = .next t ∧ CalledHost s t req (s.hostResponse req).status ∧
      t.mem = ((s.afterHostCall req).storePayload (s.getReg 11#5) (s.hostResponse req)).mem := by
  subst hreq
  have he : exec .ecall s = serviceRead s := execEcall_eq h7
  rw [serviceRead, State.arg1, State.arg2, if_pos hin] at he
  exact ⟨_, he, s.calledHost_storePayload_return .., by simp [State.arg0]⟩

/-- A shorter range at the address of one in bounds is in bounds (R41). -/
theorem State.inBounds_of_le_of_inBounds {x m n : Nat} (hb : s.inBounds x n = true) (hmn : m ≤ n) :
    s.inBounds x m = true := by
  rw [s.inBounds_iff] at hb ⊢
  omega

/-- A host that keeps its duty sends a READ no more bytes than were asked for (R244). -/
theorem State.length_payload_of_keepsDuty {fd count : Word} (hreq : req = .read fd count) (hduty : s.HostKeepsDuty req)
    (h0 : 0 ≤ (s.hostResponse req).status.toInt) :
    (s.hostResponse req).payload.length = (s.hostResponse req).status.toNat ∧
      (s.hostResponse req).status.toNat ≤ count.toNat := by
  subst hreq
  exact length_payload_of_duty hduty h0

/-- Settles O56: the range check decides; the payload is stored when the status is not negative, and a host that keeps its duty
sends one no longer than the range checked. -/
theorem readStoresTheHostsPayload : Obligations.ReadStoresTheHostsPayload := by
  rintro s req r hm h7 hreq rfl
  refine ⟨fun hb => ?_, fun hne hlt => ?_⟩
  · have hin := (s.inBounds_word_iff _ _).mpr hb
    obtain ⟨t, ht, hcall, hmem⟩ := exec_ecall_read h7 hreq hin
    refine ⟨t, ht, hcall, fun hduty h0 => ?_, fun hneg x => by rw [hmem, State.mem_storePayload_of_neg hneg]; rfl⟩
    obtain ⟨hlen, hle⟩ := State.length_payload_of_keepsDuty hreq hduty h0
    have hfits := State.inBounds_of_le_of_inBounds hin (hlen.trans_le hle)
    rw [State.mem_storePayload_of_nonneg (s := s.afterHostCall req) h0 hfits] at hmem
    refine ⟨hlen, hle, fun k hk => ?_, fun x hx => ?_⟩
    · rw [hmem]
      exact (Memory.read_writeBytes _ s.mem hm _ k hk).symm
    · rw [hmem]
      exact Memory.read_writeBytes_ne _ s.mem _ x hx
  · have he : exec .ecall s = serviceRead s := execEcall_eq h7
    rw [serviceRead, State.arg1, State.arg2, State.inBounds_word_of_lt hne hlt] at he
    exact haltedWith_of_exec_eq_raise he

end Sys2Proof.Machine
end

section
/-! PROOFS. Family 60_exceptions: the host-call interface. An ECALL that grew the record of host calls has made the one call of
its service; its request's number, its answer and the host's duty for it are then read off that call. -/

namespace Sys2Proof.Machine

variable {s t : State} {req : HostRequest} {c : HostCall} {calls before : List HostCall} {p : Params} {r : HostReply} {v : Word}

/-! ### The call that an ECALL has made -/

/-- The service number of a request (R236). -/
def requestNumber : HostRequest → Word
  | .reset => 0x00#32
  | .openFile _ _ => 0x0A#32
  | .close _ => 0x0B#32
  | .seek _ _ _ => 0x0C#32
  | .read _ _ => 0x0D#32
  | .write _ _ => 0x0E#32
  | .socket _ => 0x0F#32

/-- Every request's wire form begins with its number (R246). -/
theorem take_hostRequestWire (req : HostRequest) : (hostRequestWire req).take 4 = leBytes 4 (requestNumber req) := by
  cases req <;> rfl

theorem calledHost_of_serviceStatus (ht : serviceStatus req s = .next t) :
    CalledHost s t req (s.hostResponse req).status := by
  cases ht
  exact (s.calledHost_return req _).1

/-- An ECALL makes no host call, or the one that a7 asks for, whose status is its result (R236, R243). -/
theorem execEcall_hostCalls (ht : execEcall s = .next t) :
    t.hostCalls = s.hostCalls ∨
      ∃ req, CalledHost s t req (s.hostResponse req).status ∧ requestNumber req = s.serviceNumber := by
  obtain ⟨-, -, reset7, open7, close7, seek7, read7, write7, socket7⟩ := serviceOf_eq s.serviceNumber
  rw [execEcall_eq (n := s.serviceNumber) rfl] at ht
  cases hs : serviceOf s.serviceNumber <;> simp only [hs] at ht
  case print =>
    unfold servicePrint at ht
    split at ht <;> cases ht <;> exact .inl (by simp)
  case draw =>
    unfold serviceDraw at ht
    split at ht <;> cases ht <;> exact .inl (by simp)
  case hostReset => exact .inr ⟨_, calledHost_of_serviceStatus ht, (reset7 hs).symm⟩
  case hostOpen =>
    unfold serviceOpen at ht
    split at ht
    · exact .inr ⟨_, calledHost_of_serviceStatus ht, (open7 hs).symm⟩
    · cases ht; exact .inl rfl
  case hostClose => exact .inr ⟨_, calledHost_of_serviceStatus ht, (close7 hs).symm⟩
  case hostSeek => exact .inr ⟨_, calledHost_of_serviceStatus ht, (seek7 hs).symm⟩
  case hostRead =>
    unfold serviceRead at ht
    split at ht <;> cases ht
    · exact .inr ⟨_, s.calledHost_storePayload_return .., (read7 hs).symm⟩
    · exact .inl rfl
  case hostWrite =>
    unfold serviceWrite at ht
    split at ht
    · exact .inr ⟨_, calledHost_of_serviceStatus ht, (write7 hs).symm⟩
    · cases ht; exact .inl rfl
  case hostSocket =>
    unfold serviceSocket at ht
    split at ht
    · exact .inr ⟨_, calledHost_of_serviceStatus ht, (socket7 hs).symm⟩
    · cases ht; exact .inl rfl
  case unknown => cases ht; exact .inl (by simp)

/-- An ECALL after which the record has grown by `c` made the call `c`: its request is the one a7 asks for, its reply the
environment's response, and that reply's status the result (R243). -/
theorem exec_ecall_made_call (ht : exec .ecall s = .next t) (hc : t.hostCalls = s.hostCalls ++ [c]) :
    requestNumber c.request = s.serviceNumber ∧ c.reply = s.hostResponse c.request ∧
      CalledHost s t c.request c.reply.status := by
  rcases execEcall_hostCalls ht with hsame | ⟨req, hcall, hnum⟩
  · simp [hsame] at hc
  · obtain rfl : ⟨req, s.hostResponse req⟩ = c :=
      List.singleton_inj.mp (List.append_cancel_left (hcall.hostCalls.symm.trans hc))
    exact ⟨hnum, rfl, hcall⟩

/-- Settles O58: the wire form begins with the request's number, which is the one a7 asked for. -/
theorem requestsBeginWithTheServiceNumber : Obligations.RequestsBeginWithTheServiceNumber := by
  intro s t c ht hc
  obtain ⟨hnum, -, -⟩ := exec_ecall_made_call ht hc
  rw [take_hostRequestWire, leWord_leBytes_4]
  exact hnum

/-! ### Answers (R238) -/

/-- A settled response is the call's answer (log 7). -/
theorem State.hostResponse_of_cons {rest : List HostReply} (hq : s.hostReplies = r :: rest) (req : HostRequest) :
    s.hostResponse req = r := by rw [State.hostResponse, hq, List.headD_cons]

/-- With no response settled the answer is the free value (log 6). -/
theorem State.hostResponse_of_nil (hq : s.hostReplies = []) (req : HostRequest) :
    s.hostResponse req = Config.hostReply s.hostDraws req := by rw [State.hostResponse, hq, List.headD_nil]

/-- Settles O60: the reply of the call made is the environment's response, and its status the result. -/
theorem hostAnswersReachTheCoreUnchecked : Obligations.HostAnswersReachTheCoreUnchecked := by
  intro s t c ht hc
  obtain ⟨-, hreply, hcall⟩ := exec_ecall_made_call ht hc
  have htail := hcall.hostReplies
  refine ⟨fun r rest hq => ?_, fun hq => ?_, hcall.regs, hcall.pc, hcall.hostDraws⟩
  · exact ⟨hreply.trans (State.hostResponse_of_cons hq _), by rw [htail, hq, List.tail_cons]⟩
  · exact ⟨hreply.trans (State.hostResponse_of_nil hq _), by rw [htail, hq, List.tail_nil]⟩

/-! ### Duties, service by service (R244) -/

theorem hostMeetsDuty_iff :
    hostMeetsDuty p before req r = true ↔
      (r.status = hostFailed ∨ hostStatusAllowed p before r.status req = true) ∧
        r.payload.length = hostPayloadLength r.status req := by
  simp [hostMeetsDuty]

theorem status_of_reset_or_close_duty (hq : req = .reset ∨ ∃ fd, req = .close fd)
    (h : hostMeetsDuty p before req r = true) : r.status = 0#32 ∨ r.status = 0xFFFFFFFF#32 := by
  obtain ⟨hstatus, -⟩ := hostMeetsDuty_iff.mp h
  rcases hq with rfl | ⟨fd, rfl⟩ <;> exact hstatus.symm.imp_left eq_of_beq

theorem status_of_seek_duty {fd offset whence : Word} (h : hostMeetsDuty p before (.seek fd offset whence) r = true) :
    r.status = 0xFFFFFFFF#32 ∨ 0 ≤ r.status.toInt :=
  (hostMeetsDuty_iff.mp h).1.imp_right of_decide_eq_true

theorem status_of_open_duty {path : List Byte} {flags : Word} (h : hostMeetsDuty p before (.openFile path flags) r = true) :
    r.status = 0xFFFFFFFF#32 ∨
      (0 < r.status.toInt ∧ p.descriptorStart.toInt ≤ r.status.toInt ∧ r.status ∉ descriptorsGiven before) :=
  (hostMeetsDuty_iff.mp h).1.imp_right isNewDescriptor_iff.mp

theorem status_of_socket_duty {address : List Byte} (h : hostMeetsDuty p before (.socket address) r = true) :
    r.status.toInt < 0 ∨
      (0 < r.status.toInt ∧ p.descriptorStart.toInt ≤ r.status.toInt ∧ r.status ∉ descriptorsGiven before) := by
  by_cases h0 : 0 ≤ r.status.toInt
  · exact .inr (isNewDescriptor_iff.mp (isNewDescriptor_of_duty (.inr ⟨address, rfl⟩) h h0))
  · exact .inl (not_le.mp h0)

/-- A descriptor that may be a pipe is one that the host may give out (R248). -/
theorem bounds_of_mayBePipe {fd : Word} (h : mayBePipe p before fd = true) :
    0 < fd.toInt ∧ p.descriptorStart.toInt ≤ fd.toInt := by
  simp only [mayBePipe, Bool.and_eq_true, decide_eq_true_eq] at h
  exact h.1

theorem answer_of_read_duty {fd count : Word} (h : hostMeetsDuty p before (.read fd count) r = true) :
    (r.status = 0xFFFFFFFF#32 ∧ r.payload = []) ∨
    (r.status = 0xFFFFFFC0#32 ∧ r.payload = [] ∧ mayBePipe p before fd = true ∧ 0 < fd.toInt ∧
      p.descriptorStart.toInt ≤ fd.toInt) ∨
    (0 ≤ r.status.toInt ∧ r.status.toNat ≤ count.toNat ∧ r.payload.length = r.status.toNat) := by
  rcases read_duty_iff.mp h with hcount | hfail | ⟨hagain, hnil, hpipe⟩
  · exact .inr (.inr hcount)
  · exact .inl hfail
  · exact .inr (.inl ⟨hagain, hnil, hpipe, bounds_of_mayBePipe hpipe⟩)

/-- Only a READ has a payload (R243, R244). -/
theorem payload_eq_nil_of_duty (hread : ∀ fd count, req ≠ .read fd count) (h : hostMeetsDuty p before req r = true) :
    r.payload = [] := by
  obtain ⟨-, hlen⟩ := hostMeetsDuty_iff.mp h
  cases req
  case read fd count => exact absurd rfl (hread fd count)
  all_goals exact List.length_eq_zero_iff.mp hlen

/-! ### Descriptors over a run (R248) -/

/-- One more call that keeps its duty gives out no descriptor a second time. -/
theorem nodup_descriptorsGiven_append_one (hnd : (descriptorsGiven before).Nodup)
    (hduty : hostMeetsDuty p before c.request c.reply = true) : (descriptorsGiven (before ++ [c])).Nodup := by
  have gives (hq : (∃ path flags, c.request = .openFile path flags) ∨ ∃ address, c.request = .socket address) :
      (if 0 ≤ c.reply.status.toInt then c.reply.status :: descriptorsGiven before else descriptorsGiven before).Nodup := by
    split
    · obtain ⟨-, -, hnew⟩ := isNewDescriptor_iff.mp (isNewDescriptor_of_duty hq hduty ‹_›)
      exact List.nodup_cons.mpr ⟨hnew, hnd⟩
    · exact hnd
  rw [descriptorsGiven_append_one]
  obtain ⟨request, reply⟩ := c
  cases request
  case reset => exact List.nodup_nil
  case openFile path flags => exact gives (.inl ⟨path, flags, rfl⟩)
  case socket address => exact gives (.inr ⟨address, rfl⟩)
  all_goals exact hnd

/-- Calls that all keep their duties give out no descriptor twice (between two RESETs). -/
theorem nodup_descriptorsGiven (h : callsMeetDuty p [] calls = true) : (descriptorsGiven calls).Nodup := by
  induction calls using List.reverseRecOn with
  | nil => exact List.nodup_nil
  | append_singleton calls c ih =>
    rw [callsMeetDuty_append_one, Bool.and_eq_true, List.nil_append] at h
    obtain ⟨hcalls, hlast⟩ := h
    exact nodup_descriptorsGiven_append_one (ih hcalls) hlast

/-- A call that keeps its duty after calls that kept theirs (R244). -/
theorem CalledHost.hostKeptDuties (hcall : CalledHost s t req v) (hduty : s.HostKeepsDuty req) (hkept : s.HostKeptDuties) :
    t.HostKeptDuties := by
  rw [State.HostKeptDuties, hcall.params, hcall.hostCalls, callsMeetDuty_append_one, Bool.and_eq_true, List.nil_append]
  exact ⟨hkept, hduty⟩

/-- An ECALL's result is read from a0 (R237). -/
theorem CalledHost.result (hcall : CalledHost s t req v) : t.getReg 10#5 = v := by
  rw [hcall.regs 10#5, if_neg (by decide), if_pos rfl]

/-- Settles O57: a0 is the status of the call made, which the duty of its service bounds; and the duties kept before and in
this call make every descriptor new. -/
theorem hostAnswersKeepTheirDuties : Obligations.HostAnswersKeepTheirDuties := by
  intro s t c ht hc hkeeps
  obtain ⟨-, hreply, hcall⟩ := exec_ecall_made_call ht hc
  have hduty : hostMeetsDuty s.params s.hostCalls c.request c.reply = true := hreply ▸ hkeeps
  rw [hcall.result]
  exact ⟨fun hq => status_of_reset_or_close_duty (.inl hq) hduty, fun _ _ hq => status_of_open_duty (hq ▸ hduty),
    fun fd hq => status_of_reset_or_close_duty (.inr ⟨fd, hq⟩) hduty, fun _ _ _ hq => status_of_seek_duty (hq ▸ hduty),
    fun _ _ hq => answer_of_read_duty (hq ▸ hduty), fun _ hq => status_of_socket_duty (hq ▸ hduty),
    fun hread => payload_eq_nil_of_duty hread hduty, fun hkept =>
      have hkept' := hcall.hostKeptDuties hkeeps hkept
      ⟨hkept', nodup_descriptorsGiven hkept'⟩⟩

end Sys2Proof.Machine
end

section
/-! PROOFS. Family 70_reset_and_hazards: the launch. Its memory is the given cells written one after another, with the image
over them; every property of the memory is kept by each of these writes. -/

namespace Sys2Proof.Machine

variable {n x : Nat} {l : LaunchInputs} {t : State}

/-! ### The initial bytes (R33, R266) -/

theorem Memory.ofCells_append_one (n : Nat) (cells : List Host.Cell) (c : Host.Cell) :
    Memory.ofCells n (cells ++ [c]) =
      if c.1 < n then (Memory.ofCells n cells).write c.1 c.2 else Memory.ofCells n cells := List.foldl_concat ..

theorem initialByte_append_one (cells : List Host.Cell) (c : Host.Cell) (x : Nat) :
    initialByte (cells ++ [c]) x = if c.1 = x then c.2 else initialByte cells x := List.foldl_concat ..

theorem Memory.wf_ofCells (n : Nat) (cells : List Host.Cell) : (Memory.ofCells n cells).wf = true := by
  induction cells using List.reverseRecOn with
  | nil => rfl
  | append_singleton cells c ih =>
    rw [Memory.ofCells_append_one]
    split
    · exact Memory.wf_write _ ih _ _
    · exact ih

theorem Memory.within_ofCells (n : Nat) (cells : List Host.Cell) : (Memory.ofCells n cells).within n = true := by
  induction cells using List.reverseRecOn with
  | nil => rfl
  | append_singleton cells c ih =>
    rw [Memory.ofCells_append_one]
    split
    · exact Memory.within_write n _ ih _ _ ‹_›
    · exact ih

/-- Below mem_size each address holds the last byte given for it. -/
theorem Memory.read_ofCells (cells : List Host.Cell) (hx : x < n) :
    (Memory.ofCells n cells).read x = initialByte cells x := by
  induction cells using List.reverseRecOn with
  | nil => rfl
  | append_singleton cells c ih =>
    rw [Memory.ofCells_append_one, initialByte_append_one]
    by_cases hc : c.1 = x
    · subst hc
      rw [if_pos hx, if_pos rfl, Memory.read_write_self _ (Memory.wf_ofCells n cells)]
    · rw [if_neg hc, ← ih]
      split
      · exact Memory.read_write_ne _ _ _ _ (Ne.symm hc)
      · rfl

/-! ### The launch (R266, R270) -/

/-- The state that a launch which is not refused yields (R266). -/
def LaunchInputs.firstState (l : LaunchInputs) : State :=
  { regs := l.regs.set 0 0
    pc := l.initialPc
    mem := (Memory.ofCells l.params.memSize l.mem).writeBytes l.loadBase.toNat l.image
    status := .running
    console := []
    frames := []
    hostCalls := []
    hostReplies := l.hostReplies
    hostDraws := 0
    params := l.params }

theorem launch_eq (l : LaunchInputs) : launch l = if l.params.wf && l.fits then some l.firstState else none := rfl

theorem LaunchInputs.fits_iff : l.fits = true ↔ l.loadBase.toNat + l.image.length ≤ l.params.memSize := by
  simp [LaunchInputs.fits]

theorem Params.wf_iff {p : Params} : p.wf = true ↔ 4 ≤ p.memSize ∧ p.memSize ≤ 2 ^ 32 := decide_eq_true_iff

theorem launch_eq_none_iff : launch l = none ↔ ¬l.params.wf = true ∨ ¬l.fits = true := by
  rw [launch_eq, ← not_and_or, ← Bool.and_eq_true]
  split <;> simp [*]

theorem launch_eq_some (h : launch l = some t) : l.params.wf = true ∧ l.fits = true ∧ t = l.firstState := by
  rw [launch_eq] at h
  split at h
  · rename_i hok
    cases h
    obtain ⟨hwf, hfits⟩ := Bool.and_eq_true_iff.mp hok
    exact ⟨hwf, hfits, rfl⟩
  · cases h

/-- x0 reads 0, and the other registers what the launch gives (R22, R266). -/
theorem LaunchInputs.getReg_firstState (l : LaunchInputs) (r : RegIdx) :
    l.firstState.getReg r = if r = 0#5 then 0#32 else l.regs[r.toNat] := by
  rw [State.getReg]
  split
  · rfl
  · rename_i hr
    exact Vector.getElem_set_ne (by decide) r.isLt fun h0 => hr (BitVec.eq_of_toNat_eq h0.symm)

/-- Settles O18: the image is written over the bytes given, and is refused when it does not fit. -/
theorem launchFollowsItsRule : Obligations.LaunchFollowsItsRule := by
  refine fun l => ⟨?_, fun t ht => ?_⟩
  · rw [launch_eq_none_iff, Params.wf_iff, LaunchInputs.fits_iff, not_le]
  · obtain ⟨-, -, rfl⟩ := launch_eq_some ht
    have hwf := Memory.wf_ofCells l.params.memSize l.mem
    exact ⟨rfl, l.getReg_firstState, fun k hk => Memory.read_writeBytes _ _ hwf _ k hk,
      fun x hx ho => (Memory.read_writeBytes_ne _ _ _ x ho).trans (Memory.read_ofCells l.mem hx), rfl, rfl, rfl, rfl⟩

/-- A launch that is not refused yields a running state with no frames, whose memory is canonical and below mem_size. -/
theorem LaunchInputs.inv_firstState (hwf : l.params.wf = true) (hfits : l.fits = true) : l.firstState.Inv where
  params_wf := hwf
  x0_slot := Vector.getElem_set_self _
  mem_wf := Memory.wf_writeBytes _ _ (Memory.wf_ofCells _ _) _
  mem_within := Memory.within_writeBytes _ _ _ (Memory.within_ofCells _ _) _ (.inr (LaunchInputs.fits_iff.mp hfits))
  frames_length := fun _ hf => nomatch hf
  halt_pc := fun _ hh => nomatch hh

/-- Settles O19: the state of such a launch is its first one, whose memory was written below mem_size only. -/
theorem launchMeetsInvariant : Obligations.LaunchMeetsInvariant := by
  intro l t ht
  obtain ⟨hwf, hfits, rfl⟩ := launch_eq_some ht
  exact LaunchInputs.inv_firstState hwf hfits

end Sys2Proof.Machine
end

section
/-! PROOFS. Family 70_reset_and_hazards: the step. It is total, since every case of an instruction and of a step is a next
state; it runs what the word at the pc decodes to, and leaves a halted core alone. -/

namespace Sys2Proof.Machine

theorem exec_answers_next (i : Instr) (s : State) : ∃ t, exec i s = .next t := by
  by_cases hi : i = .ecall
  · subst hi
    rcases execEcall_cases s with ⟨_, he, -⟩ | ⟨_, -, he, -⟩ | he | ⟨_, -, he⟩ | ⟨_, he⟩ | ⟨_, _, -, -, he⟩ <;> exact ⟨_, he⟩
  · rcases exec_cases i s hi with ⟨_, _, _, -, he⟩ | ⟨_, he⟩ | ⟨-, _, _, -, he⟩ | ⟨_, -, he⟩ <;> exact ⟨_, he⟩

/-- Settles O12: a step is the identity, a halt, or an instruction's execution. -/
theorem everyStepAnswersNext : Obligations.EveryStepAnswersNext := by
  refine ⟨exec_answers_next, fun s => ?_⟩
  rcases step_cases s with ⟨_, -, he⟩ | ⟨-, _, -, he⟩ | ⟨-, i, -, he⟩
  · exact ⟨_, he⟩
  · exact ⟨_, he⟩
  · exact he ▸ exec_answers_next i s

/-- Settles O11: the fetch at an aligned pc answers what the word there decodes to. -/
theorem stepRunsDecodedInstruction : Obligations.StepRunsDecodedInstruction := by
  intro s w i hr h4 hw hd
  have hf := State.fetchInstr_of_memRead h4 hw
  rw [hd] at hf
  exact ⟨wellFormed_of_decode hd, step_of_fetchInstr_ok hr hf⟩

/-- Settles O13: the status alone decides. -/
theorem haltedStepChangesNothing : Obligations.HaltedStepChangesNothing := fun _ _ hs => step_of_halted hs

end Sys2Proof.Machine
end
